-- ==== Sys2Proof/Word.lean ====
section
/-! DEFINITION. The types of the values that cross the block's interface (00_scope.md R10, R11, R13). -/

namespace Sys2Proof

/-- A register value, a command word, a bus data word: 32 bits, bit 0 the least significant (R10). -/
abbrev Word := BitVec 32

/-- A symbol: an unsigned 21-bit value, compared for equality only (R13). -/
abbrev Sym := BitVec 21

/-- A bitstream: its bits in stream order, the earliest first (R11). -/
abbrev Bits := List Bool

/-- An index of the node arena, as wide as the command's index field (R33, 30_encoding.md R72). -/
abbrev NodeIdx := BitVec 11

/-- The offset of an access in the 256-byte register window (20_memory.md R50). -/
abbrev Offset := BitVec 8

end Sys2Proof
end

