-- ==== Sys2Proof/Config.lean ====
section
/-! DEFINITION. What one instance of the block fixes (00_scope.md R8, R9) and what the spec leaves to the platform:
HHC_BASE (20_memory.md R59) and the reference host's INJ_START (48_host_reference.md R198). -/

namespace Sys2Proof

/-- The instance parameters of R8 that the block reports in PARAM. The model takes them as an argument: State holds
them, no step writes them (log 1). -/
structure Params where
  symIdxW   : Nat
  nodeW     : Nat
  lMax      : Nat
  qCapLog2  : Nat
  sqCapLog2 : Nat
deriving DecidableEq, Repr

namespace Params

/-- The legal ranges of R8: "A configuration outside these ranges is not an HHC" (R9). -/
def legal (p : Params) : Bool :=
  decide (1 ≤ p.symIdxW) && decide (p.symIdxW ≤ 10) && decide (1 ≤ p.nodeW) && decide (p.nodeW ≤ 11) &&
  decide (1 ≤ p.lMax) && decide (p.lMax ≤ 32) && decide (6 ≤ p.qCapLog2) && decide (p.qCapLog2 ≤ 15) &&
  decide (5 ≤ p.sqCapLog2) && decide (p.sqCapLog2 ≤ 15)

/-- The default column of R8, with PARAM = 0x00582098 (10_state.md R23). -/
def default : Params :=
  { symIdxW := 8, nodeW := 9, lMax := 32, qCapLog2 := 8, sqCapLog2 := 5 }

/-- N_SYM, the number of code-table entries. -/
def nSym (p : Params) : Nat := 2 ^ p.symIdxW

/-- N_NODE, the number of nodes of the arena. -/
def nNode (p : Params) : Nat := 2 ^ p.nodeW

/-- Q_CAP, the capacity of each bit queue. -/
def qCap (p : Params) : Nat := 2 ^ p.qCapLog2

/-- SQ_CAP, the capacity of the HD symbol queue. -/
def sqCap (p : Params) : Nat := 2 ^ p.sqCapLog2

end Params

namespace Config

/-- HHC_BASE divided by 256. OPEN (D24): the platform chooses it, nothing in Lean can know it (log 7). -/
opaque basePage : Nat

/-- HHC_BASE, "aligned to 256 bytes" (R59). -/
def hhcBase : Nat := 256 * basePage

/-- The window offset that a host access at physical address addr reaches, none where it "never reach[es] the
block" (R59). -/
def windowOffset (addr : Nat) : Option Offset :=
  if hhcBase ≤ addr ∧ addr < hhcBase + 256 then some (BitVec.ofNat 8 (addr - hhcBase)) else none

/-- The generator behind INJ_START. OPEN (D46): a deterministic function of seed and interval, nothing more. DESIGN CHOICE:
R198 gives the seed no type and no range; the model takes a natural number (log 15). -/
opaque injGenerator : Nat → Nat → Nat

/-- INJ_START(seed, interval), in [0, interval - 1] for a positive interval (R198). -/
def injStart (seed interval : Nat) : Nat := injGenerator seed interval % interval

end Config

end Sys2Proof
end

