-- ==== Sys2Proof/Syntax.lean ====
section
/-! DEFINITION. The syntax of what a host can do to the block: accesses (20_memory.md R53), registers (R51), command
words (30_encoding.md R76), and Instr, one constructor per row of spec/opcode_table.json. -/

namespace Sys2Proof

/-- The named registers of the window, in the order of the map (R51). -/
inductive Reg where
  | id | param | status | cmd | arg0 | arg1 | res | irqEn | errCmd
  | heLevel | heData | heCount
  | hdLevel | hdData | hdWalk
  | ceLevel | ceData | ceState
  | cdLevel | cdData | cdState | cdNcorr
deriving DecidableEq, Repr

/-- The access column of the map of R51. -/
inductive RegKind where
  /-- Read-only: a write is ignored (R54). -/
  | ro
  /-- Read-only, and a read removes data (R56). -/
  | roPop
  /-- Read, and a write of ones clears (STATUS). -/
  | w1c
  /-- Write-only: a read gives 0 (CMD). -/
  | wo
  /-- Read and write. -/
  | rw
deriving DecidableEq, Repr

/-- One host access that reaches the window: its width in bits, its offset, and for a write its data. An access of
another width carries 32 bits of data here too; nothing reads them (log 6). -/
inductive Access where
  | read  (bits : Nat) (off : Offset)
  | write (bits : Nat) (off : Offset) (data : Word)
deriving DecidableEq, Repr

/-- Direction of an access at a reserved offset (R52). -/
inductive Dir where
  | read
  | write (data : Word)
deriving DecidableEq, Repr

/-- The commands of the opcode map, each with the named fields of its format (R72, R76). -/
inductive Command where
  | nop
  | clear (units : BitVec 4)
  | ctInv
  | ctLoad (len : BitVec 6) (idx : BitVec 10)
  | heSym (sym : Sym)
  | hdRoot (idx : NodeIdx)
  | hdNode (idx : NodeIdx)
  | hdBits (n : BitVec 6)
  | hdEnd
  | ceEnc4 (d : BitVec 4)
  | ceBits (n : BitVec 6)
  | ceEnd
  | cdDec7 (b : BitVec 7)
  | cdBits (n : BitVec 6)
  | cdEnd (pad : BitVec 2)
deriving DecidableEq, Repr

/-- What the host can do in one step, one constructor per row of the opcode table. The first fifteen are writes to CMD
of a command's word; reservedOpc is a write to CMD of a word of R77. wrCmd is the table's row "wr CMD" (R26) for any
word; the decoder gives it for the words no other row has, those with a defined opcode and a reserved bit set (R78)
(log 10). -/
inductive Instr where
  | nop
  | clear (units : BitVec 4)
  | ctInv
  | ctLoad (len : BitVec 6) (idx : BitVec 10)
  | heSym (sym : Sym)
  | hdRoot (idx : NodeIdx)
  | hdNode (idx : NodeIdx)
  | hdBits (n : BitVec 6)
  | hdEnd
  | ceEnc4 (d : BitVec 4)
  | ceBits (n : BitVec 6)
  | ceEnd
  | cdDec7 (b : BitVec 7)
  | cdBits (n : BitVec 6)
  | cdEnd (pad : BitVec 2)
  | reservedOpc (w : Word)
  | wrCmd (w : Word)
  | wrArg0 (v : Word)
  | wrArg1 (v : Word)
  | rdArg0
  | rdArg1
  | wrStatus (v : Word)
  | rdStatus
  | wrIrqEn (v : Word)
  | rdIrqEn
  | rdId
  | rdParam
  | rdRes
  | rdErrCmd
  | rdCmd
  | rdHeLevel
  | rdHeData
  | rdHeCount
  | rdHdLevel
  | rdHdData
  | rdHdWalk
  | rdCeLevel
  | rdCeData
  | rdCeState
  | rdCdLevel
  | rdCdData
  | rdCdState
  | rdCdNcorr
  | wrReadOnly (r : Reg) (v : Word)
  | reservedOffset (dir : Dir) (off : Offset)
  | busError (a : Access)
deriving DecidableEq, Repr

end Sys2Proof
end

