-- ==== Sys2Proof/Decode.lean ====
section
/-! DEFINITION. Decoding: a command word by the opcode map (30_encoding.md R71, R72, R76 to R80), an access by the
register map (20_memory.md R51 to R54). Both are total. After them the encoders, from the same tables. -/

namespace Sys2Proof

/-! ## Command words -/

/-- The format names of R72. -/
inductive Format where
  | n | u | ct | sym | idx | cnt | d4 | b7 | pad
deriving DecidableEq, Repr

/-- The field masks of R80: the named-field bits of [26:0]. -/
def Format.fieldMask : Format → BitVec 27
  | .n => 0x0000000#27
  | .u => 0x000000F#27
  | .ct => 0x03F03FF#27
  | .sym => 0x01FFFFF#27
  | .idx => 0x00007FF#27
  | .cnt => 0x000003F#27
  | .d4 => 0x000000F#27
  | .b7 => 0x000007F#27
  | .pad => 0x0000003#27

/-- FORMAT_OF of R80, by the opcode column of R76; none for the reserved opcodes of R77. -/
def formatOf (opc : BitVec 5) : Option Format :=
  match opc.toNat with
  | 0x00 => some .n
  | 0x01 => some .u
  | 0x02 => some .n
  | 0x03 => some .ct
  | 0x04 => some .sym
  | 0x05 => some .idx
  | 0x06 => some .idx
  | 0x07 => some .cnt
  | 0x08 => some .n
  | 0x09 => some .d4
  | 0x0A => some .cnt
  | 0x0B => some .n
  | 0x0C => some .b7
  | 0x0D => some .cnt
  | 0x0E => some .pad
  | _ => none

/-- OPC, bits [31:27] of a command word (R71). -/
def opcOf (w : Word) : BitVec 5 := w.extractLsb' 27 5

/-- Whether a bit of [26:0] outside the format's named fields is 1 (R78). -/
def reservedBitSet (f : Format) (w : Word) : Bool :=
  (w.extractLsb' 0 27 &&& ~~~ f.fieldMask) != 0#27

/-- Why a command word is BADCMD (60_exceptions.md R214). -/
inductive BadWord where
  /-- OPC 0x0F to 0x1F (R77). -/
  | reservedOpcode
  /-- A 1 in a reserved bit of a defined opcode's format (R78). -/
  | reservedBit
deriving DecidableEq, Repr

/-- The command of a defined opcode, its fields cut out of the word by the columns of R72. -/
def commandOf (w : Word) : Option Command :=
  match (opcOf w).toNat with
  | 0x00 => some .nop
  | 0x01 => some (.clear (w.extractLsb' 0 4))
  | 0x02 => some .ctInv
  | 0x03 => some (.ctLoad (w.extractLsb' 16 6) (w.extractLsb' 0 10))
  | 0x04 => some (.heSym (w.extractLsb' 0 21))
  | 0x05 => some (.hdRoot (w.extractLsb' 0 11))
  | 0x06 => some (.hdNode (w.extractLsb' 0 11))
  | 0x07 => some (.hdBits (w.extractLsb' 0 6))
  | 0x08 => some .hdEnd
  | 0x09 => some (.ceEnc4 (w.extractLsb' 0 4))
  | 0x0A => some (.ceBits (w.extractLsb' 0 6))
  | 0x0B => some .ceEnd
  | 0x0C => some (.cdDec7 (w.extractLsb' 0 7))
  | 0x0D => some (.cdBits (w.extractLsb' 0 6))
  | 0x0E => some (.cdEnd (w.extractLsb' 0 2))
  | _ => none

/-- The decode function of R80: every word is exactly one command or BADCMD. -/
def decodeCommand (w : Word) : Except BadWord Command :=
  match formatOf (opcOf w), commandOf w with
  | some f, some c => if reservedBitSet f w then .error .reservedBit else .ok c
  | _, _ => .error .reservedOpcode

/-- The word of a command: OPC, then its format's fields with the reserved bits 0 (R72, R76). -/
def encodeCommand : Command → Word
  | .nop => 0x00#5 ++ 0#27
  | .clear units => 0x01#5 ++ 0#23 ++ units
  | .ctInv => 0x02#5 ++ 0#27
  | .ctLoad len idx => 0x03#5 ++ 0#5 ++ len ++ 0#6 ++ idx
  | .heSym sym => 0x04#5 ++ 0#6 ++ sym
  | .hdRoot idx => 0x05#5 ++ 0#16 ++ idx
  | .hdNode idx => 0x06#5 ++ 0#16 ++ idx
  | .hdBits n => 0x07#5 ++ 0#21 ++ n
  | .hdEnd => 0x08#5 ++ 0#27
  | .ceEnc4 d => 0x09#5 ++ 0#23 ++ d
  | .ceBits n => 0x0A#5 ++ 0#21 ++ n
  | .ceEnd => 0x0B#5 ++ 0#27
  | .cdDec7 b => 0x0C#5 ++ 0#20 ++ b
  | .cdBits n => 0x0D#5 ++ 0#21 ++ n
  | .cdEnd pad => 0x0E#5 ++ 0#25 ++ pad

/-! ## The register map -/

/-- The offset column of R51. -/
def Reg.offset : Reg → Offset
  | .id => 0x00#8
  | .param => 0x04#8
  | .status => 0x08#8
  | .cmd => 0x0C#8
  | .arg0 => 0x10#8
  | .arg1 => 0x14#8
  | .res => 0x18#8
  | .irqEn => 0x1C#8
  | .errCmd => 0x20#8
  | .heLevel => 0x24#8
  | .heData => 0x28#8
  | .heCount => 0x2C#8
  | .hdLevel => 0x30#8
  | .hdData => 0x34#8
  | .hdWalk => 0x38#8
  | .ceLevel => 0x3C#8
  | .ceData => 0x40#8
  | .ceState => 0x44#8
  | .cdLevel => 0x48#8
  | .cdData => 0x4C#8
  | .cdState => 0x50#8
  | .cdNcorr => 0x54#8

/-- The register at an offset, none where R51 has none. -/
def regAt (off : Offset) : Option Reg :=
  match off.toNat with
  | 0x00 => some .id
  | 0x04 => some .param
  | 0x08 => some .status
  | 0x0C => some .cmd
  | 0x10 => some .arg0
  | 0x14 => some .arg1
  | 0x18 => some .res
  | 0x1C => some .irqEn
  | 0x20 => some .errCmd
  | 0x24 => some .heLevel
  | 0x28 => some .heData
  | 0x2C => some .heCount
  | 0x30 => some .hdLevel
  | 0x34 => some .hdData
  | 0x38 => some .hdWalk
  | 0x3C => some .ceLevel
  | 0x40 => some .ceData
  | 0x44 => some .ceState
  | 0x48 => some .cdLevel
  | 0x4C => some .cdData
  | 0x50 => some .cdState
  | 0x54 => some .cdNcorr
  | _ => none

/-- The access column of R51. -/
def Reg.kind : Reg → RegKind
  | .status => .w1c
  | .cmd => .wo
  | .arg0 | .arg1 | .irqEn => .rw
  | .heData | .hdData | .ceData | .cdData => .roPop
  | .id | .param | .res | .errCmd | .heLevel | .heCount | .hdLevel | .hdWalk | .ceLevel | .ceState | .cdLevel
  | .cdState | .cdNcorr => .ro

/-- The registers whose writes R54 ignores. -/
def Reg.readOnly (r : Reg) : Bool :=
  match r.kind with
  | .ro | .roPop => true
  | .w1c | .wo | .rw => false

/-! ## Accesses -/

/-- Whether an access is an aligned 32-bit one, the only kind the block defines (R53). -/
def Access.aligned32 : Access → Bool
  | .read bits off => decide (bits = 32) && decide (off.toNat % 4 = 0)
  | .write bits off _ => decide (bits = 32) && decide (off.toNat % 4 = 0)

/-- Reading a register (R82, the table's rd rows). -/
def decodeRead : Reg → Instr
  | .id => .rdId
  | .param => .rdParam
  | .status => .rdStatus
  | .cmd => .rdCmd
  | .arg0 => .rdArg0
  | .arg1 => .rdArg1
  | .res => .rdRes
  | .irqEn => .rdIrqEn
  | .errCmd => .rdErrCmd
  | .heLevel => .rdHeLevel
  | .heData => .rdHeData
  | .heCount => .rdHeCount
  | .hdLevel => .rdHdLevel
  | .hdData => .rdHdData
  | .hdWalk => .rdHdWalk
  | .ceLevel => .rdCeLevel
  | .ceData => .rdCeData
  | .ceState => .rdCeState
  | .cdLevel => .rdCdLevel
  | .cdData => .rdCdData
  | .cdState => .rdCdState
  | .cdNcorr => .rdCdNcorr

/-- The instruction a command is. -/
def Command.toInstr : Command → Instr
  | .nop => .nop
  | .clear units => .clear units
  | .ctInv => .ctInv
  | .ctLoad len idx => .ctLoad len idx
  | .heSym sym => .heSym sym
  | .hdRoot idx => .hdRoot idx
  | .hdNode idx => .hdNode idx
  | .hdBits n => .hdBits n
  | .hdEnd => .hdEnd
  | .ceEnc4 d => .ceEnc4 d
  | .ceBits n => .ceBits n
  | .ceEnd => .ceEnd
  | .cdDec7 b => .cdDec7 b
  | .cdBits n => .cdBits n
  | .cdEnd pad => .cdEnd pad

/-- A write to CMD of w: the command it is, or the row its BADCMD falls under (R26, R77, R78, R80). -/
def decodeCmdWrite (w : Word) : Instr :=
  match decodeCommand w with
  | .ok c => c.toInstr
  | .error .reservedOpcode => .reservedOpc w
  | .error .reservedBit => .wrCmd w

/-- Writing v to a register (R82, the table's wr rows; R54 for the read-only ones). -/
def decodeWrite (r : Reg) (v : Word) : Instr :=
  match r with
  | .cmd => decodeCmdWrite v
  | .status => .wrStatus v
  | .arg0 => .wrArg0 v
  | .arg1 => .wrArg1 v
  | .irqEn => .wrIrqEn v
  | r => .wrReadOnly r v

/-- The instruction an access is. The bus fault is decided before anything else (60_exceptions.md R216). -/
def decode (a : Access) : Instr :=
  if a.aligned32 then
    match a with
    | .read _ off =>
      match regAt off with
      | some r => decodeRead r
      | none => .reservedOffset .read off
    | .write _ off v =>
      match regAt off with
      | some r => decodeWrite r v
      | none => .reservedOffset (.write v) off
  else .busError a

/-- MemRead(off(r), 4) (R14, R83). -/
def Access.rd (r : Reg) : Access := .read 32 r.offset

/-- MemWrite(off(r), 4, v) (R14, R83). -/
def Access.wr (r : Reg) (v : Word) : Access := .write 32 r.offset v

/-- The access that is the write of a command's word to CMD (R70). -/
def Access.command (c : Command) : Access := .wr .cmd (encodeCommand c)

/-- The access of an instruction, from the same tables. -/
def encode : Instr → Access
  | .nop => .command .nop
  | .clear units => .command (.clear units)
  | .ctInv => .command .ctInv
  | .ctLoad len idx => .command (.ctLoad len idx)
  | .heSym sym => .command (.heSym sym)
  | .hdRoot idx => .command (.hdRoot idx)
  | .hdNode idx => .command (.hdNode idx)
  | .hdBits n => .command (.hdBits n)
  | .hdEnd => .command .hdEnd
  | .ceEnc4 d => .command (.ceEnc4 d)
  | .ceBits n => .command (.ceBits n)
  | .ceEnd => .command .ceEnd
  | .cdDec7 b => .command (.cdDec7 b)
  | .cdBits n => .command (.cdBits n)
  | .cdEnd pad => .command (.cdEnd pad)
  | .reservedOpc w => .wr .cmd w
  | .wrCmd w => .wr .cmd w
  | .wrArg0 v => .wr .arg0 v
  | .wrArg1 v => .wr .arg1 v
  | .rdArg0 => .rd .arg0
  | .rdArg1 => .rd .arg1
  | .wrStatus v => .wr .status v
  | .rdStatus => .rd .status
  | .wrIrqEn v => .wr .irqEn v
  | .rdIrqEn => .rd .irqEn
  | .rdId => .rd .id
  | .rdParam => .rd .param
  | .rdRes => .rd .res
  | .rdErrCmd => .rd .errCmd
  | .rdCmd => .rd .cmd
  | .rdHeLevel => .rd .heLevel
  | .rdHeData => .rd .heData
  | .rdHeCount => .rd .heCount
  | .rdHdLevel => .rd .hdLevel
  | .rdHdData => .rd .hdData
  | .rdHdWalk => .rd .hdWalk
  | .rdCeLevel => .rd .ceLevel
  | .rdCeData => .rd .ceData
  | .rdCeState => .rd .ceState
  | .rdCdLevel => .rd .cdLevel
  | .rdCdData => .rd .cdData
  | .rdCdState => .rd .cdState
  | .rdCdNcorr => .rd .cdNcorr
  | .wrReadOnly r v => .wr r v
  | .reservedOffset .read off => .read 32 off
  | .reservedOffset (.write v) off => .write 32 off v
  | .busError a => a

/-! ## The opcode table's own numbering -/

/-- The access a row of spec/opcode_table.json stands for when its bits are w: a row of more than 8 and at most 32 bits
is a command word written to CMD; a row of at most 8 bits is an MMIO row, whose number is the offset alone, taken as a
read (log 11). -/
def accessOfTableWord (nbits w : Nat) : Option Access :=
  if nbits ≤ 8 then some (.read 32 (BitVec.ofNat 8 w))
  else if nbits ≤ 32 then some (.wr .cmd (BitVec.ofNat 32 w))
  else none

/-- The instruction the decoder reads from a row's bits (log 11). -/
def decodeTableWord (nbits w : Nat) : Option Instr :=
  (accessOfTableWord nbits w).map decode

end Sys2Proof
end

