-- ==== Sys2Proof/Machine/State.lean ====
section
/-! DEFINITION. The architectural state (10_state.md R20), the outcomes other than a next state, and the state after
reset (R48). -/

namespace Sys2Proof.Machine

/-- Why the machine stops with a fault. -/
inductive Fault where
  /-- The bus error response to an access that is not an aligned 32-bit one (20_memory.md R53, 00_scope.md R17). Raised
  by Instr.busError only. Safe: the block's state does not change, and the run stops where a host may go on (log 5). -/
  | busFault
deriving DecidableEq, Repr

/-- Why the model has no meaning for an instruction. -/
inductive Refusal where
  /-- The instruction has no meaning in the model yet. Raised by exec's arms only. Safe: the run stops. -/
  | notModelled (mnemonic : String)
deriving DecidableEq, Repr

/-- One entry of the code table (R30). -/
structure CtEntry where
  v    : Bool
  sym  : Sym
  len  : BitVec 6
  code : Word
deriving DecidableEq, Repr

/-- A node's kind (R33); value 3 never appears in the arena. -/
inductive NodeKind where
  | invalid
  | internal
  | leaf
deriving DecidableEq, Repr

/-- One node of the arena (R33): lv and rv say whether a child is present. -/
structure NodeEntry where
  kind  : NodeKind
  lv    : Bool
  rv    : Bool
  left  : NodeIdx
  right : NodeIdx
  sym   : Sym
deriving DecidableEq, Repr

/-- Four data bits d1, d2, d3, d4 (R43, 43_hamming_encoder.md R153). -/
structure Nibble where
  d1 : Bool
  d2 : Bool
  d3 : Bool
  d4 : Bool
deriving DecidableEq, Repr

/-- A 7-bit Hamming block, positions 1 to 7 in transmission order (R153). -/
structure Block where
  b1 : Bool
  b2 : Bool
  b3 : Bool
  b4 : Bool
  b5 : Bool
  b6 : Bool
  b7 : Bool
deriving DecidableEq, Repr

/-- What arrives at the block next: a host access at the port (20_memory.md R61), or the platform's reset signal
(70_reset_and_hazards.md R240). -/
inductive Event where
  | access (a : Access)
  | reset
deriving DecidableEq, Repr

/-- The state of one instance. The fields from arg0 to cdQ are R20's record, in its order; params, port and reads are the
model's own (logs 1, 2, 3). -/
structure State where
  arg0    : Word
  arg1    : Word
  res     : Word
  /-- STATUS[7:0] (R24). -/
  status  : BitVec 8
  irqEn   : BitVec 8
  errCmd  : Word
  /-- N_SYM entries (R30). -/
  ct      : List CtEntry
  /-- N_NODE entries (R32). -/
  node    : List NodeEntry
  heQ     : Bits
  heCount : Word
  hdQ     : List Sym
  root    : NodeIdx
  cur     : NodeIdx
  mid     : Bool
  ceG     : Bits
  cePad   : BitVec 2
  ceQ     : Bits
  cdB     : Bits
  cdHold  : Option Nibble
  cdSyn   : BitVec 3
  cdNcorr : Word
  cdQ     : Bits
  /-- The instance parameters (00_scope.md R8): no step writes them. -/
  params  : Params
  /-- The accesses still to arrive, the next one first (R61). -/
  port    : List Event
  /-- The words returned on the bus so far, the oldest first (R19). -/
  reads   : List Word
deriving DecidableEq, Repr

/-- A code-table entry after reset: v = 0; the other fields are unobservable (R31, log 8). -/
def CtEntry.atReset : CtEntry := { v := false, sym := 0, len := 0, code := 0 }

/-- A node after reset: kind INVALID; the other fields are unobservable (R31, log 8). -/
def NodeEntry.atReset : NodeEntry := { kind := .invalid, lv := false, rv := false, left := 0, right := 0, sym := 0 }

/-- The state after reset of an instance with parameters p: every element at its value of R48. -/
def State.resetOf (p : Params) : State :=
  { arg0 := 0, arg1 := 0, res := 0, status := 0, irqEn := 0, errCmd := 0,
    ct := List.replicate p.nSym CtEntry.atReset, node := List.replicate p.nNode NodeEntry.atReset,
    heQ := [], heCount := 0, hdQ := [], root := 0, cur := 0, mid := false,
    ceG := [], cePad := 0, ceQ := [], cdB := [], cdHold := none, cdSyn := 0, cdNcorr := 0, cdQ := [],
    params := p, port := [], reads := [] }

/-- The machine right after reset, with the default parameters of R8 (log 1). -/
def State.reset : State := State.resetOf Params.default

end Sys2Proof.Machine
end

