-- ==== Sys2Proof/Machine/Operands.lean ====
section
/-! DEFINITION. How words and bits convert (00_scope.md R11, R12), how a command reads its operands out of ARG0 and ARG1
(30_encoding.md R74, R75), and the words that reads of the state registers return (10_state.md R22, R23, R45). -/

namespace Sys2Proof.Machine

/-! ## Words and bit sequences -/

/-- unpack(w, n): w[31], w[30], ..., w[32-n] (R11). -/
def unpack (w : Word) (n : Nat) : Bits := (List.range n).map fun j => w.getLsbD (31 - j)

/-- A bit sequence as a number, its first bit the most significant. -/
def bitsToNat (s : Bits) : Nat := s.foldl (fun acc b => 2 * acc + b.toNat) 0

/-- A bit sequence left-aligned in n bits: s[0] at bit n-1, zeros below the last bit. -/
def packLeft (n : Nat) (s : Bits) : BitVec n := BitVec.ofNat n (bitsToNat s * 2 ^ (n - s.length))

/-- pack(s), for |s| ≤ 32: s[j] at bit 31-j and zeros below (R11). -/
def pack (s : Bits) : Word := packLeft 32 s

/-- The bits of a field of width n, its most significant bit first (R12). -/
def fieldBits {n : Nat} (v : BitVec n) : Bits := (List.range n).map fun j => v.getLsbD (n - 1 - j)

/-! ## Nibbles and blocks -/

/-- A nibble field: d1 is its most significant bit (30_encoding.md R72, format D4). -/
def Nibble.ofField (d : BitVec 4) : Nibble :=
  { d1 := d.getLsbD 3, d2 := d.getLsbD 2, d3 := d.getLsbD 1, d4 := d.getLsbD 0 }

/-- d1, d2, d3, d4 in stream order. -/
def Nibble.bits (d : Nibble) : Bits := [d.d1, d.d2, d.d3, d.d4]

/-- d1 at bit 3 (44_hamming_decoder.md R170, R176). -/
def Nibble.toField (d : Nibble) : BitVec 4 :=
  BitVec.ofBool d.d1 ++ BitVec.ofBool d.d2 ++ BitVec.ofBool d.d3 ++ BitVec.ofBool d.d4

/-- A block field: b1 is its most significant bit (30_encoding.md R72, format B7). -/
def Block.ofField (b : BitVec 7) : Block :=
  { b1 := b.getLsbD 6, b2 := b.getLsbD 5, b3 := b.getLsbD 4, b4 := b.getLsbD 3, b5 := b.getLsbD 2, b6 := b.getLsbD 1,
    b7 := b.getLsbD 0 }

/-- b1 to b7 in transmission order. -/
def Block.bits (b : Block) : Bits := [b.b1, b.b2, b.b3, b.b4, b.b5, b.b6, b.b7]

/-- b1 at bit 6 (43_hamming_encoder.md R150). -/
def Block.toField (b : Block) : BitVec 7 :=
  BitVec.ofBool b.b1 ++ BitVec.ofBool b.b2 ++ BitVec.ofBool b.b3 ++ BitVec.ofBool b.b4 ++ BitVec.ofBool b.b5 ++
    BitVec.ofBool b.b6 ++ BitVec.ofBool b.b7

/-! ## Operands from ARG0 and ARG1 -/

/-- SYM = ARG1[20:0], for CT.LOAD and HD.NODE (R75). -/
def argSym (s : State) : Sym := s.arg1.extractLsb' 0 21

/-- The n input bits of HD.BITS, CE.BITS and CD.BITS: unpack(ARG0, n) (R74). -/
def argBits (s : State) (n : BitVec 6) : Bits := unpack s.arg0 n.toNat

/-- CT.LOAD's code: ARG0 & (2^LEN - 1), the bits above LEN-1 dropped (41_huffman_encoder.md R111). -/
def argCode (s : State) (len : BitVec 6) : Word := s.arg0 &&& BitVec.ofNat 32 (2 ^ len.toNat - 1)

/-- The node kind a KIND field names, none for the illegal value 3 (R74). -/
def nodeKindOf (k : BitVec 2) : Option NodeKind :=
  match k.toNat with
  | 0 => some .invalid
  | 1 => some .internal
  | 2 => some .leaf
  | _ => none

/-- KIND, ARG0[31:30] (R74). -/
def argKind (s : State) : Option NodeKind := nodeKindOf (s.arg0.extractLsb' 30 2)

/-- HD.NODE's descriptor in ARG0 and ARG1, for a kind already read: LV [29], RV [28], LEFT [21:11], RIGHT [10:0]
(R74). -/
def argNode (s : State) (k : NodeKind) : NodeEntry :=
  { kind := k, lv := s.arg0.getLsbD 29, rv := s.arg0.getLsbD 28, left := s.arg0.extractLsb' 11 11,
    right := s.arg0.extractLsb' 0 11, sym := argSym s }

/-! ## The words of the identification and state registers -/

/-- The ID word (R22). -/
def idWord : Word := 0x48484301#32

/-- The PARAM word of an instance (R23). -/
def paramWord (p : Params) : Word :=
  0#8 ++ BitVec.ofNat 4 p.sqCapLog2 ++ BitVec.ofNat 4 p.qCapLog2 ++ 0#2 ++ BitVec.ofNat 6 p.lMax ++
    BitVec.ofNat 4 p.nodeW ++ BitVec.ofNat 4 p.symIdxW

/-- A LEVEL word: zext_32 of a queue's length (R45). -/
def levelWord {α : Type} (q : List α) : Word := BitVec.ofNat 32 q.length

/-- The HD_WALK word: root at [26:16], mid at [15], cur at [10:0] (42_huffman_decoder.md R138). -/
def hdWalkWord (s : State) : Word := 0#5 ++ s.root ++ BitVec.ofBool s.mid ++ 0#4 ++ s.cur

/-- The CE_STATE word: the group left-aligned at [11:8], its length at [6:4], cePad at [1:0]
(43_hamming_encoder.md R156). -/
def ceStateWord (s : State) : Word :=
  0#20 ++ packLeft 4 s.ceG ++ 0#1 ++ BitVec.ofNat 3 s.ceG.length ++ 0#2 ++ s.cePad

/-- The hold as CD_STATE shows it: 0 if empty (44_hamming_decoder.md R176). -/
def holdField (h : Option Nibble) : BitVec 4 :=
  match h with
  | some d => d.toField
  | none => 0

/-- The CD_STATE word: the partial block left-aligned at [22:16], the hold at [15:12], hold present at [8], the partial
block's length at [6:4], cdSyn at [2:0] (R176). -/
def cdStateWord (s : State) : Word :=
  0#9 ++ packLeft 7 s.cdB ++ holdField s.cdHold ++ 0#3 ++ BitVec.ofBool s.cdHold.isSome ++ 0#1 ++
    BitVec.ofNat 3 s.cdB.length ++ 0#1 ++ s.cdSyn

/-- An HD_DATA word: bit 31 marks a valid symbol (42_huffman_decoder.md R137). -/
def hdDataWord (sym : Sym) : Word := 1#1 ++ 0#10 ++ sym

end Sys2Proof.Machine
end

