-- ==== Sys2Proof/Machine/Flags.lean ====
section
/-! DEFINITION. The flags: the STATUS bits (10_state.md R24, R25, R49; 60_exceptions.md R211) and the interrupt line
(R220). -/

namespace Sys2Proof.Machine

/-- The errors that are raised (R212), the error rows of R211. -/
inductive Err where
  | badCmd
  | badArg
  | unkSym
  | length
  | tree
  | overrun
  | underrun
deriving DecidableEq, Repr

/-- The code of an error is its STATUS bit number (R211). -/
def Err.bit : Err → Nat
  | .badCmd => 0
  | .badArg => 1
  | .unkSym => 2
  | .length => 3
  | .tree => 4
  | .overrun => 5
  | .underrun => 6

/-- The bit number of TRUNC, which is information and not an error (R211). -/
def truncBit : Nat := 7

/-- status[k] <- 1, the other bits kept. -/
def setBit (status : BitVec 8) (k : Nat) : BitVec 8 := status ||| BitVec.ofNat 8 (2 ^ k)

/-- STATUS[5:0], the bits ERR_CMD capture reads (R213). -/
def commandErrors (status : BitVec 8) : BitVec 6 := status.extractLsb' 0 6

/-- ANYERR: the OR of bits [6:0]; TRUNC does not contribute (R25). -/
def anyErr (status : BitVec 8) : Bool := status.extractLsb' 0 7 != 0#7

/-- The word a read of STATUS returns: {ANYERR, 23'b0, status[7:0]} (R25, 40_control.md R95). -/
def statusWord (s : State) : Word := BitVec.ofBool (anyErr s.status) ++ 0#23 ++ s.status

/-- The host's write-one-to-clear of STATUS: status & ~v[7:0] (40_control.md R94). -/
def ackBits (status : BitVec 8) (v : Word) : BitVec 8 := status &&& ~~~ (v.extractLsb' 0 8)

/-- The interrupt line: the OR over i of status[i] AND irqEn[i] (R220). -/
def State.irq (s : State) : Bool := (s.status &&& s.irqEn) != 0#8

end Sys2Proof.Machine
end

