-- ==== Sys2Proof/Machine/Ops.lean ====
section
/-! DEFINITION. The operations the meanings share: reporting an error (60_exceptions.md R212, R213) and the host's
acknowledgement (40_control.md R94), the bus response of a read, popping a queue (20_memory.md R56), the tables
(10_state.md R30, R32), and reset (70_reset_and_hazards.md R240). -/

namespace Sys2Proof.Machine

/-- What a meaning answers. -/
abbrev Result := Host.Outcome State Fault Refusal

/-! ## Errors: the block's only exceptions -/

/-- raise E(info) (R212): the STATUS bit is set; ERR_CMD captures info if E is a command error and STATUS[5:0] was zero
just before (R213). It never traps and transfers no control (R210, R222). -/
def raise (e : Err) (info : Word) (s : State) : State :=
  { s with
    errCmd := if e ≠ .underrun ∧ commandErrors s.status = 0#6 then info else s.errCmd
    status := setBit s.status e.bit }

/-- A command c that ends by raising e: the info is its command word (R211). -/
def raiseCmd (e : Err) (c : Command) (s : State) : State := raise e (encodeCommand c) s

/-- status[TRUNC] <- 1: not a raise, no capture (R212, 42_huffman_decoder.md R134). -/
def setTrunc (s : State) : State := { s with status := setBit s.status truncBit }

/-- "Handling" an error: the host writes ones to STATUS (R223, R94). ERR_CMD is not cleared. -/
def acknowledge (v : Word) (s : State) : State := { s with status := ackBits s.status v }

/-! ## Reads -/

/-- The bus response of a read: v goes to the host (R19, log 3). -/
def respond (v : Word) (s : State) : State := { s with reads := s.reads ++ [v] }

/-- A DATA read of an empty queue: UNDERRUN, and 0 is returned; nothing is captured (20_memory.md R56). -/
def underrun (s : State) : State := respond 0 (raise .underrun 0 s)

/-- The word k = min(32, |q|) popped bits make (R56). -/
def popWord (q : Bits) : Word := pack (q.take 32)

/-- What the pop of k = min(32, |q|) bits leaves (R56). -/
def popRest (q : Bits) : Bits := q.drop 32

/-! ## Tables -/

/-- lookup(s): the valid entry of lowest index whose sym is s (41_huffman_encoder.md R113). -/
def lookup (ct : List CtEntry) (sym : Sym) : Option CtEntry := ct.find? fun e => e.v && e.sym == sym

/-- The bits of an entry's code, code[len-1] first and code[0] last (R30). -/
def CtEntry.bits (e : CtEntry) : Bits := (List.range e.len.toNat).map fun j => e.code.getLsbD (e.len.toNat - 1 - j)

/-- NODE[i]. An index outside the arena, which no reachable state holds, reads as an unloaded node (log 9). -/
def nodeAt (s : State) (i : NodeIdx) : NodeEntry := (s.node[i.toNat]?).getD NodeEntry.atReset

/-! ## Reset -/

/-- The reset signal: every element of R20 at its value of R48, all at once (R240). The instance's parameters are no
state (R20); the accesses still to come and the words the host already has are the host's (log 4). -/
def hardReset (s : State) : State := { State.resetOf s.params with port := s.port, reads := s.reads }

end Sys2Proof.Machine
end

