-- ==== Sys2Proof/Machine/Control.lean ====
section
/-! DEFINITION. The control commands (40_control.md R90, R91) and the reserved opcodes (30_encoding.md R77). -/

namespace Sys2Proof.Machine

/-- NOP: no effect (R90). A word with a reserved bit set is no NOP (R78). -/
def execNop (s : State) : Result := .next s

/-- The HE stream state as after reset (R91, UNITS[0]). -/
def clearHe (s : State) : State := { s with heQ := [], heCount := 0 }

/-- The HD stream state: the walker goes back to root, the root stays (R91, UNITS[1]). -/
def clearHd (s : State) : State := { s with hdQ := [], cur := s.root, mid := false }

/-- The CE stream state as after reset (R91, UNITS[2]). -/
def clearCe (s : State) : State := { s with ceQ := [], ceG := [], cePad := 0 }

/-- The CD stream state as after reset (R91, UNITS[3]). -/
def clearCd (s : State) : State := { s with cdQ := [], cdB := [], cdHold := none, cdSyn := 0, cdNcorr := 0 }

/-- An update made only if a unit's bit is set. -/
def onUnit (selected : Bool) (f : State → State) (s : State) : State := if selected then f s else s

/-- CLEAR (R91): the selected units' stream state; tables, root, STATUS, IRQ_EN, ERR_CMD, ARG0, ARG1, RES stay. -/
def execClear (units : BitVec 4) (s : State) : Result :=
  .next (onUnit (units.getLsbD 3) clearCd (onUnit (units.getLsbD 2) clearCe
    (onUnit (units.getLsbD 1) clearHd (onUnit (units.getLsbD 0) clearHe s))))

/-- A reserved opcode: BADCMD with the word as its info, no other effect (R77, 60_exceptions.md R214). -/
def execReservedOpc (w : Word) (s : State) : Result := .next (raise .badCmd w s)

end Sys2Proof.Machine
end

