-- ==== Sys2Proof/Machine/HammingDecoder.lean ====
section
/-! DEFINITION. The Hamming(7,4) decoder and corrector CD: syndrome, correction, and the stream with its held block
(44_hamming_decoder.md). -/

namespace Sys2Proof.Machine

/-- What hdec returns (R173). -/
structure Decoded where
  pos   : BitVec 3
  block : Block
  data  : Nibble
deriving DecidableEq, Repr

/-- error_pos = s1 + 2 s2 + 4 s4 (R173). -/
def errorPos (b : Block) : BitVec 3 :=
  BitVec.ofNat 3 ((b.b1 ^^ b.b3 ^^ b.b5 ^^ b.b7).toNat + 2 * (b.b2 ^^ b.b3 ^^ b.b6 ^^ b.b7).toNat +
    4 * (b.b4 ^^ b.b5 ^^ b.b6 ^^ b.b7).toNat)

/-- A block with the bit at a 1-indexed position flipped; position 0 flips none (R173). -/
def Block.flip (b : Block) (pos : BitVec 3) : Block :=
  match pos.toNat with
  | 1 => { b with b1 := !b.b1 }
  | 2 => { b with b2 := !b.b2 }
  | 3 => { b with b3 := !b.b3 }
  | 4 => { b with b4 := !b.b4 }
  | 5 => { b with b5 := !b.b5 }
  | 6 => { b with b6 := !b.b6 }
  | 7 => { b with b7 := !b.b7 }
  | _ => b

/-- Positions 3, 5, 6, 7 are d1, d2, d3, d4 (R173). -/
def Block.data (b : Block) : Nibble := { d1 := b.b3, d2 := b.b5, d3 := b.b6, d4 := b.b7 }

/-- hdec (R173): the syndrome, the corrected block, its data bits. -/
def hdec (b : Block) : Decoded :=
  { pos := errorPos b, block := b.flip (errorPos b), data := (b.flip (errorPos b)).data }

/-- The RES word of CD.DEC7: error_pos at [14:12], the corrected block at [10:4], the data at [3:0] (R170). -/
def decodedWord (r : Decoded) : Word := 0#17 ++ r.pos ++ 0#1 ++ r.block.toField ++ r.data.toField

/-- CD.DEC7 (R170): one block decoded into RES; a nonzero syndrome is no error. -/
def execCdDec7 (b : BitVec 7) (s : State) : Result :=
  .next { s with res := decodedWord (hdec (Block.ofField b)) }

/-- The bits a hold releases: none if it is empty (R171). -/
def holdBits (h : Option Nibble) : Bits :=
  match h with
  | some d => d.bits
  | none => []

/-- A completed block (R171): the previous hold is released, the block's data are held, the counters follow. -/
def cdBlock (b : Block) (s : State) : State :=
  { s with
    cdQ := s.cdQ ++ holdBits s.cdHold
    cdHold := some (hdec b).data
    cdSyn := (hdec b).pos
    cdNcorr := if (hdec b).pos = 0 then s.cdNcorr else s.cdNcorr + 1
    cdB := [] }

/-- One turn of CD.BITS's loop (R171): the bit joins the partial block; seven bits are a block. -/
def cdPush (s : State) (b : Bool) : State :=
  match s.cdB ++ [b] with
  | [b1, b2, b3, b4, b5, b6, b7] => cdBlock ⟨b1, b2, b3, b4, b5, b6, b7⟩ s
  | p => { s with cdB := p }

/-- The output bound of CD.BITS, conservative: 4 floor((|cdB| + N) / 7) (60_exceptions.md R217). -/
def cdBound (n : BitVec 6) (s : State) : Nat := 4 * ((s.cdB.length + n.toNat) / 7)

/-- CD.BITS (R171): BADARG for N, then OVERRUN, then each bit in turn. -/
def execCdBits (n : BitVec 6) (s : State) : Result :=
  if n = 0 ∨ 32 < n.toNat then .next (raiseCmd .badArg (.cdBits n) s)
  else if s.params.qCap < s.cdQ.length + cdBound n s then .next (raiseCmd .overrun (.cdBits n) s)
  else .next ((argBits s n).foldl cdPush s)

/-- CD.END (R172): LENGTH on a partial block, which drops it and the hold; nothing without a hold; else OVERRUN, or the
first 4 - PAD held bits are released. -/
def execCdEnd (pad : BitVec 2) (s : State) : Result :=
  if s.cdB ≠ [] then .next (raiseCmd .length (.cdEnd pad) { s with cdB := [], cdHold := none })
  else
    match s.cdHold with
    | none => .next s
    | some d =>
      if s.params.qCap < s.cdQ.length + (4 - pad.toNat) then .next (raiseCmd .overrun (.cdEnd pad) s)
      else .next { s with cdQ := s.cdQ ++ d.bits.take (4 - pad.toNat), cdHold := none }

/-- Read CD_LEVEL: the held bits are not counted (R174). -/
def execRdCdLevel (s : State) : Result := .next (respond (levelWord s.cdQ) s)

/-- Read CD_DATA: pop up to 32 data bits (R175). -/
def execRdCdData (s : State) : Result :=
  if s.cdQ = [] then .next (underrun s)
  else .next (respond (popWord s.cdQ) { s with cdQ := popRest s.cdQ })

/-- Read CD_STATE (R176). -/
def execRdCdState (s : State) : Result := .next (respond (cdStateWord s) s)

/-- Read CD_NCORR (R177). -/
def execRdCdNcorr (s : State) : Result := .next (respond s.cdNcorr s)

end Sys2Proof.Machine
end

