-- ==== Sys2Proof/Machine/HammingEncoder.lean ====
section
/-! DEFINITION. The Hamming(7,4) encoder CE: the parity function and the padded stream (43_hamming_encoder.md). -/

namespace Sys2Proof.Machine

/-- henc (R153): [p1, p2, d1, p4, d2, d3, d4], even parity. -/
def henc (d : Nibble) : Block :=
  { b1 := d.d1 ^^ d.d2 ^^ d.d4
    b2 := d.d1 ^^ d.d3 ^^ d.d4
    b3 := d.d1
    b4 := d.d2 ^^ d.d3 ^^ d.d4
    b5 := d.d2
    b6 := d.d3
    b7 := d.d4 }

/-- CE.ENC4 (R150): the block of one nibble into RES, b1 at bit 6. -/
def execCeEnc4 (d : BitVec 4) (s : State) : Result :=
  .next { s with res := 0#25 ++ (henc (Nibble.ofField d)).toField }

/-- One turn of CE.BITS's loop (R151): the bit joins the group; a full group of four becomes a block. -/
def cePush (s : State) (b : Bool) : State :=
  match s.ceG ++ [b] with
  | [d1, d2, d3, d4] => { s with ceQ := s.ceQ ++ (henc ⟨d1, d2, d3, d4⟩).bits, ceG := [] }
  | g => { s with ceG := g }

/-- The output bound of CE.BITS, exact: 7 floor((|ceG| + N) / 4) (60_exceptions.md R217). -/
def ceBound (n : BitVec 6) (s : State) : Nat := 7 * ((s.ceG.length + n.toNat) / 4)

/-- CE.BITS (R151): BADARG for N, then OVERRUN, then each bit in turn. -/
def execCeBits (n : BitVec 6) (s : State) : Result :=
  if n = 0 ∨ 32 < n.toNat then .next (raiseCmd .badArg (.ceBits n) s)
  else if s.params.qCap < s.ceQ.length + ceBound n s then .next (raiseCmd .overrun (.ceBits n) s)
  else .next ((argBits s n).foldl cePush s)

/-- A group as a nibble, zero bits appended (R152). -/
def padded (g : Bits) : Nibble :=
  { d1 := g.getD 0 false, d2 := g.getD 1 false, d3 := g.getD 2 false, d4 := g.getD 3 false }

/-- CE.END (R152): an empty group gives pad 0 and no block; else the padded group's block, and the pad count. -/
def execCeEnd (s : State) : Result :=
  if s.ceG = [] then .next { s with cePad := 0 }
  else if s.params.qCap < s.ceQ.length + 7 then .next (raiseCmd .overrun .ceEnd s)
  else .next { s with
    ceQ := s.ceQ ++ (henc (padded s.ceG)).bits
    cePad := BitVec.ofNat 2 (4 - s.ceG.length)
    ceG := [] }

/-- Read CE_LEVEL (R154). -/
def execRdCeLevel (s : State) : Result := .next (respond (levelWord s.ceQ) s)

/-- Read CE_DATA: pop up to 32 coded bits (R155). -/
def execRdCeData (s : State) : Result :=
  if s.ceQ = [] then .next (underrun s)
  else .next (respond (popWord s.ceQ) { s with ceQ := popRest s.ceQ })

/-- Read CE_STATE (R156). -/
def execRdCeState (s : State) : Result := .next (respond (ceStateWord s) s)

end Sys2Proof.Machine
end

