-- ==== Sys2Proof/Machine/HuffmanDecoder.lean ====
section
/-! DEFINITION. The Huffman decoder HD: the node arena and the prefix-tree walker (42_huffman_decoder.md). -/

namespace Sys2Proof.Machine

/-- HD.ROOT (R130): BADARG for IDX; else root and cursor move there and a partial path is dropped. -/
def execHdRoot (idx : NodeIdx) (s : State) : Result :=
  if s.params.nNode ≤ idx.toNat then .next (raiseCmd .badArg (.hdRoot idx) s)
  else .next { s with root := idx, cur := idx, mid := false }

/-- Whether a present child of an INTERNAL descriptor is out of range (R131); an absent child's index is not checked. -/
def childOutOfRange (p : Params) (e : NodeEntry) : Bool :=
  decide (e.kind = .internal) &&
    ((e.lv && decide (p.nNode ≤ e.left.toNat)) || (e.rv && decide (p.nNode ≤ e.right.toNat)))

/-- HD.NODE (R131): BADARG for IDX, then KIND, then child range (60_exceptions.md R216); else the node is written. -/
def execHdNode (idx : NodeIdx) (s : State) : Result :=
  if s.params.nNode ≤ idx.toNat then .next (raiseCmd .badArg (.hdNode idx) s)
  else
    match argKind s with
    | none => .next (raiseCmd .badArg (.hdNode idx) s)
    | some k =>
      if childOutOfRange s.params (argNode s k) then .next (raiseCmd .badArg (.hdNode idx) s)
      else .next { s with node := s.node.set idx.toNat (argNode s k) }

/-- The edge bit b takes from a node: left on 0, right on 1; none if the node is not INTERNAL or the child is absent
(R133). -/
def edge (e : NodeEntry) (b : Bool) : Option NodeIdx :=
  match e.kind with
  | .internal => if b then (if e.rv then some e.right else none) else (if e.lv then some e.left else none)
  | .invalid | .leaf => none

/-- The walker back at root, its path dropped (R133, R134). -/
def rewind (s : State) : State := { s with cur := s.root, mid := false }

/-- walk(b) (R133): consume one bit; true on success, false on a tree fault. -/
def walk (b : Bool) (s : State) : State × Bool :=
  match edge (nodeAt s s.cur) b with
  | none => (rewind s, false)
  | some nxt =>
    match (nodeAt s nxt).kind with
    | .leaf => (rewind { s with hdQ := s.hdQ ++ [(nodeAt s nxt).sym] }, true)
    | .internal => ({ s with cur := nxt, mid := true }, true)
    | .invalid => (rewind s, false)

/-- The loop of HD.BITS (R132): at the first failing bit TREE is raised and the rest is not consumed
(60_exceptions.md R218). -/
def walkBits (n : BitVec 6) : Bits → State → State
  | [], s => s
  | b :: bs, s =>
    match walk b s with
    | (t, true) => walkBits n bs t
    | (t, false) => raiseCmd .tree (.hdBits n) t

/-- HD.BITS (R132): BADARG for N, then the conservative OVERRUN, then the walk. -/
def execHdBits (n : BitVec 6) (s : State) : Result :=
  if n = 0 ∨ 32 < n.toNat then .next (raiseCmd .badArg (.hdBits n) s)
  else if s.params.sqCap < s.hdQ.length + n.toNat then .next (raiseCmd .overrun (.hdBits n) s)
  else .next (walkBits n (argBits s n) s)

/-- HD.END (R134): TRUNC if a partial path is discarded; the walker goes back to root. -/
def execHdEnd (s : State) : Result := .next (rewind (if s.mid then setTrunc s else s))

/-- Read HD_LEVEL (R136). -/
def execRdHdLevel (s : State) : Result := .next (respond (levelWord s.hdQ) s)

/-- Read HD_DATA: pop one decoded symbol (R137). -/
def execRdHdData (s : State) : Result :=
  match s.hdQ with
  | [] => .next (underrun s)
  | sym :: rest => .next (respond (hdDataWord sym) { s with hdQ := rest })

/-- Read HD_WALK (R138). -/
def execRdHdWalk (s : State) : Result := .next (respond (hdWalkWord s) s)

end Sys2Proof.Machine
end

