-- ==== Sys2Proof/Machine/HuffmanEncoder.lean ====
section
/-! DEFINITION. The Huffman encoder HE: the code table and the variable-bit packer (41_huffman_encoder.md). -/

namespace Sys2Proof.Machine

/-- An entry made invalid; its other fields are unobservable from then on (R31, log 8). -/
def CtEntry.invalidate (e : CtEntry) : CtEntry := { e with v := false }

/-- CT.INV: for all i, CT[i].v <- 0 (R110). -/
def execCtInv (s : State) : Result := .next { s with ct := s.ct.map CtEntry.invalidate }

/-- The entry CT.LOAD writes (R111). -/
def loadedEntry (len : BitVec 6) (s : State) : CtEntry :=
  { v := true, sym := argSym s, len := len, code := argCode s len }

/-- CT.LOAD (R111): BADARG for IDX, then for LEN (60_exceptions.md R216); else the entry is written. -/
def execCtLoad (len : BitVec 6) (idx : BitVec 10) (s : State) : Result :=
  if s.params.nSym ≤ idx.toNat then .next (raiseCmd .badArg (.ctLoad len idx) s)
  else if len = 0 ∨ s.params.lMax < len.toNat then .next (raiseCmd .badArg (.ctLoad len idx) s)
  else .next { s with ct := s.ct.set idx.toNat (loadedEntry len s) }

/-- HE.SYM (R112): UNKSYM, then OVERRUN, then the entry's code is appended whole and counted. -/
def execHeSym (sym : Sym) (s : State) : Result :=
  match lookup s.ct sym with
  | none => .next (raiseCmd .unkSym (.heSym sym) s)
  | some e =>
    if s.params.qCap < s.heQ.length + e.len.toNat then .next (raiseCmd .overrun (.heSym sym) s)
    else .next { s with heQ := s.heQ ++ e.bits, heCount := s.heCount + BitVec.ofNat 32 e.len.toNat }

/-- Read HE_LEVEL (R115). -/
def execRdHeLevel (s : State) : Result := .next (respond (levelWord s.heQ) s)

/-- Read HE_DATA: pop up to 32 coded bits (R116). -/
def execRdHeData (s : State) : Result :=
  if s.heQ = [] then .next (underrun s)
  else .next (respond (popWord s.heQ) { s with heQ := popRest s.heQ })

/-- Read HE_COUNT (R117). -/
def execRdHeCount (s : State) : Result := .next (respond s.heCount s)

end Sys2Proof.Machine
end

