-- ==== Sys2Proof/Machine/CommandWrite.lean ====
section
/-! DEFINITION. A write of any word to CMD (10_state.md R26): the word's command runs, or BADCMD is raised. -/

namespace Sys2Proof.Machine

/-- The meaning of a command. -/
def runCommand (c : Command) (s : State) : Result :=
  match c with
  | .nop => execNop s
  | .clear units => execClear units s
  | .ctInv => execCtInv s
  | .ctLoad len idx => execCtLoad len idx s
  | .heSym sym => execHeSym sym s
  | .hdRoot idx => execHdRoot idx s
  | .hdNode idx => execHdNode idx s
  | .hdBits n => execHdBits n s
  | .hdEnd => execHdEnd s
  | .ceEnc4 d => execCeEnc4 d s
  | .ceBits n => execCeBits n s
  | .ceEnd => execCeEnd s
  | .cdDec7 b => execCdDec7 b s
  | .cdBits n => execCdBits n s
  | .cdEnd pad => execCdEnd pad s

/-- "A write of word w executes command w" (R26); a word that is no command raises BADCMD with the word as its info and
has no other effect (30_encoding.md R77, R78). -/
def execWrCmd (w : Word) (s : State) : Result :=
  match decodeCommand w with
  | .ok c => runCommand c s
  | .error _ => .next (raise .badCmd w s)

end Sys2Proof.Machine
end

