-- ==== Sys2Proof/Machine/Registers.lean ====
section
/-! DEFINITION. The general register accesses (40_control.md R92 to R100), the accesses that do nothing
(20_memory.md R52, R54) and the ones the block does not admit (R53). -/

namespace Sys2Proof.Machine

/-- Write ARG0 (R92). -/
def execWrArg0 (v : Word) (s : State) : Result := .next { s with arg0 := v }

/-- Write ARG1 (R92). -/
def execWrArg1 (v : Word) (s : State) : Result := .next { s with arg1 := v }

/-- Read ARG0 (R93). -/
def execRdArg0 (s : State) : Result := .next (respond s.arg0 s)

/-- Read ARG1 (R93). -/
def execRdArg1 (s : State) : Result := .next (respond s.arg1 s)

/-- Write STATUS: write one to clear (R94). -/
def execWrStatus (v : Word) (s : State) : Result := .next (acknowledge v s)

/-- Read STATUS; reading does not clear (R95). -/
def execRdStatus (s : State) : Result := .next (respond (statusWord s) s)

/-- Write IRQ_EN: bits [31:8] are ignored (R96). -/
def execWrIrqEn (v : Word) (s : State) : Result := .next { s with irqEn := v.extractLsb' 0 8 }

/-- Read IRQ_EN (R96). -/
def execRdIrqEn (s : State) : Result := .next (respond (s.irqEn.zeroExtend 32) s)

/-- Read ID (R97). -/
def execRdId (s : State) : Result := .next (respond idWord s)

/-- Read PARAM (R97). -/
def execRdParam (s : State) : Result := .next (respond (paramWord s.params) s)

/-- Read RES (R98). -/
def execRdRes (s : State) : Result := .next (respond s.res s)

/-- Read ERR_CMD (R99). -/
def execRdErrCmd (s : State) : Result := .next (respond s.errCmd s)

/-- Read CMD: 0 (R100). -/
def execRdCmd (s : State) : Result := .next (respond 0 s)

/-- A write to a read-only register is ignored and sets no STATUS bit (R54). -/
def execWrReadOnly (_r : Reg) (_v : Word) (s : State) : Result := .next s

/-- At a reserved offset a read returns 0 and a write is ignored (R52). -/
def execReservedOffset (dir : Dir) (_off : Offset) (s : State) : Result :=
  match dir with
  | .read => .next (respond 0 s)
  | .write _ => .next s

/-- An access that is not an aligned 32-bit one: fault BusFault, no effect on the block (R53). -/
def execBusError (_a : Access) (_s : State) : Result := .fault .busFault

end Sys2Proof.Machine
end

