-- ==== Sys2Proof/Machine/Dispatch.lean ====
section
/-! DEFINITION. One arm per constructor of Instr: the meaning of each row of the opcode table. -/

namespace Sys2Proof.Machine

def exec (i : Instr) (s : State) : Host.Outcome State Fault Refusal :=
  match i with
  | .nop => Sys2Proof.Machine.execNop s
  | .clear units => Sys2Proof.Machine.execClear units s
  | .ctInv => Sys2Proof.Machine.execCtInv s
  | .ctLoad len idx => Sys2Proof.Machine.execCtLoad len idx s
  | .heSym sym => Sys2Proof.Machine.execHeSym sym s
  | .hdRoot idx => Sys2Proof.Machine.execHdRoot idx s
  | .hdNode idx => Sys2Proof.Machine.execHdNode idx s
  | .hdBits n => Sys2Proof.Machine.execHdBits n s
  | .hdEnd => Sys2Proof.Machine.execHdEnd s
  | .ceEnc4 d => Sys2Proof.Machine.execCeEnc4 d s
  | .ceBits n => Sys2Proof.Machine.execCeBits n s
  | .ceEnd => Sys2Proof.Machine.execCeEnd s
  | .cdDec7 b => Sys2Proof.Machine.execCdDec7 b s
  | .cdBits n => Sys2Proof.Machine.execCdBits n s
  | .cdEnd pad => Sys2Proof.Machine.execCdEnd pad s
  | .reservedOpc w => Sys2Proof.Machine.execReservedOpc w s
  | .wrCmd w => Sys2Proof.Machine.execWrCmd w s
  | .wrArg0 v => Sys2Proof.Machine.execWrArg0 v s
  | .wrArg1 v => Sys2Proof.Machine.execWrArg1 v s
  | .rdArg0 => Sys2Proof.Machine.execRdArg0 s
  | .rdArg1 => Sys2Proof.Machine.execRdArg1 s
  | .wrStatus v => Sys2Proof.Machine.execWrStatus v s
  | .rdStatus => Sys2Proof.Machine.execRdStatus s
  | .wrIrqEn v => Sys2Proof.Machine.execWrIrqEn v s
  | .rdIrqEn => Sys2Proof.Machine.execRdIrqEn s
  | .rdId => Sys2Proof.Machine.execRdId s
  | .rdParam => Sys2Proof.Machine.execRdParam s
  | .rdRes => Sys2Proof.Machine.execRdRes s
  | .rdErrCmd => Sys2Proof.Machine.execRdErrCmd s
  | .rdCmd => Sys2Proof.Machine.execRdCmd s
  | .rdHeLevel => Sys2Proof.Machine.execRdHeLevel s
  | .rdHeData => Sys2Proof.Machine.execRdHeData s
  | .rdHeCount => Sys2Proof.Machine.execRdHeCount s
  | .rdHdLevel => Sys2Proof.Machine.execRdHdLevel s
  | .rdHdData => Sys2Proof.Machine.execRdHdData s
  | .rdHdWalk => Sys2Proof.Machine.execRdHdWalk s
  | .rdCeLevel => Sys2Proof.Machine.execRdCeLevel s
  | .rdCeData => Sys2Proof.Machine.execRdCeData s
  | .rdCeState => Sys2Proof.Machine.execRdCeState s
  | .rdCdLevel => Sys2Proof.Machine.execRdCdLevel s
  | .rdCdData => Sys2Proof.Machine.execRdCdData s
  | .rdCdState => Sys2Proof.Machine.execRdCdState s
  | .rdCdNcorr => Sys2Proof.Machine.execRdCdNcorr s
  | .wrReadOnly r v => Sys2Proof.Machine.execWrReadOnly r v s
  | .reservedOffset dir off => Sys2Proof.Machine.execReservedOffset dir off s
  | .busError a => Sys2Proof.Machine.execBusError a s

end Sys2Proof.Machine
end

