-- ==== Sys2Proof/Machine/Step.lean ====
section
/-! DEFINITION. One step: the next access at the port, or the reset signal (00_scope.md R7, R16, 20_memory.md R61). -/

namespace Sys2Proof.Machine

/-- One step. With nothing at the port nothing changes: "HHC never changes state between host accesses" (R16, log 2).
An access leaves the port and is performed to completion (R58, R61); the reset signal resets every element (R240). -/
def step (s : State) : Host.Outcome State Fault Refusal :=
  match s.port with
  | [] => .next s
  | .access a :: rest => exec (decode a) { s with port := rest }
  | .reset :: rest => .next (hardReset { s with port := rest })

/-- s with the access a row of the opcode table stands for next at the port, ahead of what was there (log 11). -/
def State.withFetchWord (s : State) (nbits w : Nat) : State :=
  match accessOfTableWord nbits w with
  | some a => { s with port := .access a :: s.port }
  | none => s

end Sys2Proof.Machine
end

