-- ==== Sys2Proof/Machine/Assembler.lean ====
section
/-! DEFINITION. The lines of a host program as abstract syntax, and the accesses each assembles to (30_encoding.md R83
to R85). Their text is read in AssemblerText.lean. -/

namespace Sys2Proof.Machine

/-- One line of a host program: a base form (R83), a command mnemonic (R84), or a pseudo-instruction (R85). -/
inductive Line where
  | wr (r : Reg) (v : Nat)
  | rd (r : Reg)
  | nop
  | clear (units : Nat)
  | ctInv
  | ctLoad (idx len : Nat)
  | heSym (sym : Nat)
  | hdRoot (idx : Nat)
  | hdNode (idx : Nat)
  | hdBits (n : Nat)
  | hdEnd
  | ceEnc4 (d : Nat)
  | ceBits (n : Nat)
  | ceEnd
  | cdDec7 (b : Nat)
  | cdBits (n : Nat)
  | cdEnd (pad : Nat)
  | ctEntry (idx sym : Nat) (bits : Bits)
  | hdInternal (idx : Nat) (l r : Option Nat)
  | hdLeaf (idx sym : Nat)
  | hdPush (bits : Bits)
  | cePush (bits : Bits)
  | cdPush (bits : Bits)
  | ack (mask : Nat)
deriving DecidableEq, Repr

/-- A command's operand in its field; one that "does not fit its field" is an assembly error (R84). N = 0 and N = 33 to 63 fit
the 6-bit field of format CNT and are accepted (log 18). -/
def operand (width n : Nat) : Option (BitVec width) := if n < 2 ^ width then some (BitVec.ofNat width n) else none

/-- `wr REG, value` for a value of 32 bits (R83). DESIGN CHOICE: R83 and R85 do not say what the assembler does with a value
of 2^32 or more; the model makes it an assembly error, in `wr` and in each expansion that writes a register (log 29). -/
def asmWr (r : Reg) (v : Nat) : Option Access := (operand 32 v).map (Access.wr r)

/-- A child of `hd.internal`: its presence bit at bit p and its index at bit k of ARG0; nothing if it is `-` (R85).
DESIGN CHOICE: R85 gives the index no range, and R84 speaks of the fields of commands; the model makes an index of 2048 or
more, which is outside the 11 bits of R74, an assembly error (log 30). -/
def childField (p k : Nat) : Option Nat → Option Nat
  | none => some 0
  | some i => (operand 11 i).map fun v => 2 ^ p + v.toNat * 2 ^ k

/-- ARG0 of `hd.internal idx, l, r` (R85). -/
def internalArg (l r : Option Nat) : Option Nat := do
  let a ← childField 29 11 l
  let b ← childField 28 0 r
  return 2 ^ 30 + a + b

/-- A push: `wr ARG0, pack(bits)`, then the command with the number of bits (R85). DESIGN CHOICE: R85 writes the range 1..32
beside hd.push alone; the model applies it to ce.push and cd.push too, so an empty or a longer string is an assembly error
there as well (log 28). -/
def asmPush (c : BitVec 6 → Command) (bits : Bits) : Option (List Access) :=
  if 1 ≤ bits.length ∧ bits.length ≤ 32 then
    some [Access.wr .arg0 (pack bits), Access.command (c (BitVec.ofNat 6 bits.length))]
  else none

/-- The accesses of a line, in order; none for an assembly error. -/
def assemble : Line → Option (List Access)
  | .wr r v => do return [← asmWr r v]
  | .rd r => some [Access.rd r]
  | .nop => some [Access.command .nop]
  | .clear units => do return [Access.command (.clear (← operand 4 units))]
  | .ctInv => some [Access.command .ctInv]
  | .ctLoad idx len => do return [Access.command (.ctLoad (← operand 6 len) (← operand 10 idx))]
  | .heSym sym => do return [Access.command (.heSym (← operand 21 sym))]
  | .hdRoot idx => do return [Access.command (.hdRoot (← operand 11 idx))]
  | .hdNode idx => do return [Access.command (.hdNode (← operand 11 idx))]
  | .hdBits n => do return [Access.command (.hdBits (← operand 6 n))]
  | .hdEnd => some [Access.command .hdEnd]
  | .ceEnc4 d => do return [Access.command (.ceEnc4 (← operand 4 d))]
  | .ceBits n => do return [Access.command (.ceBits (← operand 6 n))]
  | .ceEnd => some [Access.command .ceEnd]
  | .cdDec7 b => do return [Access.command (.cdDec7 (← operand 7 b))]
  | .cdBits n => do return [Access.command (.cdBits (← operand 6 n))]
  | .cdEnd pad => do return [Access.command (.cdEnd (← operand 2 pad))]
  | .ctEntry idx sym bits => do
    return [← asmWr .arg0 (bitsToNat bits), ← asmWr .arg1 sym,
      Access.command (.ctLoad (← operand 6 bits.length) (← operand 10 idx))]
  | .hdInternal idx l r => do
    return [← asmWr .arg0 (← internalArg l r), Access.command (.hdNode (← operand 11 idx))]
  | .hdLeaf idx sym => do
    return [← asmWr .arg0 0x80000000, ← asmWr .arg1 sym, Access.command (.hdNode (← operand 11 idx))]
  | .hdPush bits => asmPush .hdBits bits
  | .cePush bits => asmPush .ceBits bits
  | .cdPush bits => asmPush .cdBits bits
  | .ack mask => do return [← asmWr .status mask]

/-- A program's accesses in order; none if a line is an assembly error. -/
def assembleAll : List Line → Option (List Access)
  | [] => some []
  | l :: ls => do return (← assemble l) ++ (← assembleAll ls)

end Sys2Proof.Machine
end

