-- ==== Sys2Proof/Machine/HostReference.lean ====
section
/-! DEFINITION. The reference host's procedures as plain functions (48_host_reference.md R190 to R196, R198): they "do
not execute inside HHC"; they say what a well-formed table is and what the source's encode and decode give. -/

namespace Sys2Proof.Machine

/-! ## Counting symbols -/

/-- The distinct symbols of T in first-occurrence order (R191, R192). -/
def distinct : List Sym → List Sym
  | [] => []
  | s :: t => s :: (distinct t).filter (· ≠ s)

/-- Each distinct symbol with its number of occurrences, in first-occurrence order: the weights of the tree (R191). -/
def counts (T : List Sym) : List (Sym × Nat) := (distinct T).map fun s => (s, T.count s)

/-- compute_probabilities, each probability as the fraction count / |T| (R191). -/
def probabilities (T : List Sym) : List (Sym × Nat × Nat) := (counts T).map fun c => (c.1, c.2, T.length)

/-! ## The tree and its codes -/

/-- The source's Code Tree. An Internal node may lack a child (R192, 90_conflicts.md C1): absent; the tree of the empty
source is absent too. -/
inductive CodeTree where
  | absent
  | leaf (sym : Sym) (weight : Nat)
  | internal (weight : Nat) (left right : CodeTree)
deriving DecidableEq, Repr

namespace CodeTree

/-- The weight a node is queued with (R192). -/
def weight : CodeTree → Nat
  | absent => 0
  | leaf _ w => w
  | internal w _ _ => w

/-- The number of nodes, absent children not counted. -/
def size : CodeTree → Nat
  | absent => 0
  | leaf _ _ => 1
  | internal _ l r => 1 + l.size + r.size

/-- derive_codes (R193): a left edge appends 0, a right edge 1; depth first. -/
def codesFrom : CodeTree → Bits → List (Sym × Bits)
  | absent, _ => []
  | leaf s _, path => [(s, path)]
  | internal _ l r, path => l.codesFrom (path ++ [false]) ++ r.codesFrom (path ++ [true])

end CodeTree

/-- A queued node: its key (weight, seq) and the node (R192). -/
structure Queued where
  seq  : Nat
  tree : CodeTree
deriving DecidableEq, Repr

/-- The queue's order: by weight, ties by insertion sequence number (R192). -/
def Queued.before (x y : Queued) : Bool :=
  decide (x.tree.weight < y.tree.weight) ||
    (decide (x.tree.weight = y.tree.weight) && decide (x.seq < y.seq))

/-- Q.insert, the queue kept sorted so that removeMin takes its head (R192). -/
def enqueue (x : Queued) : List Queued → List Queued
  | [] => [x]
  | y :: q => if x.before y then x :: y :: q else y :: enqueue x q

/-- The leaves inserted in first-occurrence order, numbered from seq (R192, D43). -/
def leafQueue : List (Sym × Nat) → Nat → List Queued
  | [], _ => []
  | (s, c) :: w, seq => enqueue { seq := seq, tree := .leaf s c } (leafQueue w (seq + 1))

/-- The merge loop: the second node removed is the left child (R192, D44). fuel bounds the merges; one less than the
queue's length is enough. -/
def mergeAll : Nat → Nat → List Queued → CodeTree
  | fuel + 1, seq, x :: y :: q =>
    mergeAll fuel (seq + 1)
      (enqueue { seq := seq, tree := .internal (x.tree.weight + y.tree.weight) y.tree x.tree } q)
  | _, _, x :: _ => x.tree
  | _, _, [] => .absent

/-- build_tree (R192). -/
def buildTree (w : List (Sym × Nat)) : CodeTree :=
  match w with
  | [] => .absent
  | [(s, c)] => .internal c (.leaf s c) .absent
  | w => mergeAll w.length w.length (leafQueue w 0)

/-- The tree of a source sequence. -/
def treeOf (T : List Sym) : CodeTree := buildTree (counts T)

/-- derive_codes (R193). -/
def deriveCodes (t : CodeTree) : List (Sym × Bits) := t.codesFrom []

/-- codes[symbol], none if there is no entry. -/
def codeOf (codes : List (Sym × Bits)) (s : Sym) : Option Bits :=
  (codes.find? fun c => c.1 == s).map (·.2)

/-! ## The source's coders, on whole sequences -/

/-- encode(source, codes); none is UnknownSymbol (41_huffman_encoder.md, R114). -/
def sourceEncode (codes : List (Sym × Bits)) : List Sym → Option Bits
  | [] => some []
  | s :: t => do return (← codeOf codes s) ++ (← sourceEncode codes t)

/-- decode(bits, tree) from a node of the tree: the symbols, and whether the stream ends mid-path; none if a bit leads to a
missing child, which the source does not define (R135, 91_not_in_source.md N12). -/
def sourceDecodeFrom (root : CodeTree) : CodeTree → Bool → Bits → Option (List Sym × Bool)
  | _, mid, [] => some ([], mid)
  | .internal _ l r, _, b :: bs =>
    match if b then r else l with
    | .leaf s _ => (sourceDecodeFrom root root false bs).map fun d => (s :: d.1, d.2)
    | .internal w l' r' => sourceDecodeFrom root (.internal w l' r') true bs
    | .absent => none
  | .leaf _ _, _, _ :: _ => none
  | .absent, _, _ :: _ => none

/-- decode(bits, tree) of the source; a dangling partial path produces no symbol (R134, R135). -/
def sourceDecode (tree : CodeTree) (bits : Bits) : Option (List Sym) :=
  (sourceDecodeFrom tree tree false bits).map (·.1)

/-- pad_count = (4 - len mod 4) mod 4 (00_scope.md R15). -/
def padCount (bits : Bits) : Nat := (4 - bits.length % 4) % 4

/-- The blocks of the complete 4-bit groups of a stream, in order (43_hamming_encoder.md). -/
def encodeGroups : Bits → Bits
  | d1 :: d2 :: d3 :: d4 :: rest => (henc ⟨d1, d2, d3, d4⟩).bits ++ encodeGroups rest
  | _ => []

/-- The source's Hamming encode(bits): padded with zero bits, then block after block (R157). -/
def hammingEncode (bits : Bits) : Bits := encodeGroups (bits ++ List.replicate (padCount bits) false)

/-- The complete 7-bit blocks of a stream, in order (44_hamming_decoder.md). -/
def blocksOf : Bits → List Block
  | b1 :: b2 :: b3 :: b4 :: b5 :: b6 :: b7 :: rest => ⟨b1, b2, b3, b4, b5, b6, b7⟩ :: blocksOf rest
  | _ => []

/-- The data bits of some blocks, each corrected (R173). -/
def blockData (bs : List Block) : Bits := bs.flatMap fun b => (hdec b).data.bits

/-- The data bits of the complete blocks of a stream. -/
def decodeBlocks (coded : Bits) : Bits := blockData (blocksOf coded)

/-- The source's Hamming decode(coded_bits, pad_count); none is LengthMismatch (R172, R178). -/
def hammingDecode (coded : Bits) (pad : Nat) : Option Bits :=
  if coded.length % 7 = 0 then some ((decodeBlocks coded).take ((decodeBlocks coded).length - pad)) else none

/-! ## The error injector -/

/-- The flips at start, start + interval, ... up to the stream's length (R198). -/
def flipEvery (start interval : Nat) (bits : Bits) : Bits :=
  bits.mapIdx fun i b => if start ≤ i ∧ (i - start) % interval = 0 then !b else b

/-- inject_errors (R198): no-op if the stream is empty or interval ≤ 0; interval 1 starts at 0. -/
def injectErrors (bits : Bits) (interval : Int) (seed : Nat) : Bits :=
  if bits = [] ∨ interval ≤ 0 then bits
  else if interval = 1 then flipEvery 0 1 bits
  else flipEvery (Config.injStart seed interval.toNat) interval.toNat bits

/-! ## Loading the block -/

/-- The CT image: the i-th distinct symbol in first-occurrence order goes to entry i (R195). -/
def ctImage (T : List Sym) : List (Sym × Bits) :=
  (distinct T).map fun s => (s, (codeOf (deriveCodes (treeOf T)) s).getD [])

/-- The index of a child loaded at i, `-` if it is absent (R196). -/
def childIndex (t : CodeTree) (i : Nat) : Option Nat :=
  match t with
  | .absent => none
  | .leaf _ _ | .internal _ _ _ => some i

/-- The lines that load a tree whose root has index base, nodes numbered in preorder (R196). -/
def nodeLines : CodeTree → Nat → List Line
  | .absent, _ => []
  | .leaf s _, base => [.hdLeaf base s.toNat]
  | .internal _ l r, base =>
    .hdInternal base (childIndex l (base + 1)) (childIndex r (base + 1 + l.size)) ::
      (nodeLines l (base + 1) ++ nodeLines r (base + 1 + l.size))

/-- The lines that load the CT image from entry i on (R195). -/
def ctLines : List (Sym × Bits) → Nat → List Line
  | [], _ => []
  | (s, code) :: rest, i => .ctEntry i s.toNat code :: ctLines rest (i + 1)

/-- The table loads of one run: CT.INV, the ct.entry lines, the hd lines, HD.ROOT 0 (70_reset_and_hazards.md R243 step
5, R195, R196). A host with no tree skips HD.ROOT (R202), which changes nothing here. -/
def loadLines (T : List Sym) : List Line :=
  .ctInv :: (ctLines (ctImage T) 0 ++ nodeLines (treeOf T) 0 ++ [.hdRoot 0])

/-- Step 5 of the boot sequence: the tables, CLEAR 0xF, and the old STATUS bits acknowledged (R243). -/
def runStartLines (T : List Sym) : List Line := loadLines T ++ [.clear 0xF, .ack 0xFF]

/-- Condition 4 of the host's duties: the source fits the instance (R194). A symbol is below 2^21 by its type. -/
def fits (p : Params) (T : List Sym) : Bool :=
  decide ((distinct T).length ≤ p.nSym) && decide ((treeOf T).size ≤ p.nNode) &&
    (deriveCodes (treeOf T)).all fun c => decide (c.2.length ≤ p.lMax)

/-- Whether the code table holds exactly an image, every other entry invalid (R253 condition 3). -/
def holdsCodes : List CtEntry → List (Sym × Bits) → Bool
  | es, [] => es.all fun e => !e.v
  | e :: es, (s, code) :: rest => e.v && e.sym == s && e.bits == code && holdsCodes es rest
  | [], _ :: _ => false

/-- Whether a descriptor's child agrees with a child of a tree loaded at index i. -/
def holdsChild (present : Bool) (idx : NodeIdx) (t : CodeTree) (i : Nat) : Bool :=
  match childIndex t i with
  | some k => present && decide (idx.toNat = k)
  | none => !present

/-- Whether the arena holds a tree whose root has index base, in preorder (R253 condition 4, R196). -/
def holdsTree (s : State) : CodeTree → Nat → Bool
  | .absent, _ => true
  | .leaf sym _, base =>
    decide ((nodeAt s (BitVec.ofNat 11 base)).kind = .leaf) && (nodeAt s (BitVec.ofNat 11 base)).sym == sym
  | .internal _ l r, base =>
    decide ((nodeAt s (BitVec.ofNat 11 base)).kind = .internal) &&
      holdsChild (nodeAt s (BitVec.ofNat 11 base)).lv (nodeAt s (BitVec.ofNat 11 base)).left l (base + 1) &&
      holdsChild (nodeAt s (BitVec.ofNat 11 base)).rv (nodeAt s (BitVec.ofNat 11 base)).right r (base + 1 + l.size) &&
      holdsTree s l (base + 1) && holdsTree s r (base + 1 + l.size)

/-- The clean stream state of R253, conditions 5 to 7: every queue empty, both counters 0, no partial state. -/
def cleanStreams (s : State) : Bool :=
  decide (s.heQ = []) && decide (s.hdQ = []) && decide (s.ceQ = []) && decide (s.cdQ = []) &&
    decide (s.heCount = 0) && decide (s.cdNcorr = 0) && decide (s.ceG = []) && decide (s.cePad = 0) &&
    decide (s.cdB = []) && decide (s.cdHold = none) && decide (s.cdSyn = 0) && decide (s.cur = s.root) && !s.mid

/-- A clean run start for a source T (R253). Its condition 1, nothing in flight, holds of every state (R58). -/
def cleanRunStart (T : List Sym) (s : State) : Bool :=
  decide (s.status = 0) && holdsCodes s.ct (ctImage T) && holdsTree s (treeOf T) 0 && decide (s.root = 0) &&
    cleanStreams s

end Sys2Proof.Machine
end

