-- ==== Sys2Proof/Machine/HostRun.lean ====
section
/-! DEFINITION. The reference host's run (48_host_reference.md R197 to R203): the source's pipeline as accesses to the
block, each performed to completion by exec. The host is software; what it does with the words it reads is here, what the
block does is in exec. -/

namespace Sys2Proof.Machine

/-- The block after one access. The reference host makes aligned 32-bit accesses only, so no access faults. -/
def perform (s : State) (a : Access) : State :=
  match exec (decode a) s with
  | .next t => t
  | .fault _ => s
  | .refused _ => s

/-- The accesses of some lines, one after another; nothing for lines that do not assemble. -/
def performLines (ls : List Line) (s : State) : State := ((assembleAll ls).getD []).foldl perform s

/-- A register read: the word the bus returned, and the block after it. -/
def readReg (r : Reg) (s : State) : Word × State :=
  ((perform s (.rd r)).reads.getLastD 0, perform s (.rd r))

/-- Reading a bit queue while its level asks for it: LEVEL first, then DATA, of which k = min(32, LEVEL) bits count (R199,
70_reset_and_hazards.md R246). fuel bounds the reads: each pops 32 bits or empties the queue. -/
def drainBits (level data : Reg) (more : Nat → Bool) : Nat → State → Bits × State
  | 0, s => ([], s)
  | fuel + 1, s =>
    let lv := readReg level s
    if more lv.1.toNat then
      let d := readReg data lv.2
      let rest := drainBits level data more fuel d.2
      (unpack d.1 (min 32 lv.1.toNat) ++ rest.1, rest.2)
    else ([], lv.2)

/-- Reading the symbol queue while its level asks for it (R199). -/
def drainSyms (more : Nat → Bool) : Nat → State → List Sym × State
  | 0, s => ([], s)
  | fuel + 1, s =>
    let lv := readReg .hdLevel s
    if more lv.1.toNat then
      let d := readReg .hdData lv.2
      let rest := drainSyms more fuel d.2
      (d.1.extractLsb' 0 21 :: rest.1, rest.2)
    else ([], lv.2)

/-- Reads enough to empty a bit queue. -/
def bitFuel (s : State) : Nat := s.params.qCap / 32 + 1

/-- The end of a stage drains its queue fully (R199). -/
def nonEmpty (level : Nat) : Bool := decide (level ≠ 0)

/-- Stage 3: HE.SYM t for each t, draining before a code that would not fit (R197, R199). -/
def heStage (codes : List (Sym × Bits)) : List Sym → State → Bits × State
  | [], s => drainBits .heLevel .heData nonEmpty (bitFuel s) s
  | t :: ts, s =>
    let len := ((codeOf codes t).getD []).length
    let d := drainBits .heLevel .heData (fun lv => decide (s.params.qCap < lv + len)) (bitFuel s) s
    let rest := heStage codes ts (performLines [.heSym t.toNat] d.2)
    (d.1 ++ rest.1, rest.2)

/-- A stream cut in chunks of up to 32 bits; the chunk size is the host's choice (R197, log 25). -/
def chunks : Nat → Bits → List Bits
  | 0, _ => []
  | fuel + 1, bits => if bits = [] then [] else bits.take 32 :: chunks fuel (bits.drop 32)

/-- A stream's chunks. -/
def chunksOf (bits : Bits) : List Bits := chunks bits.length bits

/-- Feeding CE in chunks; before each, the queue is drained until the chunk's blocks fit (R199). -/
def ceFeed : List Bits → State → Bits × State
  | [], s => ([], s)
  | c :: cs, s =>
    let st := readReg .ceState s
    let blocks := ((st.1.extractLsb' 4 3).toNat + c.length) / 4
    let d := drainBits .ceLevel .ceData (fun lv => decide (s.params.qCap < lv + 7 * blocks)) (bitFuel s) st.2
    let rest := ceFeed cs (performLines [.cePush c] d.2)
    (d.1 ++ rest.1, rest.2)

/-- Stage 4: feed, drain, CE.END, read pad from CE_STATE[1:0], drain (R197, R199): H, pad, and the block. -/
def ceStage (bits : Bits) (s : State) : Bits × Nat × State :=
  let f := ceFeed (chunksOf bits) s
  let d := drainBits .ceLevel .ceData nonEmpty (bitFuel s) f.2
  let st := readReg .ceState (performLines [.ceEnd] d.2)
  let e := drainBits .ceLevel .ceData nonEmpty (bitFuel s) st.2
  (f.1 ++ d.1 ++ e.1, (st.1.extractLsb' 0 2).toNat, e.2)

/-- Feeding CD in chunks; before each, the queue is drained until the bound fits (R199). -/
def cdFeed : List Bits → State → Bits × State
  | [], s => ([], s)
  | c :: cs, s =>
    let st := readReg .cdState s
    let blocks := ((st.1.extractLsb' 4 3).toNat + c.length) / 7
    let d := drainBits .cdLevel .cdData (fun lv => decide (s.params.qCap < lv + 4 * blocks)) (bitFuel s) st.2
    let rest := cdFeed cs (performLines [.cdPush c] d.2)
    (d.1 ++ rest.1, rest.2)

/-- Stage 6: feed, drain, CD.END pad, drain (R197, R199): R and the block. -/
def cdStage (bits : Bits) (pad : Nat) (s : State) : Bits × State :=
  let f := cdFeed (chunksOf bits) s
  let d := drainBits .cdLevel .cdData nonEmpty (bitFuel s) f.2
  let e := drainBits .cdLevel .cdData nonEmpty (bitFuel s) (performLines [.cdEnd pad] d.2)
  (f.1 ++ d.1 ++ e.1, e.2)

/-- Feeding HD in chunks; before each, the queue is drained until one symbol a bit fits (R199). -/
def hdFeed : List Bits → State → List Sym × State
  | [], s => ([], s)
  | c :: cs, s =>
    let d := drainSyms (fun lv => decide (s.params.sqCap < lv + c.length)) (s.params.sqCap + 1) s
    let rest := hdFeed cs (performLines [.hdPush c] d.2)
    (d.1 ++ rest.1, rest.2)

/-- Stage 7: feed, HD.END, drain (R197, R199): the symbols D and the block. -/
def hdStage (bits : Bits) (s : State) : List Sym × State :=
  let f := hdFeed (chunksOf bits) s
  let e := drainSyms nonEmpty (s.params.sqCap + 1) (performLines [.hdEnd] f.2)
  (f.1 ++ e.1, e.2)

/-- The artifacts of a run (R200). -/
structure RunResult where
  probs     : List (Sym × Nat × Nat)
  codes     : List (Sym × Bits)
  encoded   : Bits
  coded     : Bits
  pad       : Nat
  corrupted : Bits
  recovered : Bits
  decoded   : List Sym
deriving DecidableEq, Repr

/-- hamming_ok = (R == E), E the Huffman-encoded bits before padding (R200, 90_conflicts.md C2). -/
def RunResult.hammingOk (r : RunResult) : Bool := decide (r.recovered = r.encoded)

/-- huffman_ok = (D == T) (R200). -/
def RunResult.huffmanOk (T : List Sym) (r : RunResult) : Bool := decide (r.decoded = T)

/-- Why a run ends without a result. -/
inductive RunError where
  /-- The source does not fit the instance: the host must not start it (R194). -/
  | refused
  /-- ANYERR after a stage, with the STATUS word read: all fatal conditions abort the run (R201). -/
  | fatal (statusWord : Word)
deriving DecidableEq, Repr

/-- The STATUS check after a stage (R201). -/
def checkStatus (s : State) : Except RunError State :=
  let st := readReg .status s
  if st.1.getLsbD 31 then .error (.fatal st.1) else .ok st.2

/-- A reference run run(T, interval, seed) on a block, from the table loads to the flags' operands (R197); inject stands for
stage 5. -/
def runWith (T : List Sym) (inject : Bits → Bits) (s : State) : Except RunError (RunResult × State) := do
  if !fits s.params T then throw .refused
  let codes := deriveCodes (treeOf T)
  let s ← checkStatus (performLines (runStartLines T) s)
  let he := heStage codes T s
  let s ← checkStatus he.2
  let ce := ceStage he.1 s
  let s ← checkStatus ce.2.2
  let corrupted := inject ce.1
  let cd := cdStage corrupted ce.2.1 s
  let s ← checkStatus cd.2
  let hd := hdStage cd.1 s
  let s ← checkStatus hd.2
  return ({ probs := probabilities T, codes := codes, encoded := he.1, coded := ce.1, pad := ce.2.1,
            corrupted := corrupted, recovered := cd.1, decoded := hd.1 }, s)

/-- run(T, interval, seed) (R197). -/
def referenceRun (T : List Sym) (interval : Int) (seed : Nat) (s : State) : Except RunError (RunResult × State) :=
  runWith T (fun bits => injectErrors bits interval seed) s

end Sys2Proof.Machine
end

