-- ==== Sys2Proof/Safety.lean ====
section
/-! DEFINITION. The terms the claims use: the invariant of 10_state.md R46 (with what R30 and R33 say of the tables), the
register values a read shows, and the streams a host feeds to one unit. -/

namespace Sys2Proof.Machine

/-- What holds after every completed access: R46, the table sizes of R20, and what R30 and R33 say of stored entries. The
parameters are those of an HHC (00_scope.md R9). -/
structure State.Inv (s : State) : Prop where
  params_legal : s.params.legal = true
  ct_size : s.ct.length = s.params.nSym
  node_size : s.node.length = s.params.nNode
  heQ_fits : s.heQ.length ≤ s.params.qCap
  ceQ_fits : s.ceQ.length ≤ s.params.qCap
  cdQ_fits : s.cdQ.length ≤ s.params.qCap
  hdQ_fits : s.hdQ.length ≤ s.params.sqCap
  ceG_short : s.ceG.length ≤ 3
  cdB_short : s.cdB.length ≤ 6
  at_root : s.mid = false → s.cur = s.root
  cur_in_arena : s.cur.toNat < s.params.nNode
  root_in_arena : s.root.toNat < s.params.nNode
  ct_codes : ∀ e ∈ s.ct, e.v = true →
    1 ≤ e.len.toNat ∧ e.len.toNat ≤ s.params.lMax ∧ e.code.toNat < 2 ^ e.len.toNat
  node_children : ∀ e ∈ s.node, e.kind = .internal →
    (e.lv = true → e.left.toNat < s.params.nNode) ∧ (e.rv = true → e.right.toNat < s.params.nNode)

/-- The access answers a next state from which the invariant holds: a safe step. -/
def SafeAccess (s : State) (i : Instr) : Prop := ∃ t, exec i s = .next t ∧ t.Inv

/-- The word a read of a register that does not pop returns (10_state.md R45; R51). The four DATA registers are not shown
here. -/
def shown (s : State) : Reg → Option Word
  | .id => some idWord
  | .param => some (paramWord s.params)
  | .status => some (statusWord s)
  | .cmd => some 0
  | .arg0 => some s.arg0
  | .arg1 => some s.arg1
  | .res => some s.res
  | .irqEn => some (s.irqEn.zeroExtend 32)
  | .errCmd => some s.errCmd
  | .heLevel => some (levelWord s.heQ)
  | .heCount => some s.heCount
  | .hdLevel => some (levelWord s.hdQ)
  | .hdWalk => some (hdWalkWord s)
  | .ceLevel => some (levelWord s.ceQ)
  | .ceState => some (ceStateWord s)
  | .cdLevel => some (levelWord s.cdQ)
  | .cdState => some (cdStateWord s)
  | .cdNcorr => some s.cdNcorr
  | .heData | .hdData | .ceData | .cdData => none

/-- s without the flags: STATUS, IRQ_EN and ERR_CMD blanked, to compare two states that differ in nothing else (R49). -/
def withoutFlags (s : State) : State := { s with status := 0, irqEn := 0, errCmd := 0 }

/-- A command word of an opcode with a reserved bit set raises BADCMD, and has no other effect: the first line of every
command's pseudocode (60_exceptions.md R214, R216). -/
def BadCmdWhen (opc : BitVec 5) (bad : Word → Prop) (s : State) : Prop :=
  ∀ w : Word, w.extractLsb' 27 5 = opc → bad w → exec (decodeCmdWrite w) s = .next (raise .badCmd w s)

/-- The arena holds a tree whose root is at an index, its nodes anywhere (42_huffman_decoder.md R135): a child is present
exactly if the tree has it. -/
def treeAt (s : State) : CodeTree → NodeIdx → Prop
  | .absent, _ => True
  | .leaf sym _, i => (nodeAt s i).kind = .leaf ∧ (nodeAt s i).sym = sym
  | .internal _ l r, i =>
    (nodeAt s i).kind = .internal ∧ ((nodeAt s i).lv = true ↔ l ≠ .absent) ∧ ((nodeAt s i).rv = true ↔ r ≠ .absent) ∧
      treeAt s l (nodeAt s i).left ∧ treeAt s r (nodeAt s i).right

/-! ## Streams -/

/-- A host's move while it feeds a unit: a push of some input, or a read of the unit's LEVEL and then of its DATA
(70_reset_and_hazards.md R246). -/
inductive Move (α : Type) where
  | push (x : α)
  | pop
deriving DecidableEq, Repr

/-- What the moves push, in order. -/
def pushed {α : Type} : List (Move α) → List α
  | [] => []
  | .push x :: ms => x :: pushed ms
  | .pop :: ms => pushed ms

/-- One pop of a bit queue: LEVEL, then DATA, of which k = min(32, LEVEL) bits count. -/
def popBits (level data : Reg) (s : State) : Bits × State :=
  let lv := readReg level s
  let d := readReg data lv.2
  (unpack d.1 (min 32 lv.1.toNat), d.2)

/-- One pop of the symbol queue: HD_DATA, whose bit 31 says whether there was a symbol (42_huffman_decoder.md R137). -/
def popSym (s : State) : List Sym × State :=
  let d := readReg .hdData s
  (if d.1.getLsbD 31 then [d.1.extractLsb' 0 21] else [], d.2)

/-- The moves of a host at one unit, one after another: the output popped, in order, and the state after them. line is
what a push assembles to, pop how the unit is read. -/
def runMoves {α β : Type} (line : α → Line) (pop : State → List β × State) : List (Move α) → State → List β × State
  | [], s => ([], s)
  | .push x :: ms, s => runMoves line pop ms (performLines [line x] s)
  | .pop :: ms, s => ((pop s).1 ++ (runMoves line pop ms (pop s).2).1, (runMoves line pop ms (pop s).2).2)

/-- Symbols sent to HE, its bits popped. -/
def heMoves : List (Move Sym) → State → Bits × State := runMoves (fun t => .heSym t.toNat) (popBits .heLevel .heData)

/-- Bits pushed to HD, its symbols popped. -/
def hdMoves : List (Move Bits) → State → List Sym × State := runMoves .hdPush popSym

/-- Bits pushed to CE, its bits popped. -/
def ceMoves : List (Move Bits) → State → Bits × State := runMoves .cePush (popBits .ceLevel .ceData)

/-- Bits pushed to CD, its bits popped. -/
def cdMoves : List (Move Bits) → State → Bits × State := runMoves .cdPush (popBits .cdLevel .cdData)

/-- Every push is of 1 to 32 bits, what one command takes (30_encoding.md R73). -/
def pushesFit (ms : List (Move Bits)) : Prop := ∀ bits ∈ pushed ms, 1 ≤ bits.length ∧ bits.length ≤ 32

/-- At most one bit of every 7-bit block of a stream differs (48_host_reference.md R204). -/
def oneFlipPerBlock (before after : Bits) : Prop :=
  after.length = before.length ∧
  ∀ k i j : Nat, 7 * k ≤ i → i < 7 * k + 7 → 7 * k ≤ j → j < 7 * k + 7 →
    after[i]? ≠ before[i]? → after[j]? ≠ before[j]? → i = j

end Sys2Proof.Machine
end

