-- ==== Sys2Proof/WellFormed.lean ====
section
/-! DEFINITION. Which terms of Instr stand for an access of their own row. A field of a command has no ill-formed
value: a value outside the legal range of 30_encoding.md R73 is a command that raises BADARG. -/

namespace Sys2Proof

/-- A term is well formed when its operands are ones its row of the opcode table has: a reserved opcode (R77); a word of
a defined opcode with a reserved bit set (R78; the other words of "wr CMD" have rows of their own, log 10); a read-only
register (R54); an aligned offset with no register (R52); an access that is not an aligned 32-bit one (R53). -/
def WellFormed : Instr → Bool
  | .reservedOpc w => (formatOf (opcOf w)).isNone
  | .wrCmd w =>
    match formatOf (opcOf w) with
    | some f => reservedBitSet f w
    | none => false
  | .wrReadOnly r _ => r.readOnly
  | .reservedOffset _ off => decide (off.toNat % 4 = 0) && (regAt off).isNone
  | .busError a => !a.aligned32
  | .nop | .clear _ | .ctInv | .ctLoad _ _ | .heSym _ | .hdRoot _ | .hdNode _ | .hdBits _ | .hdEnd | .ceEnc4 _
  | .ceBits _ | .ceEnd | .cdDec7 _ | .cdBits _ | .cdEnd _ => true
  | .wrArg0 _ | .wrArg1 _ | .rdArg0 | .rdArg1 | .wrStatus _ | .rdStatus | .wrIrqEn _ | .rdIrqEn | .rdId | .rdParam
  | .rdRes | .rdErrCmd | .rdCmd => true
  | .rdHeLevel | .rdHeData | .rdHeCount | .rdHdLevel | .rdHdData | .rdHdWalk | .rdCeLevel | .rdCeData | .rdCeState
  | .rdCdLevel | .rdCdData | .rdCdState | .rdCdNcorr => true

end Sys2Proof
end

