-- ==== Sys2Proof/Certificates/Slice0/Obligations.lean ====
section
/-! DEFINITION. The statements for the provers, in the order of OBLIGATIONS.json. Each docstring names the rule it
formalises. -/

open Sys2Proof Sys2Proof.Machine

/-! ## Encoding -/

/-- No bit of an encoding is dropped: R72, R76, R82. -/
def Obligations.DecodeOfEncodeIsIdentity : Prop :=
  ∀ i : Instr, WellFormed i = true → decode (encode i) = i

/-- Every access that reaches the window is exactly one well-formed instruction, and encodes back to itself: R80, R82. -/
def Obligations.EveryAccessIsOneInstruction : Prop :=
  ∀ a : Access, encode (decode a) = a ∧ WellFormed (decode a) = true

/-- R76: a word selects a command exactly when (w & mask) = match, by the mask and match columns, and its operands are
the columns of R72; the reserved row by its opcode. -/
def Obligations.CommandWordsByMaskAndMatch : Prop := ∀ w : Word,
  (decodeCommand w = .ok .nop ↔ w &&& 0xFFFFFFFF#32 = 0x00000000#32) ∧
  (decodeCommand w = .ok (.clear (w.extractLsb' 0 4)) ↔ w &&& 0xFFFFFFF0#32 = 0x08000000#32) ∧
  (decodeCommand w = .ok .ctInv ↔ w &&& 0xFFFFFFFF#32 = 0x10000000#32) ∧
  (decodeCommand w = .ok (.ctLoad (w.extractLsb' 16 6) (w.extractLsb' 0 10)) ↔
    w &&& 0xFFC0FC00#32 = 0x18000000#32) ∧
  (decodeCommand w = .ok (.heSym (w.extractLsb' 0 21)) ↔ w &&& 0xFFE00000#32 = 0x20000000#32) ∧
  (decodeCommand w = .ok (.hdRoot (w.extractLsb' 0 11)) ↔ w &&& 0xFFFFF800#32 = 0x28000000#32) ∧
  (decodeCommand w = .ok (.hdNode (w.extractLsb' 0 11)) ↔ w &&& 0xFFFFF800#32 = 0x30000000#32) ∧
  (decodeCommand w = .ok (.hdBits (w.extractLsb' 0 6)) ↔ w &&& 0xFFFFFFC0#32 = 0x38000000#32) ∧
  (decodeCommand w = .ok .hdEnd ↔ w &&& 0xFFFFFFFF#32 = 0x40000000#32) ∧
  (decodeCommand w = .ok (.ceEnc4 (w.extractLsb' 0 4)) ↔ w &&& 0xFFFFFFF0#32 = 0x48000000#32) ∧
  (decodeCommand w = .ok (.ceBits (w.extractLsb' 0 6)) ↔ w &&& 0xFFFFFFC0#32 = 0x50000000#32) ∧
  (decodeCommand w = .ok .ceEnd ↔ w &&& 0xFFFFFFFF#32 = 0x58000000#32) ∧
  (decodeCommand w = .ok (.cdDec7 (w.extractLsb' 0 7)) ↔ w &&& 0xFFFFFF80#32 = 0x60000000#32) ∧
  (decodeCommand w = .ok (.cdBits (w.extractLsb' 0 6)) ↔ w &&& 0xFFFFFFC0#32 = 0x68000000#32) ∧
  (decodeCommand w = .ok (.cdEnd (w.extractLsb' 0 2)) ↔ w &&& 0xFFFFFFFC#32 = 0x70000000#32) ∧
  (decodeCommand w = .error .reservedOpcode ↔ 0x0F ≤ (w.extractLsb' 27 5).toNat)

/-- R80: every 32-bit word is exactly one command or BADCMD. -/
def Obligations.EveryWordIsOneCommandOrBadCmd : Prop := ∀ w : Word,
  (∃ c, decodeCommand w = .ok c ∧ ∀ c', encodeCommand c' = w ↔ c' = c) ∨
  (∃ r, decodeCommand w = .error r ∧ ∀ c, encodeCommand c ≠ w)

/-- Words and offsets written out from the tables of R51, R72 and R76, one or more of every family: nine command words, a
reserved opcode (R77), a word with a reserved bit, five accesses (R52 to R54). The model's choices: that a bad word's row is
wr CMD is log 10's, the numbering of decodeTableWord is log 11's. -/
def Obligations.WrittenOutWordsDecode : Prop :=
  decodeTableWord 32 0x00000000 = some .nop ∧
  decodeTableWord 32 0x08000005 = some (.clear 5#4) ∧
  decodeTableWord 32 0x18200041 = some (.ctLoad 32#6 0x41#10) ∧
  decodeTableWord 32 0x20000061 = some (.heSym 0x61#21) ∧
  decodeTableWord 32 0x280001FF = some (.hdRoot 0x1FF#11) ∧
  decodeTableWord 32 0x38000004 = some (.hdBits 4#6) ∧
  decodeTableWord 32 0x48000001 = some (.ceEnc4 1#4) ∧
  decodeTableWord 32 0x60000029 = some (.cdDec7 0x29#7) ∧
  decodeTableWord 32 0x70000003 = some (.cdEnd 3#2) ∧
  decodeTableWord 32 0x78000000 = some (.reservedOpc 0x78000000#32) ∧
  decodeTableWord 32 0x58000001 = some (.wrCmd 0x58000001#32) ∧
  decode (.write 32 0x08#8 0x10#32) = .wrStatus 0x10#32 ∧
  decode (.read 32 0x34#8) = .rdHdData ∧
  decode (.write 32 0x54#8 7#32) = .wrReadOnly .cdNcorr 7#32 ∧
  decode (.read 32 0x58#8) = .reservedOffset .read 0x58#8 ∧
  decode (.read 16 0x28#8) = .busError (.read 16 0x28#8)

/-! ## The step -/

/-- The model's own port (log 2): the next access leaves the port and the instruction it decodes to is performed; the access
of a well-formed instruction performs that instruction; with nothing at the port nothing changes (R16, R58, R61). A word
placed by withFetchWord is the next access. -/
def Obligations.StepPerformsTheNextAccess : Prop := ∀ s : State,
  (∀ a rest, s.port = .access a :: rest → step s = exec (decode a) { s with port := rest }) ∧
  (∀ i rest, WellFormed i = true → s.port = .access (encode i) :: rest → step s = exec i { s with port := rest }) ∧
  (∀ c : Command, step (s.withFetchWord 32 (encodeCommand c).toNat) = exec c.toInstr s) ∧
  (s.port = [] → step s = .next s)

/-- R240: a reset puts every element of R20 at its value of R48, all at once. What is not the spec's state stays: the
parameters, the accesses to come, the words already returned (log 4). -/
def Obligations.ResetSignalRestoresResetValues : Prop := ∀ (s : State) (rest : List Event),
  s.port = .reset :: rest →
  ∃ t, step s = .next t ∧
    t.arg0 = 0 ∧ t.arg1 = 0 ∧ t.res = 0 ∧ t.status = 0 ∧ t.irqEn = 0 ∧ t.errCmd = 0 ∧
    (∀ e ∈ t.ct, e.v = false) ∧ (∀ e ∈ t.node, e.kind = .invalid) ∧
    t.ct.length = s.params.nSym ∧ t.node.length = s.params.nNode ∧
    t.heQ = [] ∧ t.heCount = 0 ∧ t.hdQ = [] ∧ t.root = 0 ∧ t.cur = 0 ∧ t.mid = false ∧
    t.ceG = [] ∧ t.cePad = 0 ∧ t.ceQ = [] ∧ t.cdB = [] ∧ t.cdHold = none ∧ t.cdSyn = 0 ∧ t.cdNcorr = 0 ∧ t.cdQ = [] ∧
    t.irq = false ∧ t.params = s.params ∧ t.port = rest ∧ t.reads = s.reads

/-- R48 with the default parameters of R8: every element, and what every register that does not pop reads (R51). -/
def Obligations.ResetStateHasTheSpecsValues : Prop :=
  (∀ e ∈ State.reset.ct, e.v = false) ∧ State.reset.ct.length = 256 ∧
  (∀ e ∈ State.reset.node, e.kind = .invalid) ∧ State.reset.node.length = 512 ∧
  State.reset.heQ = [] ∧ State.reset.hdQ = [] ∧ State.reset.ceQ = [] ∧ State.reset.cdQ = [] ∧
  State.reset.ceG = [] ∧ State.reset.cdB = [] ∧ State.reset.cdHold = none ∧ State.reset.mid = false ∧
  State.reset.root = 0 ∧ State.reset.cur = 0 ∧ State.reset.cePad = 0 ∧ State.reset.cdSyn = 0 ∧
  State.reset.irq = false ∧
  shown State.reset .id = some 0x48484301#32 ∧ shown State.reset .param = some 0x00582098#32 ∧
  (∀ r v, shown State.reset r = some v → r ≠ .id → r ≠ .param → v = 0#32)

/-- The invariant holds after reset, for the default parameters and for any other instance that is an HHC (R9, R46). -/
def Obligations.ResetMeetsTheInvariant : Prop :=
  State.reset.Inv ∧ ∀ p : Params, p.legal = true → (State.resetOf p).Inv

/-- R46 "hold after every completed access": from every state that meets the invariant, a step's next state meets it. -/
def Obligations.StepKeepsTheInvariant : Prop :=
  ∀ s t : State, s.Inv → step s = .next t → t.Inv

/-- R17, R250: every access completes; only the one the block does not admit is a fault, and nothing is refused. -/
def Obligations.EveryAccessCompletesOrFaults : Prop := ∀ (i : Instr) (s : State),
  ((∀ a, i ≠ .busError a) → ∃ t, exec i s = .next t) ∧
  (∀ a, exec (.busError a) s = .fault .busFault) ∧
  (∀ r, exec i s ≠ .refused r)

/-- R53: an access that is not a 32-bit one at a multiple of 4 faults, whatever it addresses, and no other access does. -/
def Obligations.NonWordAccessIsABusFault : Prop := ∀ (s : State) (bits : Nat) (off : Offset) (v : Word),
  ((bits ≠ 32 ∨ off.toNat % 4 ≠ 0) →
    exec (decode (.read bits off)) s = .fault .busFault ∧ exec (decode (.write bits off v)) s = .fault .busFault ∧
    (∀ rest, s.port = .access (.read bits off) :: rest → step s = .fault .busFault) ∧
    (∀ rest, s.port = .access (.write bits off v) :: rest → step s = .fault .busFault)) ∧
  ((bits = 32 ∧ off.toNat % 4 = 0) →
    (∃ t, exec (decode (.read bits off)) s = .next t) ∧ ∃ t, exec (decode (.write bits off v)) s = .next t)

/-! ## Errors and flags -/

/-- R212, R213 with the codes of R211: which STATUS bit each error sets, and the first-error capture, which UNDERRUN never
makes. TRUNC is set without a capture. -/
def Obligations.RaiseSetsTheBitAndCaptures : Prop := ∀ (s : State) (w : Word),
  let captured : Word := if s.status &&& 0x3F#8 = 0#8 then w else s.errCmd
  raise .badCmd w s = { s with status := s.status ||| 0x01#8, errCmd := captured } ∧
  raise .badArg w s = { s with status := s.status ||| 0x02#8, errCmd := captured } ∧
  raise .unkSym w s = { s with status := s.status ||| 0x04#8, errCmd := captured } ∧
  raise .length w s = { s with status := s.status ||| 0x08#8, errCmd := captured } ∧
  raise .tree w s = { s with status := s.status ||| 0x10#8, errCmd := captured } ∧
  raise .overrun w s = { s with status := s.status ||| 0x20#8, errCmd := captured } ∧
  raise .underrun w s = { s with status := s.status ||| 0x40#8 } ∧
  setTrunc s = { s with status := s.status ||| 0x80#8 }

/-- R26: a write of any word to CMD executes that word's command (or raises its BADCMD) and completes; a read of CMD
returns 0 and has no effect. -/
def Obligations.WriteCmdExecutesTheWord : Prop := ∀ (w : Word) (s : State),
  exec (.wrCmd w) s = exec (decodeCmdWrite w) s ∧
  (∃ t, exec (.wrCmd w) s = .next t) ∧
  exec .rdCmd s = .next { s with reads := s.reads ++ [0#32] }

/-- R214, R77, R78: a reserved opcode, or a defined opcode with a 1 outside its format's field mask, raises BADCMD with the
word and has no other effect. -/
def Obligations.BadCommandWordsRaiseBadCmd : Prop := ∀ (w : Word) (s : State),
  (0x0F ≤ (w.extractLsb' 27 5).toNat →
    exec (decodeCmdWrite w) s = .next (raise .badCmd w s) ∧ exec (.reservedOpc w) s = .next (raise .badCmd w s)) ∧
  (∀ f, formatOf (w.extractLsb' 27 5) = some f → w.extractLsb' 0 27 &&& ~~~ f.fieldMask ≠ 0#27 →
    exec (decodeCmdWrite w) s = .next (raise .badCmd w s))

/-- R24, R211: a STATUS bit stays set until the host writes 1 to it; nothing else clears one. -/
def Obligations.StatusBitsAreSticky : Prop := ∀ (i : Instr) (s t : State) (k : Nat),
  k < 8 → exec i s = .next t → s.status.getLsbD k = true →
  t.status.getLsbD k = true ∨ ∃ v, i = .wrStatus v ∧ v.getLsbD k = true

/-- R211: no STATUS bit is set by anything but the writers the table gives it. -/
def Obligations.StatusBitsAreSetByTheirWritersOnly : Prop := ∀ (i : Instr) (s t : State) (k : Nat),
  WellFormed i = true → exec i s = .next t → s.status.getLsbD k = false → t.status.getLsbD k = true →
  (k = 0 ∧ ((∃ w, i = .reservedOpc w) ∨ ∃ w, i = .wrCmd w)) ∨
  (k = 1 ∧ ((∃ l x, i = .ctLoad l x) ∨ (∃ x, i = .hdRoot x) ∨ (∃ x, i = .hdNode x) ∨ (∃ n, i = .hdBits n) ∨
    (∃ n, i = .ceBits n) ∨ ∃ n, i = .cdBits n)) ∨
  (k = 2 ∧ ∃ x, i = .heSym x) ∨
  (k = 3 ∧ ∃ p, i = .cdEnd p) ∨
  (k = 4 ∧ ∃ n, i = .hdBits n) ∨
  (k = 5 ∧ ((∃ x, i = .heSym x) ∨ (∃ n, i = .hdBits n) ∨ (∃ n, i = .ceBits n) ∨ i = .ceEnd ∨ (∃ n, i = .cdBits n) ∨
    ∃ p, i = .cdEnd p)) ∨
  (k = 6 ∧ (i = .rdHeData ∨ i = .rdHdData ∨ i = .rdCeData ∨ i = .rdCdData)) ∨
  (k = 7 ∧ i = .hdEnd)

/-- R213, R35: ERR_CMD takes the command word exactly when STATUS[5:0] goes from zero to nonzero. -/
def Obligations.ErrCmdCapturesTheFirstError : Prop := ∀ (i : Instr) (s t : State),
  WellFormed i = true → exec i s = .next t →
  (s.status &&& 0x3F#8 = 0#8 → t.status &&& 0x3F#8 ≠ 0#8 → encode i = .write 32 0x0C#8 t.errCmd) ∧
  (¬(s.status &&& 0x3F#8 = 0#8 ∧ t.status &&& 0x3F#8 ≠ 0#8) → t.errCmd = s.errCmd)

/-- R30, R32, R38, R68: CT is written only by CT.INV and CT.LOAD, NODE only by HD.NODE, root only by HD.ROOT. -/
def Obligations.TablesAreWrittenByTheirCommandsOnly : Prop := ∀ (i : Instr) (s t : State),
  WellFormed i = true → exec i s = .next t →
  (t.ct ≠ s.ct → i = .ctInv ∨ ∃ l x, i = .ctLoad l x) ∧
  (t.node ≠ s.node → ∃ x, i = .hdNode x) ∧
  (t.root ≠ s.root → ∃ x, i = .hdRoot x)

/-- R27, R28, R29, R34: no command writes ARG0 or ARG1; RES is written by CE.ENC4 and CD.DEC7 only; IRQ_EN by the host only.
The last three clauses are about the model's own fields: the parameters (log 1) and the accesses to come (log 2) are written
by nothing, and a word is returned by reads only (log 3). -/
def Obligations.OperandAndResultRegistersHaveOneWriter : Prop := ∀ (i : Instr) (s t : State),
  WellFormed i = true → exec i s = .next t →
  (t.arg0 ≠ s.arg0 → ∃ v, i = .wrArg0 v) ∧
  (t.arg1 ≠ s.arg1 → ∃ v, i = .wrArg1 v) ∧
  (t.res ≠ s.res → (∃ d, i = .ceEnc4 d) ∨ ∃ b, i = .cdDec7 b) ∧
  (t.irqEn ≠ s.irqEn → ∃ v, i = .wrIrqEn v) ∧
  t.params = s.params ∧ t.port = s.port ∧
  (t.reads ≠ s.reads → ∃ off v, encode i = .read 32 off ∧ t.reads = s.reads ++ [v])

/-- R36, R91, R203: each unit's queue and stream state is changed by its own commands, its own DATA read and CLEAR only. -/
def Obligations.UnitsDoNotTouchEachOther : Prop := ∀ (i : Instr) (s t : State),
  WellFormed i = true → exec i s = .next t →
  ((t.heQ, t.heCount) ≠ (s.heQ, s.heCount) →
    (∃ x, i = .heSym x) ∨ i = .rdHeData ∨ ∃ u, i = .clear u ∧ u.getLsbD 0 = true) ∧
  ((t.hdQ, t.cur, t.mid) ≠ (s.hdQ, s.cur, s.mid) →
    (∃ x, i = .hdRoot x) ∨ (∃ n, i = .hdBits n) ∨ i = .hdEnd ∨ i = .rdHdData ∨ ∃ u, i = .clear u ∧ u.getLsbD 1 = true) ∧
  ((t.ceQ, t.ceG, t.cePad) ≠ (s.ceQ, s.ceG, s.cePad) →
    (∃ n, i = .ceBits n) ∨ i = .ceEnd ∨ i = .rdCeData ∨ ∃ u, i = .clear u ∧ u.getLsbD 2 = true) ∧
  ((t.cdQ, t.cdB, t.cdHold, t.cdSyn, t.cdNcorr) ≠ (s.cdQ, s.cdB, s.cdHold, s.cdSyn, s.cdNcorr) →
    (∃ n, i = .cdBits n) ∨ (∃ p, i = .cdEnd p) ∨ i = .rdCdData ∨ ∃ u, i = .clear u ∧ u.getLsbD 3 = true)

/-- R49, R212: nothing an access does depends on STATUS, IRQ_EN or ERR_CMD, but what happens to those three and the reads of
them: two states that differ in the flags alone still differ in the flags alone afterwards. -/
def Obligations.FlagsDoNotSteerAnyAccess : Prop := ∀ (i : Instr) (s₁ s₂ t₁ : State),
  i ≠ .rdStatus → i ≠ .rdIrqEn → i ≠ .rdErrCmd → withoutFlags s₁ = withoutFlags s₂ → exec i s₁ = .next t₁ →
  ∃ t₂, exec i s₂ = .next t₂ ∧ withoutFlags t₁ = withoutFlags t₂

/-- R94, R95, R25: a write clears the bits written as 1 and nothing else; a read returns {ANYERR, 23'b0, status} and clears
nothing. -/
def Obligations.StatusReadAndAcknowledge : Prop := ∀ (s : State) (v : Word),
  (∃ st, exec (.wrStatus v) s = .next { s with status := st } ∧
    ∀ k, k < 8 → st.getLsbD k = (s.status.getLsbD k && !v.getLsbD k)) ∧
  (∃ x, exec .rdStatus s = .next { s with reads := s.reads ++ [x] } ∧
    x.extractLsb' 0 8 = s.status ∧ x.extractLsb' 8 23 = 0#23 ∧
    (x.getLsbD 31 = true ↔ ∃ k, k < 7 ∧ s.status.getLsbD k = true))

/-- R96, R220, R252: IRQ_EN holds bits [7:0] of the word written and reads them back under zeros; the interrupt line is
asserted exactly while an enabled STATUS bit is set. -/
def Obligations.InterruptEnableAndLine : Prop := ∀ (s : State) (v : Word),
  exec (.wrIrqEn v) s = .next { s with irqEn := v.extractLsb' 0 8 } ∧
  (∃ x, exec .rdIrqEn s = .next { s with reads := s.reads ++ [x] } ∧ x.toNat = s.irqEn.toNat) ∧
  (s.irq = true ↔ ∃ k, k < 8 ∧ s.status.getLsbD k = true ∧ s.irqEn.getLsbD k = true)

/-! ## Control commands -/

/-- R90. -/
def Obligations.NopDoesNothing : Prop := ∀ s : State,
  exec .nop s = .next s ∧ BadCmdWhen 0x00#5 (fun w => w.extractLsb' 0 27 ≠ 0#27) s

/-- R91: exactly the selected units' stream state, and nothing else. -/
def Obligations.ClearResetsTheSelectedUnits : Prop := ∀ (units : BitVec 4) (s : State),
  exec (.clear units) s = .next { s with
    heQ := if units.getLsbD 0 then [] else s.heQ
    heCount := if units.getLsbD 0 then 0 else s.heCount
    hdQ := if units.getLsbD 1 then [] else s.hdQ
    cur := if units.getLsbD 1 then s.root else s.cur
    mid := if units.getLsbD 1 then false else s.mid
    ceQ := if units.getLsbD 2 then [] else s.ceQ
    ceG := if units.getLsbD 2 then [] else s.ceG
    cePad := if units.getLsbD 2 then 0 else s.cePad
    cdQ := if units.getLsbD 3 then [] else s.cdQ
    cdB := if units.getLsbD 3 then [] else s.cdB
    cdHold := if units.getLsbD 3 then none else s.cdHold
    cdSyn := if units.getLsbD 3 then 0 else s.cdSyn
    cdNcorr := if units.getLsbD 3 then 0 else s.cdNcorr } ∧
  BadCmdWhen 0x01#5 (fun w => w.extractLsb' 4 23 ≠ 0#23) s

/-! ## The Huffman encoder -/

/-- R110: every entry's v is cleared and nothing outside the table changes; then every HE.SYM raises UNKSYM. What the other
fields of the entries become is unobservable (R31), and not stated. -/
def Obligations.CtInvInvalidatesEveryEntry : Prop := ∀ s : State,
  BadCmdWhen 0x02#5 (fun w => w.extractLsb' 0 27 ≠ 0#27) s ∧
  ∃ ct : List CtEntry, exec .ctInv s = .next { s with ct := ct } ∧ ct.length = s.ct.length ∧
    (∀ e ∈ ct, e.v = false) ∧
    ∀ sym, exec (.heSym sym) { s with ct := ct } =
      .next (raise .unkSym (encodeCommand (.heSym sym)) { s with ct := ct })

/-- R111, R215, R216: BADARG for IDX and for LEN; otherwise the entry is {1, ARG1[20:0], LEN, the low LEN bits of ARG0} and
nothing else changes. -/
def Obligations.CtLoadWritesOneEntry : Prop := ∀ (len : BitVec 6) (idx : BitVec 10) (s : State),
  BadCmdWhen 0x03#5 (fun w => w.extractLsb' 22 5 ≠ 0#5 ∨ w.extractLsb' 10 6 ≠ 0#6) s ∧
  ((s.params.nSym ≤ idx.toNat ∨ len.toNat = 0 ∨ s.params.lMax < len.toNat) →
    exec (.ctLoad len idx) s = .next (raise .badArg (encodeCommand (.ctLoad len idx)) s)) ∧
  (idx.toNat < s.params.nSym → 1 ≤ len.toNat → len.toNat ≤ s.params.lMax →
    ∃ e : CtEntry, exec (.ctLoad len idx) s = .next { s with ct := s.ct.set idx.toNat e } ∧
      e.v = true ∧ e.sym = s.arg1.extractLsb' 0 21 ∧ e.len = len ∧
      ∀ k, k < 32 → e.code.getLsbD k = (decide (k < len.toNat) && s.arg0.getLsbD k))

/-- R112, R113: UNKSYM without a valid entry; otherwise the valid entry of lowest index gives the code, which OVERRUN refuses
whole or which is appended whole, code[len-1] first, and counted. -/
def Obligations.HeSymAppendsTheLowestEntrysCode : Prop := ∀ (sym : Sym) (s : State),
  BadCmdWhen 0x04#5 (fun w => w.extractLsb' 21 6 ≠ 0#6) s ∧
  ((∀ e ∈ s.ct, ¬(e.v = true ∧ e.sym = sym)) →
    exec (.heSym sym) s = .next (raise .unkSym (encodeCommand (.heSym sym)) s)) ∧
  (∀ (idx : Nat) (e : CtEntry), s.ct[idx]? = some e → e.v = true → e.sym = sym →
    (∀ j e', j < idx → s.ct[j]? = some e' → ¬(e'.v = true ∧ e'.sym = sym)) →
    (s.params.qCap < s.heQ.length + e.len.toNat →
      exec (.heSym sym) s = .next (raise .overrun (encodeCommand (.heSym sym)) s)) ∧
    (s.heQ.length + e.len.toNat ≤ s.params.qCap →
      exec (.heSym sym) s = .next { s with
        heQ := s.heQ ++ (List.range e.len.toNat).map (fun j => e.code.getLsbD (e.len.toNat - 1 - j))
        heCount := s.heCount + BitVec.ofNat 32 e.len.toNat }))

/-! ## The Huffman decoder -/

/-- R130. -/
def Obligations.HdRootMovesRootAndCursor : Prop := ∀ (idx : NodeIdx) (s : State),
  BadCmdWhen 0x05#5 (fun w => w.extractLsb' 11 16 ≠ 0#16) s ∧
  (s.params.nNode ≤ idx.toNat → exec (.hdRoot idx) s = .next (raise .badArg (encodeCommand (.hdRoot idx)) s)) ∧
  (idx.toNat < s.params.nNode → exec (.hdRoot idx) s = .next { s with root := idx, cur := idx, mid := false })

/-- R131, R215: BADARG for IDX, KIND 3 and a present child of an INTERNAL node out of range; otherwise the node is written
from ARG0 and ARG1, an absent child's index unchecked, and nothing else changes. -/
def Obligations.HdNodeWritesOneNode : Prop := ∀ (idx : NodeIdx) (s : State),
  let kind := (s.arg0.extractLsb' 30 2).toNat
  let badChild := kind = 1 ∧
    ((s.arg0.getLsbD 29 = true ∧ s.params.nNode ≤ (s.arg0.extractLsb' 11 11).toNat) ∨
      (s.arg0.getLsbD 28 = true ∧ s.params.nNode ≤ (s.arg0.extractLsb' 0 11).toNat))
  BadCmdWhen 0x06#5 (fun w => w.extractLsb' 11 16 ≠ 0#16) s ∧
  ((s.params.nNode ≤ idx.toNat ∨ kind = 3 ∨ badChild) →
    exec (.hdNode idx) s = .next (raise .badArg (encodeCommand (.hdNode idx)) s)) ∧
  (idx.toNat < s.params.nNode → kind ≠ 3 → ¬badChild →
    ∃ e : NodeEntry, exec (.hdNode idx) s = .next { s with node := s.node.set idx.toNat e } ∧
      (e.kind = .invalid ↔ kind = 0) ∧ (e.kind = .internal ↔ kind = 1) ∧ (e.kind = .leaf ↔ kind = 2) ∧
      e.lv = s.arg0.getLsbD 29 ∧ e.rv = s.arg0.getLsbD 28 ∧ e.left = s.arg0.extractLsb' 11 11 ∧
      e.right = s.arg0.extractLsb' 0 11 ∧ e.sym = s.arg1.extractLsb' 0 21)

/-- R133, whole: walk(b) at a node c. It fails, and the walker goes back to root, if c is not INTERNAL, if its child on b is
absent, or if that child is INVALID; a LEAF's symbol is appended and the walker goes back to root; an INTERNAL child is
where the walker goes. Nothing else changes. -/
def Obligations.WalkerTakesOneEdgePerBit : Prop := ∀ (b : Bool) (s : State) (c : NodeEntry),
  s.node[s.cur.toNat]? = some c →
  let present := if b then c.rv else c.lv
  let child := if b then c.right else c.left
  let failed := ({ s with cur := s.root, mid := false }, false)
  (c.kind ≠ .internal ∨ present = false → walk b s = failed) ∧
  (∀ t, c.kind = .internal → present = true → s.node[child.toNat]? = some t →
    (t.kind = .leaf → walk b s = ({ s with hdQ := s.hdQ ++ [t.sym], cur := s.root, mid := false }, true)) ∧
    (t.kind = .internal → walk b s = ({ s with cur := child, mid := true }, true)) ∧
    (t.kind = .invalid → walk b s = failed))

/-- R132, R218: BADARG for N, then the conservative OVERRUN; otherwise the bits ARG0[31], ARG0[30], ... are walked one after
another, and at the first that fails TREE is raised, the earlier bits' effects kept and the rest not consumed. -/
def Obligations.HdBitsWalksBitAfterBit : Prop := ∀ (n : BitVec 6) (s : State),
  BadCmdWhen 0x07#5 (fun w => w.extractLsb' 6 21 ≠ 0#21) s ∧
  ((n.toNat = 0 ∨ 32 < n.toNat) → exec (.hdBits n) s = .next (raise .badArg (encodeCommand (.hdBits n)) s)) ∧
  (1 ≤ n.toNat → n.toNat ≤ 32 →
    (s.params.sqCap < s.hdQ.length + n.toNat →
      exec (.hdBits n) s = .next (raise .overrun (encodeCommand (.hdBits n)) s)) ∧
    (s.hdQ.length + n.toNat ≤ s.params.sqCap →
      ∃ at_ : Nat → State, at_ 0 = s ∧
        (((∀ j, j < n.toNat → walk (s.arg0.getLsbD (31 - j)) (at_ j) = (at_ (j + 1), true)) ∧
            exec (.hdBits n) s = .next (at_ n.toNat)) ∨
          ∃ j u, j < n.toNat ∧
            (∀ i, i < j → walk (s.arg0.getLsbD (31 - i)) (at_ i) = (at_ (i + 1), true)) ∧
            walk (s.arg0.getLsbD (31 - j)) (at_ j) = (u, false) ∧
            exec (.hdBits n) s = .next (raise .tree (encodeCommand (.hdBits n)) u))))

/-- R134: TRUNC exactly when a path is cut off; the walker goes back to root; ERR_CMD and everything else stay. -/
def Obligations.HdEndDropsADanglingPath : Prop := ∀ s : State,
  BadCmdWhen 0x08#5 (fun w => w.extractLsb' 0 27 ≠ 0#27) s ∧
  exec .hdEnd s = .next { s with
    status := if s.mid then s.status ||| 0x80#8 else s.status
    cur := s.root
    mid := false }

/-! ## The Hamming encoder -/

/-- R150, R153: the seven bits of RES by the parity equations, the rest of RES zero, and nothing else changes. -/
def Obligations.CeEnc4PutsTheBlockInRes : Prop := ∀ (d : BitVec 4) (s : State),
  let d1 := d.getLsbD 3
  let d2 := d.getLsbD 2
  let d3 := d.getLsbD 1
  let d4 := d.getLsbD 0
  BadCmdWhen 0x09#5 (fun w => w.extractLsb' 4 23 ≠ 0#23) s ∧
  ∃ v : Word, exec (.ceEnc4 d) s = .next { s with res := v } ∧ v.toNat < 128 ∧
    v.getLsbD 6 = (d1 ^^ d2 ^^ d4) ∧ v.getLsbD 5 = (d1 ^^ d3 ^^ d4) ∧ v.getLsbD 4 = d1 ∧
    v.getLsbD 3 = (d2 ^^ d3 ^^ d4) ∧ v.getLsbD 2 = d2 ∧ v.getLsbD 1 = d3 ∧ v.getLsbD 0 = d4

/-- R151, R217: BADARG for N, then the exact OVERRUN; otherwise the blocks of the complete groups of "group, then the N bits
of ARG0" are appended in order, the bits left over are the new group, and nothing else changes. -/
def Obligations.CeBitsEncodesCompleteGroups : Prop := ∀ (n : BitVec 6) (s : State),
  s.ceG.length ≤ 3 →
  let bits := s.ceG ++ unpack s.arg0 n.toNat
  let groups := (s.ceG.length + n.toNat) / 4
  BadCmdWhen 0x0A#5 (fun w => w.extractLsb' 6 21 ≠ 0#21) s ∧
  ((n.toNat = 0 ∨ 32 < n.toNat) → exec (.ceBits n) s = .next (raise .badArg (encodeCommand (.ceBits n)) s)) ∧
  (1 ≤ n.toNat → n.toNat ≤ 32 →
    (s.params.qCap < s.ceQ.length + 7 * groups →
      exec (.ceBits n) s = .next (raise .overrun (encodeCommand (.ceBits n)) s)) ∧
    (s.ceQ.length + 7 * groups ≤ s.params.qCap →
      exec (.ceBits n) s = .next { s with ceQ := s.ceQ ++ encodeGroups bits, ceG := bits.drop (4 * groups) }))

/-- R152: an empty group gives pad 0 and no block; otherwise OVERRUN, or the group's block with zero bits appended and the
pad count 4 - |ceG|. -/
def Obligations.CeEndPadsTheLastGroup : Prop := ∀ s : State,
  BadCmdWhen 0x0B#5 (fun w => w.extractLsb' 0 27 ≠ 0#27) s ∧
  (s.ceG = [] → exec .ceEnd s = .next { s with cePad := 0#2 }) ∧
  (1 ≤ s.ceG.length → s.ceG.length ≤ 3 →
    (s.params.qCap < s.ceQ.length + 7 → exec .ceEnd s = .next (raise .overrun (encodeCommand .ceEnd) s)) ∧
    (s.ceQ.length + 7 ≤ s.params.qCap →
      ∃ pad : BitVec 2, pad.toNat = 4 - s.ceG.length ∧
        exec .ceEnd s = .next { s with
          ceQ := s.ceQ ++ encodeGroups (s.ceG ++ List.replicate (4 - s.ceG.length) false)
          cePad := pad
          ceG := [] }))

/-! ## The Hamming decoder -/

/-- R170, R173: error_pos, the corrected block and the data in RES by the syndrome equations, the other bits zero, and
nothing else changes. Position p of the block is bit 7-p of B and bit 11-p of RES. -/
def Obligations.CdDec7PutsTheDecodedBlockInRes : Prop := ∀ (b : BitVec 7) (s : State),
  let p := fun k : Nat => b.getLsbD (7 - k)
  BadCmdWhen 0x0C#5 (fun w => w.extractLsb' 7 20 ≠ 0#20) s ∧
  ∃ v : Word, exec (.cdDec7 b) s = .next { s with res := v } ∧
    (v.extractLsb' 12 3).toNat = (p 1 ^^ p 3 ^^ p 5 ^^ p 7).toNat + 2 * (p 2 ^^ p 3 ^^ p 6 ^^ p 7).toNat +
      4 * (p 4 ^^ p 5 ^^ p 6 ^^ p 7).toNat ∧
    (∀ k, 1 ≤ k → k ≤ 7 → v.getLsbD (11 - k) = (p k ^^ decide ((v.extractLsb' 12 3).toNat = k))) ∧
    v.getLsbD 3 = v.getLsbD 8 ∧ v.getLsbD 2 = v.getLsbD 6 ∧ v.getLsbD 1 = v.getLsbD 5 ∧ v.getLsbD 0 = v.getLsbD 4 ∧
    v.getLsbD 11 = false ∧ v.extractLsb' 15 17 = 0#17

/-- R171, R217: BADARG for N, then the conservative OVERRUN; otherwise, of the complete blocks of "partial block, then the N
bits of ARG0", every one but the last releases the data of the one before it; the last stays held; cdSyn and cdNcorr follow;
the bits left over are the new partial block; nothing else changes. -/
def Obligations.CdBitsDecodesCompleteBlocks : Prop := ∀ (n : BitVec 6) (s : State),
  s.cdB.length ≤ 6 →
  let bits := s.cdB ++ unpack s.arg0 n.toNat
  let m := (s.cdB.length + n.toNat) / 7
  BadCmdWhen 0x0D#5 (fun w => w.extractLsb' 6 21 ≠ 0#21) s ∧
  ((n.toNat = 0 ∨ 32 < n.toNat) → exec (.cdBits n) s = .next (raise .badArg (encodeCommand (.cdBits n)) s)) ∧
  (1 ≤ n.toNat → n.toNat ≤ 32 →
    (s.params.qCap < s.cdQ.length + 4 * m →
      exec (.cdBits n) s = .next (raise .overrun (encodeCommand (.cdBits n)) s)) ∧
    (s.cdQ.length + 4 * m ≤ s.params.qCap →
      (blocksOf bits = [] → exec (.cdBits n) s = .next { s with cdB := bits }) ∧
      ∀ init last, blocksOf bits = init ++ [last] →
        exec (.cdBits n) s = .next { s with
          cdQ := s.cdQ ++ holdBits s.cdHold ++ blockData init
          cdHold := some (hdec last).data
          cdSyn := (hdec last).pos
          cdNcorr := s.cdNcorr + BitVec.ofNat 32 ((init ++ [last]).countP fun b => decide ((hdec b).pos ≠ 0))
          cdB := bits.drop (7 * m) }))

/-- R172, R218: LENGTH on a partial block, which is dropped with the hold; nothing without a hold; otherwise OVERRUN, or the
first 4 - PAD held bits are released; nothing else changes. -/
def Obligations.CdEndReleasesTheHold : Prop := ∀ (pad : BitVec 2) (s : State),
  BadCmdWhen 0x0E#5 (fun w => w.extractLsb' 2 25 ≠ 0#25) s ∧
  (s.cdB ≠ [] → exec (.cdEnd pad) s =
    .next (raise .length (encodeCommand (.cdEnd pad)) { s with cdB := [], cdHold := none })) ∧
  (s.cdB = [] → s.cdHold = none → exec (.cdEnd pad) s = .next s) ∧
  (∀ d : Nibble, s.cdB = [] → s.cdHold = some d →
    (s.params.qCap < s.cdQ.length + (4 - pad.toNat) →
      exec (.cdEnd pad) s = .next (raise .overrun (encodeCommand (.cdEnd pad)) s)) ∧
    (s.cdQ.length + (4 - pad.toNat) ≤ s.params.qCap →
      exec (.cdEnd pad) s = .next { s with
        cdQ := s.cdQ ++ [d.d1, d.d2, d.d3, d.d4].take (4 - pad.toNat)
        cdHold := none }))

/-- R179: what CE.ENC4 puts in RES decodes with error_pos 0; with the bit at position i flipped, error_pos is i, the block is
restored and the data come back; with two bits flipped, error_pos is i XOR j, which is neither 0 nor i nor j. -/
def Obligations.HammingCorrectsOneFlip : Prop := ∀ (d : BitVec 4) (s t u : State),
  exec (.ceEnc4 d) s = .next t →
  let block := t.res.extractLsb' 0 7
  let flip := fun (b : BitVec 7) (i : Nat) => b ^^^ BitVec.ofNat 7 (2 ^ (7 - i))
  (∃ v : Word, exec (.cdDec7 block) u = .next { u with res := v } ∧ v.extractLsb' 12 3 = 0#3 ∧
    v.extractLsb' 4 7 = block ∧ v.extractLsb' 0 4 = d) ∧
  (∀ i, 1 ≤ i → i ≤ 7 → ∃ v : Word, exec (.cdDec7 (flip block i)) u = .next { u with res := v } ∧
    (v.extractLsb' 12 3).toNat = i ∧ v.extractLsb' 4 7 = block ∧ v.extractLsb' 0 4 = d) ∧
  (∀ i j, 1 ≤ i → i ≤ 7 → 1 ≤ j → j ≤ 7 → i ≠ j →
    ∃ v : Word, exec (.cdDec7 (flip (flip block i) j)) u = .next { u with res := v } ∧
      (v.extractLsb' 12 3).toNat = i ^^^ j ∧ i ^^^ j ≠ 0 ∧ i ^^^ j ≠ i ∧ i ^^^ j ≠ j)

/-! ## Register accesses -/

/-- R116, R155, R175, R56: an empty bit queue underruns, returns 0 and captures nothing; otherwise the first min(32, level)
bits leave the queue and are returned, s[j] at bit 31-j, zeros below; nothing else changes. -/
def Obligations.BitQueueReadsPopUpTo32Bits : Prop := ∀ s : State,
  (s.heQ = [] → exec .rdHeData s = .next { s with status := s.status ||| 0x40#8, reads := s.reads ++ [0#32] }) ∧
  (s.ceQ = [] → exec .rdCeData s = .next { s with status := s.status ||| 0x40#8, reads := s.reads ++ [0#32] }) ∧
  (s.cdQ = [] → exec .rdCdData s = .next { s with status := s.status ||| 0x40#8, reads := s.reads ++ [0#32] }) ∧
  (s.heQ ≠ [] → ∃ v : Word, exec .rdHeData s = .next { s with heQ := s.heQ.drop 32, reads := s.reads ++ [v] } ∧
    ∀ j, j < 32 → v.getLsbD (31 - j) = (s.heQ[j]?).getD false) ∧
  (s.ceQ ≠ [] → ∃ v : Word, exec .rdCeData s = .next { s with ceQ := s.ceQ.drop 32, reads := s.reads ++ [v] } ∧
    ∀ j, j < 32 → v.getLsbD (31 - j) = (s.ceQ[j]?).getD false) ∧
  (s.cdQ ≠ [] → ∃ v : Word, exec .rdCdData s = .next { s with cdQ := s.cdQ.drop 32, reads := s.reads ++ [v] } ∧
    ∀ j, j < 32 → v.getLsbD (31 - j) = (s.cdQ[j]?).getD false)

/-- R137: an empty symbol queue underruns and returns 0; otherwise the oldest symbol leaves the queue and is returned under a
1 at bit 31. -/
def Obligations.HdDataReadPopsOneSymbol : Prop := ∀ s : State,
  (s.hdQ = [] → exec .rdHdData s = .next { s with status := s.status ||| 0x40#8, reads := s.reads ++ [0#32] }) ∧
  (∀ sym rest, s.hdQ = sym :: rest → ∃ v : Word,
    exec .rdHdData s = .next { s with hdQ := rest, reads := s.reads ++ [v] } ∧
      v.extractLsb' 0 21 = sym ∧ v.extractLsb' 21 10 = 0#10 ∧ v.getLsbD 31 = true)

/-- R115, R117, R136, R154, R174, R177: the levels and the two counters; a read changes nothing in the block. -/
def Obligations.LevelAndCounterReads : Prop := ∀ s : State,
  exec .rdHeLevel s = .next { s with reads := s.reads ++ [BitVec.ofNat 32 s.heQ.length] } ∧
  exec .rdHeCount s = .next { s with reads := s.reads ++ [s.heCount] } ∧
  exec .rdHdLevel s = .next { s with reads := s.reads ++ [BitVec.ofNat 32 s.hdQ.length] } ∧
  exec .rdCeLevel s = .next { s with reads := s.reads ++ [BitVec.ofNat 32 s.ceQ.length] } ∧
  exec .rdCdLevel s = .next { s with reads := s.reads ++ [BitVec.ofNat 32 s.cdQ.length] } ∧
  exec .rdCdNcorr s = .next { s with reads := s.reads ++ [s.cdNcorr] }

/-- R138, R156, R176: every field of the three state words, the group and the partial block left-aligned, the hold 0 if
empty, every other bit 0; a read changes nothing in the block. -/
def Obligations.StateWordsShowTheStreamState : Prop := ∀ s : State,
  (∃ v : Word, exec .rdHdWalk s = .next { s with reads := s.reads ++ [v] } ∧
    v.extractLsb' 0 11 = s.cur ∧ v.extractLsb' 11 4 = 0#4 ∧ v.getLsbD 15 = s.mid ∧ v.extractLsb' 16 11 = s.root ∧
    v.extractLsb' 27 5 = 0#5) ∧
  (s.ceG.length ≤ 3 → ∃ v : Word, exec .rdCeState s = .next { s with reads := s.reads ++ [v] } ∧
    v.extractLsb' 0 2 = s.cePad ∧ v.extractLsb' 2 2 = 0#2 ∧ (v.extractLsb' 4 3).toNat = s.ceG.length ∧
    v.getLsbD 7 = false ∧ (∀ j, j < 4 → v.getLsbD (11 - j) = (s.ceG[j]?).getD false) ∧ v.extractLsb' 12 20 = 0#20) ∧
  (s.cdB.length ≤ 6 → ∃ v : Word, exec .rdCdState s = .next { s with reads := s.reads ++ [v] } ∧
    v.extractLsb' 0 3 = s.cdSyn ∧ v.getLsbD 3 = false ∧ (v.extractLsb' 4 3).toNat = s.cdB.length ∧
    v.getLsbD 7 = false ∧ v.getLsbD 8 = s.cdHold.isSome ∧ v.extractLsb' 9 3 = 0#3 ∧
    (s.cdHold = none → v.extractLsb' 12 4 = 0#4) ∧
    (∀ d : Nibble, s.cdHold = some d →
      v.getLsbD 15 = d.d1 ∧ v.getLsbD 14 = d.d2 ∧ v.getLsbD 13 = d.d3 ∧ v.getLsbD 12 = d.d4) ∧
    (∀ j, j < 7 → v.getLsbD (22 - j) = (s.cdB[j]?).getD false) ∧ v.extractLsb' 23 9 = 0#9)

/-- R92, R93. -/
def Obligations.ArgRegistersAreReadWrite : Prop := ∀ (s : State) (v : Word),
  exec (.wrArg0 v) s = .next { s with arg0 := v } ∧
  exec (.wrArg1 v) s = .next { s with arg1 := v } ∧
  exec .rdArg0 s = .next { s with reads := s.reads ++ [s.arg0] } ∧
  exec .rdArg1 s = .next { s with reads := s.reads ++ [s.arg1] }

/-- R98, R99, R100. -/
def Obligations.ResultErrorAndCommandReads : Prop := ∀ s : State,
  exec .rdRes s = .next { s with reads := s.reads ++ [s.res] } ∧
  exec .rdErrCmd s = .next { s with reads := s.reads ++ [s.errCmd] } ∧
  exec .rdCmd s = .next { s with reads := s.reads ++ [0#32] }

/-- R97, R22, R23: the ID constant, and the fields of PARAM for any instance that is an HHC. -/
def Obligations.IdentificationReads : Prop := ∀ s : State,
  exec .rdId s = .next { s with reads := s.reads ++ [0x48484301#32] } ∧
  (s.params.legal = true → ∃ v : Word, exec .rdParam s = .next { s with reads := s.reads ++ [v] } ∧
    (v.extractLsb' 0 4).toNat = s.params.symIdxW ∧ (v.extractLsb' 4 4).toNat = s.params.nodeW ∧
    (v.extractLsb' 8 6).toNat = s.params.lMax ∧ v.extractLsb' 14 2 = 0#2 ∧
    (v.extractLsb' 16 4).toNat = s.params.qCapLog2 ∧ (v.extractLsb' 20 4).toNat = s.params.sqCapLog2 ∧
    v.extractLsb' 24 8 = 0#8) ∧
  (s.params = Params.default → exec .rdParam s = .next { s with reads := s.reads ++ [0x00582098#32] })

/-- R54: a write to any read-only register is ignored. -/
def Obligations.ReadOnlyWritesAreIgnored : Prop := ∀ (s : State) (r : Reg) (v : Word),
  r ∈ [Reg.id, .param, .res, .errCmd, .heLevel, .hdLevel, .ceLevel, .cdLevel, .heData, .hdData, .ceData, .cdData, .hdWalk,
    .ceState, .cdState, .heCount, .cdNcorr] →
  decode (.write 32 r.offset v) = .wrReadOnly r v ∧ exec (.wrReadOnly r v) s = .next s

/-- R52: at a reserved offset a read returns 0, a write is ignored, and neither changes the block. -/
def Obligations.ReservedOffsetsReadZero : Prop := ∀ (s : State) (off : Offset) (v : Word),
  0x58 ≤ off.toNat → off.toNat % 4 = 0 →
  decode (.read 32 off) = .reservedOffset .read off ∧
  exec (.reservedOffset .read off) s = .next { s with reads := s.reads ++ [0#32] } ∧
  decode (.write 32 off v) = .reservedOffset (.write v) off ∧
  exec (.reservedOffset (.write v) off) s = .next s

/-! ## Agreement with the source's functions -/

/-- R114: CLEAR HE, then any interleaving of HE.SYM of symbols that each have exactly one valid entry and of pops, with no
error raised: the bits popped and those still queued are encode(T, codes), for the codes the valid entries give, and HE_COUNT
is their number. -/
def Obligations.HuffmanEncoderAgreesWithTheSource : Prop := ∀ (ms : List (Move Sym)) (s s₁ : State),
  let codes : List (Sym × Bits) := (s.ct.filter fun e => e.v).map fun e => (e.sym, e.bits)
  s.params.legal = true → s.status = 0 → exec (.clear 1#4) s = .next s₁ →
  (∀ t ∈ pushed ms, s.ct.countP (fun e => e.v && e.sym == t) = 1) →
  (heMoves ms s₁).2.status &&& 0x7F#8 = 0#8 →
  ∃ bits, sourceEncode codes (pushed ms) = some bits ∧
    (heMoves ms s₁).1 ++ (heMoves ms s₁).2.heQ = bits ∧
    (heMoves ms s₁).2.heCount = BitVec.ofNat 32 bits.length

/-- R135: CLEAR HD with a tree in the arena at root, then any split of a stream into HD.BITS commands and any pops, with no
error raised and the walk meeting no missing child: the symbols popped and those still queued are decode(s, tree), and HD.END
sets TRUNC exactly when the stream ends mid-path. -/
def Obligations.HuffmanDecoderAgreesWithTheSource : Prop :=
  ∀ (w : Nat) (l r : CodeTree) (ms : List (Move Bits)) (s s₁ : State) (syms : List Sym) (mid : Bool),
  let tree := CodeTree.internal w l r
  treeAt s tree s.root → s.status = 0 → exec (.clear 2#4) s = .next s₁ → pushesFit ms →
  (hdMoves ms s₁).2.status &&& 0x7F#8 = 0#8 →
  sourceDecodeFrom tree tree false (pushed ms).flatten = some (syms, mid) →
  (hdMoves ms s₁).1 ++ (hdMoves ms s₁).2.hdQ = syms ∧
  ∃ t, exec .hdEnd (hdMoves ms s₁).2 = .next t ∧ t.hdQ = (hdMoves ms s₁).2.hdQ ∧
    t.status = if mid then 0x80#8 else 0#8

/-- R157: CLEAR CE, any split of a stream into CE.BITS commands and any pops, then CE.END, with no error raised: the bits
popped and those still queued are encode(B), cePad is its pad count, and the number of bits is 7 ceil(|B| / 4). -/
def Obligations.HammingEncoderAgreesWithTheSource : Prop := ∀ (ms : List (Move Bits)) (s s₁ t : State),
  s.params.legal = true → s.status = 0 → exec (.clear 4#4) s = .next s₁ → pushesFit ms →
  exec .ceEnd (ceMoves ms s₁).2 = .next t → t.status &&& 0x7F#8 = 0#8 →
  (ceMoves ms s₁).1 ++ t.ceQ = hammingEncode (pushed ms).flatten ∧
  t.cePad = BitVec.ofNat 2 (padCount (pushed ms).flatten) ∧
  ((ceMoves ms s₁).1 ++ t.ceQ).length = 7 * (((pushed ms).flatten.length + 3) / 4)

/-- R178: CLEAR CD, any split of a stream C into CD.BITS commands and any pops with no error raised, then CD.END p. If |C| is
a multiple of 7 and CD.END raises no error, the bits popped and those still queued are decode(C, p). If it is not, CD.END
raises LENGTH, and they are the data of all but the last complete block. -/
def Obligations.HammingDecoderAgreesWithTheSource : Prop :=
  ∀ (ms : List (Move Bits)) (pad : BitVec 2) (s s₁ t : State),
  s.params.legal = true → s.status = 0 → exec (.clear 8#4) s = .next s₁ → pushesFit ms →
  (cdMoves ms s₁).2.status &&& 0x7F#8 = 0#8 → exec (.cdEnd pad) (cdMoves ms s₁).2 = .next t →
  ((pushed ms).flatten.length % 7 = 0 → t.status &&& 0x7F#8 = 0#8 →
    hammingDecode (pushed ms).flatten pad.toNat = some ((cdMoves ms s₁).1 ++ t.cdQ)) ∧
  ((pushed ms).flatten.length % 7 ≠ 0 →
    t.status &&& 0x7F#8 = 0x08#8 ∧
    (cdMoves ms s₁).1 ++ t.cdQ = blockData (blocksOf (pushed ms).flatten).dropLast)

/-! ## The reference host -/

/-- R193: every code of a source's table has at least one bit, and no code of one symbol is a prefix of another's. -/
def Obligations.DerivedCodesArePrefixFree : Prop := ∀ (T : List Sym) (a b : Sym) (ca cb : Bits),
  (a, ca) ∈ deriveCodes (treeOf T) → (b, cb) ∈ deriveCodes (treeOf T) →
  1 ≤ ca.length ∧ (a ≠ b → ¬ ca <+: cb)

/-- R204 (1), on the source's functions: a source sequence decodes back from its own encoding. -/
def Obligations.HuffmanRoundTrip : Prop := ∀ T : List Sym, T ≠ [] →
  ∃ bits, sourceEncode (deriveCodes (treeOf T)) T = some bits ∧ sourceDecode (treeOf T) bits = some T

/-- R204 (3), (4), on the source's functions: decode with the pad count gives the stream back, also with at most one bit of
every 7-bit block flipped. -/
def Obligations.HammingRoundTripWithOneFlipPerBlock : Prop := ∀ bits corrupted : Bits,
  oneFlipPerBlock (hammingEncode bits) corrupted → hammingDecode corrupted (padCount bits) = some bits

/-- R198: a no-op on an empty stream or a non-positive interval; otherwise the bits at start, start + interval, ... are
flipped and no others, with a start in [0, interval - 1] that seed and interval give. -/
def Obligations.InjectorFlipsEveryInterval : Prop := ∀ (interval : Int) (seed : Nat),
  (∀ bits : Bits, bits = [] ∨ interval ≤ 0 → injectErrors bits interval seed = bits) ∧
  (0 < interval → ∃ start : Nat, (start : Int) < interval ∧ ∀ bits : Bits,
    (injectErrors bits interval seed).length = bits.length ∧
    ∀ (i : Nat) (b : Bool), bits[i]? = some b →
      (injectErrors bits interval seed)[i]? =
        some (if start ≤ i ∧ interval ∣ ((i : Int) - start) then !b else b))

/-- R243 step 5, R253: run from any state that meets the invariant, it produces a clean run start for a source that fits. -/
def Obligations.RunStartIsClean : Prop := ∀ (T : List Sym) (s : State),
  s.Inv → fits s.params T = true → cleanRunStart T (performLines (runStartLines T) s) = true

/-- R197, R200, R204: from any state that meets the invariant, a reference run of a source that fits, with at most one bit of
every 7-bit block flipped between CE and CD, ends without an error and with both flags true. The host's chunk size (log 25)
and the points at which it reads STATUS (log 26) are the model's choice. -/
def Obligations.ReferenceRunRecoversTheSource : Prop := ∀ (T : List Sym) (inject : Bits → Bits) (s : State),
  s.Inv → fits s.params T = true → (∀ bits, oneFlipPerBlock bits (inject bits)) →
  ∃ r t, runWith T inject s = .ok (r, t) ∧ r.hammingOk = true ∧ r.huffmanOk T = true
end

