-- ==== Sys2Proof/Laws/Decode.lean ====
section
/-! SUPPORT. The small laws of the encoding tables: the opcode, the reserved bits and the fields of a command's word, and
the register map. -/

namespace Sys2Proof

/-- No two registers share an offset (R51). -/
@[simp] theorem regAt_offset (r : Reg) : regAt r.offset = some r := by cases r <;> rfl

/-- Every register's offset is word-aligned (R51). -/
@[simp] theorem offset_aligned (r : Reg) : r.offset.toNat % 4 = 0 := by cases r <;> rfl

/-- The opcode column of R76. -/
def Command.opc : Command → BitVec 5
  | .nop => 0x00
  | .clear _ => 0x01
  | .ctInv => 0x02
  | .ctLoad _ _ => 0x03
  | .heSym _ => 0x04
  | .hdRoot _ => 0x05
  | .hdNode _ => 0x06
  | .hdBits _ => 0x07
  | .hdEnd => 0x08
  | .ceEnc4 _ => 0x09
  | .ceBits _ => 0x0A
  | .ceEnd => 0x0B
  | .cdDec7 _ => 0x0C
  | .cdBits _ => 0x0D
  | .cdEnd _ => 0x0E

/-- A command's word holds its opcode in [31:27] (R71). -/
@[simp] theorem opcOf_encodeCommand (c : Command) : opcOf (encodeCommand c) = c.opc := by
  cases c <;> simp only [opcOf, encodeCommand, Command.opc] <;> ext i hi <;>
    simp only [BitVec.getElem_extractLsb', BitVec.getLsbD_append] <;> interval_cases i <;> simp

/-- The opcodes of the map have formats (R76). -/
theorem formatOf_opc (c : Command) : (formatOf c.opc).isSome = true := by cases c <;> rfl

/-- A command's word has its reserved bits 0 (R78). -/
theorem reservedBitSet_encodeCommand (c : Command) (f : Format) (h : formatOf c.opc = some f) :
    reservedBitSet f (encodeCommand c) = false := by
  cases c <;> cases h <;> simp only [reservedBitSet, bne_eq_false_iff_eq, encodeCommand, Format.fieldMask] <;>
    ext i hi <;> simp only [BitVec.getElem_and, BitVec.getElem_not, BitVec.getElem_extractLsb', BitVec.getLsbD_append] <;>
    interval_cases i <;> simp

/-- Each field of a command's word, cut out by its columns, is the command's operand (R72). -/
theorem fields_encodeCommand :
    (∀ units : BitVec 4, (encodeCommand (.clear units)).extractLsb' 0 4 = units) ∧
    (∀ len idx, (encodeCommand (.ctLoad len idx)).extractLsb' 16 6 = len) ∧
    (∀ len idx, (encodeCommand (.ctLoad len idx)).extractLsb' 0 10 = idx) ∧
    (∀ sym : Sym, (encodeCommand (.heSym sym)).extractLsb' 0 21 = sym) ∧
    (∀ idx : NodeIdx, (encodeCommand (.hdRoot idx)).extractLsb' 0 11 = idx) ∧
    (∀ idx : NodeIdx, (encodeCommand (.hdNode idx)).extractLsb' 0 11 = idx) ∧
    (∀ n : BitVec 6, (encodeCommand (.hdBits n)).extractLsb' 0 6 = n) ∧
    (∀ d : BitVec 4, (encodeCommand (.ceEnc4 d)).extractLsb' 0 4 = d) ∧
    (∀ n : BitVec 6, (encodeCommand (.ceBits n)).extractLsb' 0 6 = n) ∧
    (∀ b : BitVec 7, (encodeCommand (.cdDec7 b)).extractLsb' 0 7 = b) ∧
    (∀ n : BitVec 6, (encodeCommand (.cdBits n)).extractLsb' 0 6 = n) ∧
    (∀ pad : BitVec 2, (encodeCommand (.cdEnd pad)).extractLsb' 0 2 = pad) := by
  refine ⟨?_, ?_, ?_, ?_, ?_, ?_, ?_, ?_, ?_, ?_, ?_, ?_⟩
  all_goals
    intros
    simp only [encodeCommand]
    ext i hi
    simp only [BitVec.getElem_extractLsb', BitVec.getLsbD_append]
    interval_cases i <;> simp

/-- The fields of a command's word are the command's (R72). -/
theorem commandOf_encodeCommand (c : Command) : commandOf (encodeCommand c) = some c := by
  unfold commandOf
  rw [opcOf_encodeCommand]
  obtain ⟨h1, h2, h3, h4, h5, h6, h7, h8, h9, h10, h11, h12⟩ := fields_encodeCommand
  cases c with
  | nop => rfl
  | clear x => exact congrArg (fun y => some (Command.clear y)) (h1 x)
  | ctInv => rfl
  | ctLoad len idx => exact congrArg₂ (fun x y => some (Command.ctLoad x y)) (h2 len idx) (h3 len idx)
  | heSym x => exact congrArg (fun y => some (Command.heSym y)) (h4 x)
  | hdRoot x => exact congrArg (fun y => some (Command.hdRoot y)) (h5 x)
  | hdNode x => exact congrArg (fun y => some (Command.hdNode y)) (h6 x)
  | hdBits x => exact congrArg (fun y => some (Command.hdBits y)) (h7 x)
  | hdEnd => rfl
  | ceEnc4 x => exact congrArg (fun y => some (Command.ceEnc4 y)) (h8 x)
  | ceBits x => exact congrArg (fun y => some (Command.ceBits y)) (h9 x)
  | ceEnd => rfl
  | cdDec7 x => exact congrArg (fun y => some (Command.cdDec7 y)) (h10 x)
  | cdBits x => exact congrArg (fun y => some (Command.cdBits y)) (h11 x)
  | cdEnd x => exact congrArg (fun y => some (Command.cdEnd y)) (h12 x)

/-- A command's word decodes to the command. -/
theorem decodeCommand_encodeCommand (c : Command) : decodeCommand (encodeCommand c) = .ok c := by
  obtain ⟨f, hf⟩ := Option.isSome_iff_exists.1 (formatOf_opc c)
  simp [decodeCommand, hf, commandOf_encodeCommand, reservedBitSet_encodeCommand c f hf]

end Sys2Proof
end

