-- ==== Sys2Proof/Machine/HostProperties.lean ====
section
/-! DEFINITION. The six properties of a reference run that 48_host_reference.md R204 lists, each as a predicate over the
run of HostRun (exec performs its accesses) and the source's functions. -/

namespace Sys2Proof.Machine

/-- R204 (1), Huffman round trip: for a non-empty T within the host's duties (R194), D = T when no bits are corrupted
between HE and HD. -/
def huffmanRoundTrip (T : List Sym) (s : State) : Prop :=
  T ≠ [] → fits s.params T = true → ∃ r t, runWith T id s = .ok (r, t) ∧ r.decoded = T

/-- R204 (2), prefix-free: the codes of two distinct symbols of an image are never one a prefix of the other (R193). -/
def prefixFree (image : List (Sym × Bits)) : Bool :=
  image.all fun a => image.all fun b => a.1 == b.1 || !a.2.isPrefixOf b.2

/-- The bits of a stream with the one at a 0-based index flipped. -/
def flipAt (i : Nat) (bits : Bits) : Bits := bits.modify i not

/-- The CE stream and then the CD stream with pad = cePad, from both units cleared, with inject between them (R197, stages
4 to 6): the bits CD gives back, and the block. -/
def throughCoder (inject : Bits → Bits) (bits : Bits) (s : State) : Bits × State :=
  let ce := ceStage bits (performLines [.clear 0xC] s)
  cdStage (inject ce.1) ce.2.1 ce.2.2

/-- R204 (3), Hamming round trip: a stream comes back when nothing is injected. -/
def hammingRoundTrip (bits : Bits) (s : State) : Prop := (throughCoder id bits s).1 = bits

/-- R204 (4), single error, in one block: a flip at any of the positions 1 to 7 is located and corrected, and the block's
4 data bits come back (44_hamming_decoder.md R179). -/
def singleFlipCorrected (d : Nibble) (i : BitVec 3) : Prop :=
  hdec ((henc d).flip i) = { pos := i, block := henc d, data := d }

/-- R204 (4), single error, in a stream: one flip in any one block, and every bit comes back. -/
def singleFlipRecovered (i : Nat) (bits : Bits) (s : State) : Prop := (throughCoder (flipAt i) bits s).1 = bits

/-- The block of a nibble with the bits at two positions flipped. -/
def doubleFlipped (d : Nibble) (i j : BitVec 3) : Block := ((henc d).flip i).flip j

/-- R204 (5), double error: the fixed output of two flips in one block; 95_test_vectors.md (L2.5c) pins it for
"aaab". -/
def doubleFlip (d : Nibble) (i j : BitVec 3) : Decoded := hdec (doubleFlipped d i j)

/-- R204 (5) at the block: whatever the state, CD.DEC7 of the twice flipped block leaves that output in RES. -/
def doubleFlipFixed (d : Nibble) (i j : BitVec 3) : Prop := ∀ s : State,
  exec (.cdDec7 (doubleFlipped d i j).toField) s = .next { s with res := decodedWord (doubleFlip d i j) }

/-- R204 (6), purity: the corrupted stream of a run is injectErrors of its coded stream, interval and seed, and of nothing
else: not of the source, not of the block (R198). -/
def injectionIsPure (interval : Int) (seed : Nat) : Prop := ∀ (T : List Sym) (s t : State) (r : RunResult),
  referenceRun T interval seed s = .ok (r, t) → r.corrupted = injectErrors r.coded interval seed

/-- The six properties of R204 at a block; they are about blocks that meet State.Inv (Safety.lean). -/
def sourceProperties (s : State) : Prop :=
  (∀ T, huffmanRoundTrip T s) ∧
  (∀ T, prefixFree (ctImage T) = true) ∧
  (∀ bits, hammingRoundTrip bits s) ∧
  ((∀ d i, i ≠ 0 → singleFlipCorrected d i) ∧ ∀ i bits, singleFlipRecovered i bits s) ∧
  (∀ d i j, i ≠ 0 → j ≠ 0 → i ≠ j → doubleFlipFixed d i j ∧ (doubleFlip d i j).pos = i ^^^ j) ∧
  ∀ interval seed, injectionIsPure interval seed

end Sys2Proof.Machine
end

