-- ==== Sys2Proof/Laws/HostProperties.lean ====
section
/-! SUPPORT. What the block coder does with one and with two flips (R204 (4), (5)), and that a run's injector is a function
of its arguments (R204 (6)). -/

namespace Sys2Proof.Machine

theorem Block.ofField_toField (b : Block) : Block.ofField b.toField = b := by
  rcases b with ⟨b1, b2, b3, b4, b5, b6, b7⟩
  revert b1 b2 b3 b4 b5 b6 b7
  decide

/-- R204 (4) in one block; position 0 stands for no flip. -/
theorem singleFlipCorrected_all (d : Nibble) (i : BitVec 3) : singleFlipCorrected d i := by
  rcases d with ⟨d1, d2, d3, d4⟩
  revert d1 d2 d3 d4 i
  unfold singleFlipCorrected
  decide

/-- R204 (5): two flips are seen as a third. -/
theorem doubleFlip_pos (d : Nibble) (i j : BitVec 3) : (doubleFlip d i j).pos = i ^^^ j := by
  rcases d with ⟨d1, d2, d3, d4⟩
  revert d1 d2 d3 d4 i j
  decide

theorem doubleFlipFixed_all (d : Nibble) (i j : BitVec 3) : doubleFlipFixed d i j := by
  intro s
  simp only [exec, execCdDec7, Block.ofField_toField, doubleFlip]

@[simp] theorem flipAt_length (i : Nat) (bits : Bits) : (flipAt i bits).length = bits.length := by simp [flipAt]

theorem flipAt_getElem? (i k : Nat) (bits : Bits) :
    (flipAt i bits)[k]? = if i = k then bits[k]?.map not else bits[k]? := by
  simp only [flipAt, List.getElem?_modify]
  split <;> simp_all

/-- A run that ends with a result has the injector's image of its coded stream as its corrupted one. -/
theorem runWith_corrupted (T : List Sym) (inject : Bits → Bits) (s t : State) (r : RunResult)
    (h : runWith T inject s = .ok (r, t)) : r.corrupted = inject r.coded := by
  simp only [runWith, bind, Except.bind] at h
  repeat' split at h
  all_goals first | contradiction | skip
  all_goals
    simp only [pure, Except.pure, Except.ok.injEq, Prod.mk.injEq] at h
    rw [← h.1]

/-- R204 (6). -/
theorem injectionIsPure_all (interval : Int) (seed : Nat) : injectionIsPure interval seed :=
  fun T s t r => runWith_corrupted T _ s t r

end Sys2Proof.Machine
end

