-- ==== Sys2Proof/Laws/State.lean ====
section
/-! SUPPORT. One lemma per field per named update of State, so that no proof unfolds a record update. -/

namespace Sys2Proof.Machine

@[simp] theorem raise_arg0 (e : Err) (w : Word) (s : State) : (raise e w s).arg0 = s.arg0 := rfl
@[simp] theorem raise_arg1 (e : Err) (w : Word) (s : State) : (raise e w s).arg1 = s.arg1 := rfl
@[simp] theorem raise_res (e : Err) (w : Word) (s : State) : (raise e w s).res = s.res := rfl
@[simp] theorem raise_status (e : Err) (w : Word) (s : State) : (raise e w s).status = setBit s.status e.bit := rfl
@[simp] theorem raise_irqEn (e : Err) (w : Word) (s : State) : (raise e w s).irqEn = s.irqEn := rfl
@[simp] theorem raise_errCmd (e : Err) (w : Word) (s : State) : (raise e w s).errCmd = if e ≠ .underrun ∧ commandErrors s.status = 0#6 then w else s.errCmd := rfl
@[simp] theorem raise_ct (e : Err) (w : Word) (s : State) : (raise e w s).ct = s.ct := rfl
@[simp] theorem raise_node (e : Err) (w : Word) (s : State) : (raise e w s).node = s.node := rfl
@[simp] theorem raise_heQ (e : Err) (w : Word) (s : State) : (raise e w s).heQ = s.heQ := rfl
@[simp] theorem raise_heCount (e : Err) (w : Word) (s : State) : (raise e w s).heCount = s.heCount := rfl
@[simp] theorem raise_hdQ (e : Err) (w : Word) (s : State) : (raise e w s).hdQ = s.hdQ := rfl
@[simp] theorem raise_root (e : Err) (w : Word) (s : State) : (raise e w s).root = s.root := rfl
@[simp] theorem raise_cur (e : Err) (w : Word) (s : State) : (raise e w s).cur = s.cur := rfl
@[simp] theorem raise_mid (e : Err) (w : Word) (s : State) : (raise e w s).mid = s.mid := rfl
@[simp] theorem raise_ceG (e : Err) (w : Word) (s : State) : (raise e w s).ceG = s.ceG := rfl
@[simp] theorem raise_cePad (e : Err) (w : Word) (s : State) : (raise e w s).cePad = s.cePad := rfl
@[simp] theorem raise_ceQ (e : Err) (w : Word) (s : State) : (raise e w s).ceQ = s.ceQ := rfl
@[simp] theorem raise_cdB (e : Err) (w : Word) (s : State) : (raise e w s).cdB = s.cdB := rfl
@[simp] theorem raise_cdHold (e : Err) (w : Word) (s : State) : (raise e w s).cdHold = s.cdHold := rfl
@[simp] theorem raise_cdSyn (e : Err) (w : Word) (s : State) : (raise e w s).cdSyn = s.cdSyn := rfl
@[simp] theorem raise_cdNcorr (e : Err) (w : Word) (s : State) : (raise e w s).cdNcorr = s.cdNcorr := rfl
@[simp] theorem raise_cdQ (e : Err) (w : Word) (s : State) : (raise e w s).cdQ = s.cdQ := rfl
@[simp] theorem raise_params (e : Err) (w : Word) (s : State) : (raise e w s).params = s.params := rfl
@[simp] theorem raise_port (e : Err) (w : Word) (s : State) : (raise e w s).port = s.port := rfl
@[simp] theorem raise_reads (e : Err) (w : Word) (s : State) : (raise e w s).reads = s.reads := rfl

@[simp] theorem setTrunc_arg0 (s : State) : (setTrunc s).arg0 = s.arg0 := rfl
@[simp] theorem setTrunc_arg1 (s : State) : (setTrunc s).arg1 = s.arg1 := rfl
@[simp] theorem setTrunc_res (s : State) : (setTrunc s).res = s.res := rfl
@[simp] theorem setTrunc_status (s : State) : (setTrunc s).status = setBit s.status truncBit := rfl
@[simp] theorem setTrunc_irqEn (s : State) : (setTrunc s).irqEn = s.irqEn := rfl
@[simp] theorem setTrunc_errCmd (s : State) : (setTrunc s).errCmd = s.errCmd := rfl
@[simp] theorem setTrunc_ct (s : State) : (setTrunc s).ct = s.ct := rfl
@[simp] theorem setTrunc_node (s : State) : (setTrunc s).node = s.node := rfl
@[simp] theorem setTrunc_heQ (s : State) : (setTrunc s).heQ = s.heQ := rfl
@[simp] theorem setTrunc_heCount (s : State) : (setTrunc s).heCount = s.heCount := rfl
@[simp] theorem setTrunc_hdQ (s : State) : (setTrunc s).hdQ = s.hdQ := rfl
@[simp] theorem setTrunc_root (s : State) : (setTrunc s).root = s.root := rfl
@[simp] theorem setTrunc_cur (s : State) : (setTrunc s).cur = s.cur := rfl
@[simp] theorem setTrunc_mid (s : State) : (setTrunc s).mid = s.mid := rfl
@[simp] theorem setTrunc_ceG (s : State) : (setTrunc s).ceG = s.ceG := rfl
@[simp] theorem setTrunc_cePad (s : State) : (setTrunc s).cePad = s.cePad := rfl
@[simp] theorem setTrunc_ceQ (s : State) : (setTrunc s).ceQ = s.ceQ := rfl
@[simp] theorem setTrunc_cdB (s : State) : (setTrunc s).cdB = s.cdB := rfl
@[simp] theorem setTrunc_cdHold (s : State) : (setTrunc s).cdHold = s.cdHold := rfl
@[simp] theorem setTrunc_cdSyn (s : State) : (setTrunc s).cdSyn = s.cdSyn := rfl
@[simp] theorem setTrunc_cdNcorr (s : State) : (setTrunc s).cdNcorr = s.cdNcorr := rfl
@[simp] theorem setTrunc_cdQ (s : State) : (setTrunc s).cdQ = s.cdQ := rfl
@[simp] theorem setTrunc_params (s : State) : (setTrunc s).params = s.params := rfl
@[simp] theorem setTrunc_port (s : State) : (setTrunc s).port = s.port := rfl
@[simp] theorem setTrunc_reads (s : State) : (setTrunc s).reads = s.reads := rfl

@[simp] theorem acknowledge_arg0 (v : Word) (s : State) : (acknowledge v s).arg0 = s.arg0 := rfl
@[simp] theorem acknowledge_arg1 (v : Word) (s : State) : (acknowledge v s).arg1 = s.arg1 := rfl
@[simp] theorem acknowledge_res (v : Word) (s : State) : (acknowledge v s).res = s.res := rfl
@[simp] theorem acknowledge_status (v : Word) (s : State) : (acknowledge v s).status = ackBits s.status v := rfl
@[simp] theorem acknowledge_irqEn (v : Word) (s : State) : (acknowledge v s).irqEn = s.irqEn := rfl
@[simp] theorem acknowledge_errCmd (v : Word) (s : State) : (acknowledge v s).errCmd = s.errCmd := rfl
@[simp] theorem acknowledge_ct (v : Word) (s : State) : (acknowledge v s).ct = s.ct := rfl
@[simp] theorem acknowledge_node (v : Word) (s : State) : (acknowledge v s).node = s.node := rfl
@[simp] theorem acknowledge_heQ (v : Word) (s : State) : (acknowledge v s).heQ = s.heQ := rfl
@[simp] theorem acknowledge_heCount (v : Word) (s : State) : (acknowledge v s).heCount = s.heCount := rfl
@[simp] theorem acknowledge_hdQ (v : Word) (s : State) : (acknowledge v s).hdQ = s.hdQ := rfl
@[simp] theorem acknowledge_root (v : Word) (s : State) : (acknowledge v s).root = s.root := rfl
@[simp] theorem acknowledge_cur (v : Word) (s : State) : (acknowledge v s).cur = s.cur := rfl
@[simp] theorem acknowledge_mid (v : Word) (s : State) : (acknowledge v s).mid = s.mid := rfl
@[simp] theorem acknowledge_ceG (v : Word) (s : State) : (acknowledge v s).ceG = s.ceG := rfl
@[simp] theorem acknowledge_cePad (v : Word) (s : State) : (acknowledge v s).cePad = s.cePad := rfl
@[simp] theorem acknowledge_ceQ (v : Word) (s : State) : (acknowledge v s).ceQ = s.ceQ := rfl
@[simp] theorem acknowledge_cdB (v : Word) (s : State) : (acknowledge v s).cdB = s.cdB := rfl
@[simp] theorem acknowledge_cdHold (v : Word) (s : State) : (acknowledge v s).cdHold = s.cdHold := rfl
@[simp] theorem acknowledge_cdSyn (v : Word) (s : State) : (acknowledge v s).cdSyn = s.cdSyn := rfl
@[simp] theorem acknowledge_cdNcorr (v : Word) (s : State) : (acknowledge v s).cdNcorr = s.cdNcorr := rfl
@[simp] theorem acknowledge_cdQ (v : Word) (s : State) : (acknowledge v s).cdQ = s.cdQ := rfl
@[simp] theorem acknowledge_params (v : Word) (s : State) : (acknowledge v s).params = s.params := rfl
@[simp] theorem acknowledge_port (v : Word) (s : State) : (acknowledge v s).port = s.port := rfl
@[simp] theorem acknowledge_reads (v : Word) (s : State) : (acknowledge v s).reads = s.reads := rfl

@[simp] theorem respond_arg0 (v : Word) (s : State) : (respond v s).arg0 = s.arg0 := rfl
@[simp] theorem respond_arg1 (v : Word) (s : State) : (respond v s).arg1 = s.arg1 := rfl
@[simp] theorem respond_res (v : Word) (s : State) : (respond v s).res = s.res := rfl
@[simp] theorem respond_status (v : Word) (s : State) : (respond v s).status = s.status := rfl
@[simp] theorem respond_irqEn (v : Word) (s : State) : (respond v s).irqEn = s.irqEn := rfl
@[simp] theorem respond_errCmd (v : Word) (s : State) : (respond v s).errCmd = s.errCmd := rfl
@[simp] theorem respond_ct (v : Word) (s : State) : (respond v s).ct = s.ct := rfl
@[simp] theorem respond_node (v : Word) (s : State) : (respond v s).node = s.node := rfl
@[simp] theorem respond_heQ (v : Word) (s : State) : (respond v s).heQ = s.heQ := rfl
@[simp] theorem respond_heCount (v : Word) (s : State) : (respond v s).heCount = s.heCount := rfl
@[simp] theorem respond_hdQ (v : Word) (s : State) : (respond v s).hdQ = s.hdQ := rfl
@[simp] theorem respond_root (v : Word) (s : State) : (respond v s).root = s.root := rfl
@[simp] theorem respond_cur (v : Word) (s : State) : (respond v s).cur = s.cur := rfl
@[simp] theorem respond_mid (v : Word) (s : State) : (respond v s).mid = s.mid := rfl
@[simp] theorem respond_ceG (v : Word) (s : State) : (respond v s).ceG = s.ceG := rfl
@[simp] theorem respond_cePad (v : Word) (s : State) : (respond v s).cePad = s.cePad := rfl
@[simp] theorem respond_ceQ (v : Word) (s : State) : (respond v s).ceQ = s.ceQ := rfl
@[simp] theorem respond_cdB (v : Word) (s : State) : (respond v s).cdB = s.cdB := rfl
@[simp] theorem respond_cdHold (v : Word) (s : State) : (respond v s).cdHold = s.cdHold := rfl
@[simp] theorem respond_cdSyn (v : Word) (s : State) : (respond v s).cdSyn = s.cdSyn := rfl
@[simp] theorem respond_cdNcorr (v : Word) (s : State) : (respond v s).cdNcorr = s.cdNcorr := rfl
@[simp] theorem respond_cdQ (v : Word) (s : State) : (respond v s).cdQ = s.cdQ := rfl
@[simp] theorem respond_params (v : Word) (s : State) : (respond v s).params = s.params := rfl
@[simp] theorem respond_port (v : Word) (s : State) : (respond v s).port = s.port := rfl
@[simp] theorem respond_reads (v : Word) (s : State) : (respond v s).reads = s.reads ++ [v] := rfl

@[simp] theorem rewind_arg0 (s : State) : (rewind s).arg0 = s.arg0 := rfl
@[simp] theorem rewind_arg1 (s : State) : (rewind s).arg1 = s.arg1 := rfl
@[simp] theorem rewind_res (s : State) : (rewind s).res = s.res := rfl
@[simp] theorem rewind_status (s : State) : (rewind s).status = s.status := rfl
@[simp] theorem rewind_irqEn (s : State) : (rewind s).irqEn = s.irqEn := rfl
@[simp] theorem rewind_errCmd (s : State) : (rewind s).errCmd = s.errCmd := rfl
@[simp] theorem rewind_ct (s : State) : (rewind s).ct = s.ct := rfl
@[simp] theorem rewind_node (s : State) : (rewind s).node = s.node := rfl
@[simp] theorem rewind_heQ (s : State) : (rewind s).heQ = s.heQ := rfl
@[simp] theorem rewind_heCount (s : State) : (rewind s).heCount = s.heCount := rfl
@[simp] theorem rewind_hdQ (s : State) : (rewind s).hdQ = s.hdQ := rfl
@[simp] theorem rewind_root (s : State) : (rewind s).root = s.root := rfl
@[simp] theorem rewind_cur (s : State) : (rewind s).cur = s.root := rfl
@[simp] theorem rewind_mid (s : State) : (rewind s).mid = false := rfl
@[simp] theorem rewind_ceG (s : State) : (rewind s).ceG = s.ceG := rfl
@[simp] theorem rewind_cePad (s : State) : (rewind s).cePad = s.cePad := rfl
@[simp] theorem rewind_ceQ (s : State) : (rewind s).ceQ = s.ceQ := rfl
@[simp] theorem rewind_cdB (s : State) : (rewind s).cdB = s.cdB := rfl
@[simp] theorem rewind_cdHold (s : State) : (rewind s).cdHold = s.cdHold := rfl
@[simp] theorem rewind_cdSyn (s : State) : (rewind s).cdSyn = s.cdSyn := rfl
@[simp] theorem rewind_cdNcorr (s : State) : (rewind s).cdNcorr = s.cdNcorr := rfl
@[simp] theorem rewind_cdQ (s : State) : (rewind s).cdQ = s.cdQ := rfl
@[simp] theorem rewind_params (s : State) : (rewind s).params = s.params := rfl
@[simp] theorem rewind_port (s : State) : (rewind s).port = s.port := rfl
@[simp] theorem rewind_reads (s : State) : (rewind s).reads = s.reads := rfl

@[simp] theorem clearHe_arg0 (s : State) : (clearHe s).arg0 = s.arg0 := rfl
@[simp] theorem clearHe_arg1 (s : State) : (clearHe s).arg1 = s.arg1 := rfl
@[simp] theorem clearHe_res (s : State) : (clearHe s).res = s.res := rfl
@[simp] theorem clearHe_status (s : State) : (clearHe s).status = s.status := rfl
@[simp] theorem clearHe_irqEn (s : State) : (clearHe s).irqEn = s.irqEn := rfl
@[simp] theorem clearHe_errCmd (s : State) : (clearHe s).errCmd = s.errCmd := rfl
@[simp] theorem clearHe_ct (s : State) : (clearHe s).ct = s.ct := rfl
@[simp] theorem clearHe_node (s : State) : (clearHe s).node = s.node := rfl
@[simp] theorem clearHe_heQ (s : State) : (clearHe s).heQ = [] := rfl
@[simp] theorem clearHe_heCount (s : State) : (clearHe s).heCount = 0 := rfl
@[simp] theorem clearHe_hdQ (s : State) : (clearHe s).hdQ = s.hdQ := rfl
@[simp] theorem clearHe_root (s : State) : (clearHe s).root = s.root := rfl
@[simp] theorem clearHe_cur (s : State) : (clearHe s).cur = s.cur := rfl
@[simp] theorem clearHe_mid (s : State) : (clearHe s).mid = s.mid := rfl
@[simp] theorem clearHe_ceG (s : State) : (clearHe s).ceG = s.ceG := rfl
@[simp] theorem clearHe_cePad (s : State) : (clearHe s).cePad = s.cePad := rfl
@[simp] theorem clearHe_ceQ (s : State) : (clearHe s).ceQ = s.ceQ := rfl
@[simp] theorem clearHe_cdB (s : State) : (clearHe s).cdB = s.cdB := rfl
@[simp] theorem clearHe_cdHold (s : State) : (clearHe s).cdHold = s.cdHold := rfl
@[simp] theorem clearHe_cdSyn (s : State) : (clearHe s).cdSyn = s.cdSyn := rfl
@[simp] theorem clearHe_cdNcorr (s : State) : (clearHe s).cdNcorr = s.cdNcorr := rfl
@[simp] theorem clearHe_cdQ (s : State) : (clearHe s).cdQ = s.cdQ := rfl
@[simp] theorem clearHe_params (s : State) : (clearHe s).params = s.params := rfl
@[simp] theorem clearHe_port (s : State) : (clearHe s).port = s.port := rfl
@[simp] theorem clearHe_reads (s : State) : (clearHe s).reads = s.reads := rfl

@[simp] theorem clearHd_arg0 (s : State) : (clearHd s).arg0 = s.arg0 := rfl
@[simp] theorem clearHd_arg1 (s : State) : (clearHd s).arg1 = s.arg1 := rfl
@[simp] theorem clearHd_res (s : State) : (clearHd s).res = s.res := rfl
@[simp] theorem clearHd_status (s : State) : (clearHd s).status = s.status := rfl
@[simp] theorem clearHd_irqEn (s : State) : (clearHd s).irqEn = s.irqEn := rfl
@[simp] theorem clearHd_errCmd (s : State) : (clearHd s).errCmd = s.errCmd := rfl
@[simp] theorem clearHd_ct (s : State) : (clearHd s).ct = s.ct := rfl
@[simp] theorem clearHd_node (s : State) : (clearHd s).node = s.node := rfl
@[simp] theorem clearHd_heQ (s : State) : (clearHd s).heQ = s.heQ := rfl
@[simp] theorem clearHd_heCount (s : State) : (clearHd s).heCount = s.heCount := rfl
@[simp] theorem clearHd_hdQ (s : State) : (clearHd s).hdQ = [] := rfl
@[simp] theorem clearHd_root (s : State) : (clearHd s).root = s.root := rfl
@[simp] theorem clearHd_cur (s : State) : (clearHd s).cur = s.root := rfl
@[simp] theorem clearHd_mid (s : State) : (clearHd s).mid = false := rfl
@[simp] theorem clearHd_ceG (s : State) : (clearHd s).ceG = s.ceG := rfl
@[simp] theorem clearHd_cePad (s : State) : (clearHd s).cePad = s.cePad := rfl
@[simp] theorem clearHd_ceQ (s : State) : (clearHd s).ceQ = s.ceQ := rfl
@[simp] theorem clearHd_cdB (s : State) : (clearHd s).cdB = s.cdB := rfl
@[simp] theorem clearHd_cdHold (s : State) : (clearHd s).cdHold = s.cdHold := rfl
@[simp] theorem clearHd_cdSyn (s : State) : (clearHd s).cdSyn = s.cdSyn := rfl
@[simp] theorem clearHd_cdNcorr (s : State) : (clearHd s).cdNcorr = s.cdNcorr := rfl
@[simp] theorem clearHd_cdQ (s : State) : (clearHd s).cdQ = s.cdQ := rfl
@[simp] theorem clearHd_params (s : State) : (clearHd s).params = s.params := rfl
@[simp] theorem clearHd_port (s : State) : (clearHd s).port = s.port := rfl
@[simp] theorem clearHd_reads (s : State) : (clearHd s).reads = s.reads := rfl

@[simp] theorem clearCe_arg0 (s : State) : (clearCe s).arg0 = s.arg0 := rfl
@[simp] theorem clearCe_arg1 (s : State) : (clearCe s).arg1 = s.arg1 := rfl
@[simp] theorem clearCe_res (s : State) : (clearCe s).res = s.res := rfl
@[simp] theorem clearCe_status (s : State) : (clearCe s).status = s.status := rfl
@[simp] theorem clearCe_irqEn (s : State) : (clearCe s).irqEn = s.irqEn := rfl
@[simp] theorem clearCe_errCmd (s : State) : (clearCe s).errCmd = s.errCmd := rfl
@[simp] theorem clearCe_ct (s : State) : (clearCe s).ct = s.ct := rfl
@[simp] theorem clearCe_node (s : State) : (clearCe s).node = s.node := rfl
@[simp] theorem clearCe_heQ (s : State) : (clearCe s).heQ = s.heQ := rfl
@[simp] theorem clearCe_heCount (s : State) : (clearCe s).heCount = s.heCount := rfl
@[simp] theorem clearCe_hdQ (s : State) : (clearCe s).hdQ = s.hdQ := rfl
@[simp] theorem clearCe_root (s : State) : (clearCe s).root = s.root := rfl
@[simp] theorem clearCe_cur (s : State) : (clearCe s).cur = s.cur := rfl
@[simp] theorem clearCe_mid (s : State) : (clearCe s).mid = s.mid := rfl
@[simp] theorem clearCe_ceG (s : State) : (clearCe s).ceG = [] := rfl
@[simp] theorem clearCe_cePad (s : State) : (clearCe s).cePad = 0 := rfl
@[simp] theorem clearCe_ceQ (s : State) : (clearCe s).ceQ = [] := rfl
@[simp] theorem clearCe_cdB (s : State) : (clearCe s).cdB = s.cdB := rfl
@[simp] theorem clearCe_cdHold (s : State) : (clearCe s).cdHold = s.cdHold := rfl
@[simp] theorem clearCe_cdSyn (s : State) : (clearCe s).cdSyn = s.cdSyn := rfl
@[simp] theorem clearCe_cdNcorr (s : State) : (clearCe s).cdNcorr = s.cdNcorr := rfl
@[simp] theorem clearCe_cdQ (s : State) : (clearCe s).cdQ = s.cdQ := rfl
@[simp] theorem clearCe_params (s : State) : (clearCe s).params = s.params := rfl
@[simp] theorem clearCe_port (s : State) : (clearCe s).port = s.port := rfl
@[simp] theorem clearCe_reads (s : State) : (clearCe s).reads = s.reads := rfl

@[simp] theorem clearCd_arg0 (s : State) : (clearCd s).arg0 = s.arg0 := rfl
@[simp] theorem clearCd_arg1 (s : State) : (clearCd s).arg1 = s.arg1 := rfl
@[simp] theorem clearCd_res (s : State) : (clearCd s).res = s.res := rfl
@[simp] theorem clearCd_status (s : State) : (clearCd s).status = s.status := rfl
@[simp] theorem clearCd_irqEn (s : State) : (clearCd s).irqEn = s.irqEn := rfl
@[simp] theorem clearCd_errCmd (s : State) : (clearCd s).errCmd = s.errCmd := rfl
@[simp] theorem clearCd_ct (s : State) : (clearCd s).ct = s.ct := rfl
@[simp] theorem clearCd_node (s : State) : (clearCd s).node = s.node := rfl
@[simp] theorem clearCd_heQ (s : State) : (clearCd s).heQ = s.heQ := rfl
@[simp] theorem clearCd_heCount (s : State) : (clearCd s).heCount = s.heCount := rfl
@[simp] theorem clearCd_hdQ (s : State) : (clearCd s).hdQ = s.hdQ := rfl
@[simp] theorem clearCd_root (s : State) : (clearCd s).root = s.root := rfl
@[simp] theorem clearCd_cur (s : State) : (clearCd s).cur = s.cur := rfl
@[simp] theorem clearCd_mid (s : State) : (clearCd s).mid = s.mid := rfl
@[simp] theorem clearCd_ceG (s : State) : (clearCd s).ceG = s.ceG := rfl
@[simp] theorem clearCd_cePad (s : State) : (clearCd s).cePad = s.cePad := rfl
@[simp] theorem clearCd_ceQ (s : State) : (clearCd s).ceQ = s.ceQ := rfl
@[simp] theorem clearCd_cdB (s : State) : (clearCd s).cdB = [] := rfl
@[simp] theorem clearCd_cdHold (s : State) : (clearCd s).cdHold = none := rfl
@[simp] theorem clearCd_cdSyn (s : State) : (clearCd s).cdSyn = 0 := rfl
@[simp] theorem clearCd_cdNcorr (s : State) : (clearCd s).cdNcorr = 0 := rfl
@[simp] theorem clearCd_cdQ (s : State) : (clearCd s).cdQ = [] := rfl
@[simp] theorem clearCd_params (s : State) : (clearCd s).params = s.params := rfl
@[simp] theorem clearCd_port (s : State) : (clearCd s).port = s.port := rfl
@[simp] theorem clearCd_reads (s : State) : (clearCd s).reads = s.reads := rfl

@[simp] theorem cdBlock_arg0 (b : Block) (s : State) : (cdBlock b s).arg0 = s.arg0 := rfl
@[simp] theorem cdBlock_arg1 (b : Block) (s : State) : (cdBlock b s).arg1 = s.arg1 := rfl
@[simp] theorem cdBlock_res (b : Block) (s : State) : (cdBlock b s).res = s.res := rfl
@[simp] theorem cdBlock_status (b : Block) (s : State) : (cdBlock b s).status = s.status := rfl
@[simp] theorem cdBlock_irqEn (b : Block) (s : State) : (cdBlock b s).irqEn = s.irqEn := rfl
@[simp] theorem cdBlock_errCmd (b : Block) (s : State) : (cdBlock b s).errCmd = s.errCmd := rfl
@[simp] theorem cdBlock_ct (b : Block) (s : State) : (cdBlock b s).ct = s.ct := rfl
@[simp] theorem cdBlock_node (b : Block) (s : State) : (cdBlock b s).node = s.node := rfl
@[simp] theorem cdBlock_heQ (b : Block) (s : State) : (cdBlock b s).heQ = s.heQ := rfl
@[simp] theorem cdBlock_heCount (b : Block) (s : State) : (cdBlock b s).heCount = s.heCount := rfl
@[simp] theorem cdBlock_hdQ (b : Block) (s : State) : (cdBlock b s).hdQ = s.hdQ := rfl
@[simp] theorem cdBlock_root (b : Block) (s : State) : (cdBlock b s).root = s.root := rfl
@[simp] theorem cdBlock_cur (b : Block) (s : State) : (cdBlock b s).cur = s.cur := rfl
@[simp] theorem cdBlock_mid (b : Block) (s : State) : (cdBlock b s).mid = s.mid := rfl
@[simp] theorem cdBlock_ceG (b : Block) (s : State) : (cdBlock b s).ceG = s.ceG := rfl
@[simp] theorem cdBlock_cePad (b : Block) (s : State) : (cdBlock b s).cePad = s.cePad := rfl
@[simp] theorem cdBlock_ceQ (b : Block) (s : State) : (cdBlock b s).ceQ = s.ceQ := rfl
@[simp] theorem cdBlock_cdB (b : Block) (s : State) : (cdBlock b s).cdB = [] := rfl
@[simp] theorem cdBlock_cdHold (b : Block) (s : State) : (cdBlock b s).cdHold = some (hdec b).data := rfl
@[simp] theorem cdBlock_cdSyn (b : Block) (s : State) : (cdBlock b s).cdSyn = (hdec b).pos := rfl
@[simp] theorem cdBlock_cdNcorr (b : Block) (s : State) : (cdBlock b s).cdNcorr = if (hdec b).pos = 0 then s.cdNcorr else s.cdNcorr + 1 := rfl
@[simp] theorem cdBlock_cdQ (b : Block) (s : State) : (cdBlock b s).cdQ = s.cdQ ++ holdBits s.cdHold := rfl
@[simp] theorem cdBlock_params (b : Block) (s : State) : (cdBlock b s).params = s.params := rfl
@[simp] theorem cdBlock_port (b : Block) (s : State) : (cdBlock b s).port = s.port := rfl
@[simp] theorem cdBlock_reads (b : Block) (s : State) : (cdBlock b s).reads = s.reads := rfl

/-- A command's error is the raise of its word. -/
@[simp] theorem raiseCmd_eq (e : Err) (c : Command) (s : State) : raiseCmd e c s = raise e (encodeCommand c) s := rfl

/-- An underrun is the raise and the response 0. -/
@[simp] theorem underrun_eq (s : State) : underrun s = respond 0 (raise .underrun 0 s) := rfl

/-- An unselected unit keeps its state. -/
@[simp] theorem onUnit_false (f : State → State) (s : State) : onUnit false f s = s := rfl

/-- A selected unit is updated. -/
@[simp] theorem onUnit_true (f : State → State) (s : State) : onUnit true f s = f s := rfl

/-- A reset keeps what is not the spec's state: parameters, the accesses to come, the words returned. -/
@[simp] theorem hardReset_params (s : State) : (hardReset s).params = s.params := rfl
@[simp] theorem hardReset_port (s : State) : (hardReset s).port = s.port := rfl
@[simp] theorem hardReset_reads (s : State) : (hardReset s).reads = s.reads := rfl

end Sys2Proof.Machine
end

