-- ==== Sys2Proof/Laws/Ops.lean ====
section
/-! SUPPORT. What each shared operation does, said once: words and bits, flags, lookup, the walker's step, the push of
one bit to CE and to CD. -/

namespace Sys2Proof.Machine

/-! ## Words and bits -/

@[simp] theorem bitsToNat_nil : bitsToNat [] = 0 := rfl

theorem bitsToNat_append_bit (s : Bits) (b : Bool) : bitsToNat (s ++ [b]) = 2 * bitsToNat s + b.toNat := by
  simp [bitsToNat, List.foldl_append]

/-- A sequence of k bits is a number below 2^k. -/
theorem bitsToNat_lt (s : Bits) : bitsToNat s < 2 ^ s.length := by
  induction s using List.reverseRecOn with
  | nil => simp
  | append_singleton s b ih =>
    rw [bitsToNat_append_bit, List.length_append, List.length_singleton, Nat.pow_succ]
    cases b <;> simp <;> omega

/-- Bit i of the number is the sequence's bit i from its end. -/
theorem bitsToNat_testBit (s : Bits) (i : Nat) : (bitsToNat s).testBit i = (s.reverse[i]?).getD false := by
  induction s using List.reverseRecOn generalizing i with
  | nil => simp
  | append_singleton s b ih =>
    rw [bitsToNat_append_bit]
    cases i with
    | zero => cases b <;> simp
    | succ i =>
      rw [Nat.testBit_succ, show (2 * bitsToNat s + b.toNat) / 2 = bitsToNat s by cases b <;> (simp; try omega), ih]
      simp

/-- packLeft puts s[j] at bit n-1-j and zeros below. -/
theorem packLeft_getLsbD (n : Nat) (s : Bits) (hs : s.length ≤ n) (j : Nat) (hj : j < n) :
    (packLeft n s).getLsbD (n - 1 - j) = (s[j]?).getD false := by
  rw [packLeft, BitVec.getLsbD_ofNat, Nat.testBit_mul_two_pow, bitsToNat_testBit]
  have hlt : n - 1 - j < n := by omega
  by_cases h : j < s.length
  · have h1 : n - s.length ≤ n - 1 - j := by omega
    have h2 : n - 1 - j - (n - s.length) = s.length - 1 - j := by omega
    have h3 : s.length - 1 - j < s.length := by omega
    have h4 : s.length - 1 - (s.length - 1 - j) = j := by omega
    simp [hlt, h1, h2, List.getElem?_reverse h3, h4]
  · have h1 : ¬ n - s.length ≤ n - 1 - j := by omega
    have h2 : s[j]? = none := by simp; omega
    simp [h1, h2]

/-- pack puts s[j] at bit 31-j and zeros below (R11). -/
theorem pack_getLsbD (s : Bits) (hs : s.length ≤ 32) (j : Nat) (hj : j < 32) :
    (pack s).getLsbD (31 - j) = (s[j]?).getD false := packLeft_getLsbD 32 s hs j hj

@[simp] theorem unpack_length (w : Word) (n : Nat) : (unpack w n).length = n := by simp [unpack]

theorem unpack_getElem? (w : Word) (n j : Nat) (h : j < n) : (unpack w n)[j]? = some (w.getLsbD (31 - j)) := by
  simp [unpack, h]

@[simp] theorem unpack_zero (w : Word) : unpack w 0 = [] := rfl

/-- The first bit of a word, then the rest of its bits. -/
theorem unpack_succ (w : Word) (n : Nat) : unpack w (n + 1) = unpack w n ++ [w.getLsbD (31 - n)] := by
  simp [unpack, List.range_succ]

/-- Reading k bits back out of a packed sequence gives its first k bits (R11). -/
theorem unpack_pack (s : Bits) (hs : s.length ≤ 32) (k : Nat) (hk : k ≤ s.length) : unpack (pack s) k = s.take k := by
  apply List.ext_getElem?
  intro j
  by_cases h : j < k
  · rw [unpack_getElem? _ _ _ h, pack_getLsbD s hs j (by omega), List.getElem?_take]
    have hj : j < s.length := by omega
    simp [h, hj]
  · have h1 : (unpack (pack s) k)[j]? = none := by simp; omega
    rw [h1, List.getElem?_take]; simp [h]

/-! ## Flags -/

/-- setBit sets its bit and keeps the others. -/
theorem setBit_getLsbD (st : BitVec 8) (k i : Nat) (hi : i < 8) :
    (setBit st k).getLsbD i = (st.getLsbD i || decide (i = k)) := by
  simp only [setBit, BitVec.getLsbD_or, BitVec.getLsbD_ofNat, Nat.testBit_two_pow, hi, decide_true, Bool.true_and]
  congr 1
  exact decide_eq_decide.2 ⟨Eq.symm, Eq.symm⟩

/-- An acknowledgement clears the bits written as 1 and keeps the others (R94). -/
theorem ackBits_getLsbD (st : BitVec 8) (v : Word) (i : Nat) (hi : i < 8) :
    (ackBits st v).getLsbD i = (st.getLsbD i && !v.getLsbD i) := by
  simp [ackBits, hi]

/-- The line is asserted exactly while an enabled bit is set (R220). -/
theorem irq_iff (s : State) : s.irq = true ↔ ∃ i, i < 8 ∧ s.status.getLsbD i = true ∧ s.irqEn.getLsbD i = true := by
  rw [State.irq, bne_iff_ne, Ne, BitVec.eq_of_getLsbD_eq_iff]
  simp only [BitVec.getLsbD_and, BitVec.getLsbD_zero, not_forall, Bool.and_eq_false_imp, exists_prop,
    Bool.not_eq_false]

/-! ## The code table -/

/-- lookup answers the valid entry of lowest index with the symbol (R113). -/
theorem lookup_eq_some (ct : List CtEntry) (sym : Sym) (e : CtEntry) :
    lookup ct sym = some e ↔ (e.v = true ∧ e.sym = sym) ∧ ∃ as bs, ct = as ++ e :: bs ∧
      ∀ a ∈ as, ¬(a.v = true ∧ a.sym = sym) := by
  simp only [lookup, List.find?_eq_some_iff_append, Bool.and_eq_true, beq_iff_eq, Bool.not_eq_true', exists_and_right]
  simp only [← Bool.not_eq_true, Bool.and_eq_true, beq_iff_eq]

/-- lookup answers none when no valid entry has the symbol (R113). -/
theorem lookup_eq_none (ct : List CtEntry) (sym : Sym) :
    lookup ct sym = none ↔ ∀ e ∈ ct, ¬(e.v = true ∧ e.sym = sym) := by
  simp [lookup, List.find?_eq_none]

@[simp] theorem CtEntry.bits_length (e : CtEntry) : e.bits.length = e.len.toNat := by simp [CtEntry.bits]

/-! ## The walker -/

/-- What one bit can do (R133): a tree fault, a symbol, or one edge further. -/
theorem walk_cases (b : Bool) (s : State) :
    (walk b s = (rewind s, false) ∧
      (edge (nodeAt s s.cur) b = none ∨ ∃ i, edge (nodeAt s s.cur) b = some i ∧ (nodeAt s i).kind = .invalid)) ∨
    (∃ i, edge (nodeAt s s.cur) b = some i ∧ (nodeAt s i).kind = .leaf ∧
      walk b s = (rewind { s with hdQ := s.hdQ ++ [(nodeAt s i).sym] }, true)) ∨
    (∃ i, edge (nodeAt s s.cur) b = some i ∧ (nodeAt s i).kind = .internal ∧
      walk b s = ({ s with cur := i, mid := true }, true)) := by
  cases he : edge (nodeAt s s.cur) b with
  | none => exact .inl ⟨by simp [walk, he], .inl rfl⟩
  | some i =>
    cases hk : (nodeAt s i).kind with
    | invalid => exact .inl ⟨by simp [walk, he, hk], .inr ⟨i, rfl, hk⟩⟩
    | leaf => exact .inr (.inl ⟨i, rfl, hk, by simp [walk, he, hk]⟩)
    | internal => exact .inr (.inr ⟨i, rfl, hk, by simp [walk, he, hk]⟩)

@[simp] theorem walkBits_nil (n : BitVec 6) (s : State) : walkBits n [] s = s := rfl

theorem walkBits_cons_ok (n : BitVec 6) (b : Bool) (bs : Bits) (s t : State) (h : walk b s = (t, true)) :
    walkBits n (b :: bs) s = walkBits n bs t := by simp [walkBits, h]

theorem walkBits_cons_fail (n : BitVec 6) (b : Bool) (bs : Bits) (s t : State) (h : walk b s = (t, false)) :
    walkBits n (b :: bs) s = raise .tree (encodeCommand (.hdBits n)) t := by simp [walkBits, h]

/-- The edge of an INTERNAL node is a present child (R133). -/
theorem edge_eq_some (e : NodeEntry) (b : Bool) (i : NodeIdx) :
    edge e b = some i ↔ e.kind = .internal ∧
      ((b = true ∧ e.rv = true ∧ i = e.right) ∨ (b = false ∧ e.lv = true ∧ i = e.left)) := by
  cases hk : e.kind <;> cases b <;> cases hl : e.lv <;> cases hr : e.rv <;> simp [edge, hk, hl, hr, eq_comm]

/-! ## One bit to CE and to CD -/

/-- A group that stays short only grows (R151). -/
theorem cePush_short (s : State) (b : Bool) (h : s.ceG.length < 3) : cePush s b = { s with ceG := s.ceG ++ [b] } := by
  unfold cePush
  match hg : s.ceG, h with
  | [], _ => simp
  | [_], _ => simp
  | [_, _], _ => simp

/-- The fourth bit makes a block (R151). -/
theorem cePush_full (s : State) (d1 d2 d3 b : Bool) (h : s.ceG = [d1, d2, d3]) :
    cePush s b = { s with ceQ := s.ceQ ++ (henc ⟨d1, d2, d3, b⟩).bits, ceG := [] } := by
  simp [cePush, h]

/-- A partial block that stays short only grows (R171). -/
theorem cdPush_short (s : State) (b : Bool) (h : s.cdB.length < 6) : cdPush s b = { s with cdB := s.cdB ++ [b] } := by
  unfold cdPush
  match hg : s.cdB, h with
  | [], _ => rfl
  | [_], _ => rfl
  | [_, _], _ => rfl
  | [_, _, _], _ => rfl
  | [_, _, _, _], _ => rfl
  | [_, _, _, _, _], _ => rfl

/-- The seventh bit completes a block (R171). -/
theorem cdPush_full (s : State) (b1 b2 b3 b4 b5 b6 b : Bool) (h : s.cdB = [b1, b2, b3, b4, b5, b6]) :
    cdPush s b = cdBlock ⟨b1, b2, b3, b4, b5, b6, b⟩ s := by
  simp [cdPush, h]

end Sys2Proof.Machine
end

