-- ==== Sys2Proof/Laws/PerInstr.lean ====
section
/-! SUPPORT. Statements made per instruction. AlignedEncoding: the access of a well-formed instruction other than the bus
fault's row is an aligned 32-bit one (20_memory.md R53, 30_encoding.md R83). -/

namespace Sys2Proof.Laws.AlignedEncoding

/-- The access a well-formed instruction is encoded as is an aligned 32-bit one, the bus fault's row apart. -/
def Statement (i : Instr) : Prop :=
  WellFormed i = true → (∀ a, i ≠ .busError a) → (encode i).aligned32 = true

/-- Every access to a named register is aligned (R51). -/
theorem of_register (i : Instr) (r : Reg) (h : encode i = .rd r ∨ ∃ v, encode i = .wr r v) : Statement i := by
  rintro - -
  rcases h with h | ⟨v, h⟩ <;> simp [h, Access.rd, Access.wr, Access.aligned32]

theorem nop : Statement .nop := of_register _ .cmd (.inr ⟨_, rfl⟩)
theorem clear (units : BitVec 4) : Statement (.clear units) := of_register _ .cmd (.inr ⟨_, rfl⟩)
theorem ctInv : Statement .ctInv := of_register _ .cmd (.inr ⟨_, rfl⟩)
theorem ctLoad (len : BitVec 6) (idx : BitVec 10) : Statement (.ctLoad len idx) := of_register _ .cmd (.inr ⟨_, rfl⟩)
theorem heSym (sym : Sym) : Statement (.heSym sym) := of_register _ .cmd (.inr ⟨_, rfl⟩)
theorem hdRoot (idx : NodeIdx) : Statement (.hdRoot idx) := of_register _ .cmd (.inr ⟨_, rfl⟩)
theorem hdNode (idx : NodeIdx) : Statement (.hdNode idx) := of_register _ .cmd (.inr ⟨_, rfl⟩)
theorem hdBits (n : BitVec 6) : Statement (.hdBits n) := of_register _ .cmd (.inr ⟨_, rfl⟩)
theorem hdEnd : Statement .hdEnd := of_register _ .cmd (.inr ⟨_, rfl⟩)
theorem ceEnc4 (d : BitVec 4) : Statement (.ceEnc4 d) := of_register _ .cmd (.inr ⟨_, rfl⟩)
theorem ceBits (n : BitVec 6) : Statement (.ceBits n) := of_register _ .cmd (.inr ⟨_, rfl⟩)
theorem ceEnd : Statement .ceEnd := of_register _ .cmd (.inr ⟨_, rfl⟩)
theorem cdDec7 (b : BitVec 7) : Statement (.cdDec7 b) := of_register _ .cmd (.inr ⟨_, rfl⟩)
theorem cdBits (n : BitVec 6) : Statement (.cdBits n) := of_register _ .cmd (.inr ⟨_, rfl⟩)
theorem cdEnd (pad : BitVec 2) : Statement (.cdEnd pad) := of_register _ .cmd (.inr ⟨_, rfl⟩)
theorem reservedOpc (w : Word) : Statement (.reservedOpc w) := of_register _ .cmd (.inr ⟨_, rfl⟩)
theorem wrCmd (w : Word) : Statement (.wrCmd w) := of_register _ .cmd (.inr ⟨_, rfl⟩)
theorem wrArg0 (v : Word) : Statement (.wrArg0 v) := of_register _ .arg0 (.inr ⟨_, rfl⟩)
theorem wrArg1 (v : Word) : Statement (.wrArg1 v) := of_register _ .arg1 (.inr ⟨_, rfl⟩)
theorem rdArg0 : Statement .rdArg0 := of_register _ .arg0 (.inl rfl)
theorem rdArg1 : Statement .rdArg1 := of_register _ .arg1 (.inl rfl)
theorem wrStatus (v : Word) : Statement (.wrStatus v) := of_register _ .status (.inr ⟨_, rfl⟩)
theorem rdStatus : Statement .rdStatus := of_register _ .status (.inl rfl)
theorem wrIrqEn (v : Word) : Statement (.wrIrqEn v) := of_register _ .irqEn (.inr ⟨_, rfl⟩)
theorem rdIrqEn : Statement .rdIrqEn := of_register _ .irqEn (.inl rfl)
theorem rdId : Statement .rdId := of_register _ .id (.inl rfl)
theorem rdParam : Statement .rdParam := of_register _ .param (.inl rfl)
theorem rdRes : Statement .rdRes := of_register _ .res (.inl rfl)
theorem rdErrCmd : Statement .rdErrCmd := of_register _ .errCmd (.inl rfl)
theorem rdCmd : Statement .rdCmd := of_register _ .cmd (.inl rfl)
theorem rdHeLevel : Statement .rdHeLevel := of_register _ .heLevel (.inl rfl)
theorem rdHeData : Statement .rdHeData := of_register _ .heData (.inl rfl)
theorem rdHeCount : Statement .rdHeCount := of_register _ .heCount (.inl rfl)
theorem rdHdLevel : Statement .rdHdLevel := of_register _ .hdLevel (.inl rfl)
theorem rdHdData : Statement .rdHdData := of_register _ .hdData (.inl rfl)
theorem rdHdWalk : Statement .rdHdWalk := of_register _ .hdWalk (.inl rfl)
theorem rdCeLevel : Statement .rdCeLevel := of_register _ .ceLevel (.inl rfl)
theorem rdCeData : Statement .rdCeData := of_register _ .ceData (.inl rfl)
theorem rdCeState : Statement .rdCeState := of_register _ .ceState (.inl rfl)
theorem rdCdLevel : Statement .rdCdLevel := of_register _ .cdLevel (.inl rfl)
theorem rdCdData : Statement .rdCdData := of_register _ .cdData (.inl rfl)
theorem rdCdState : Statement .rdCdState := of_register _ .cdState (.inl rfl)
theorem rdCdNcorr : Statement .rdCdNcorr := of_register _ .cdNcorr (.inl rfl)
theorem wrReadOnly (r : Reg) (v : Word) : Statement (.wrReadOnly r v) := of_register _ r (.inr ⟨v, rfl⟩)
theorem reservedOffset (dir : Dir) (off : Offset) : Statement (.reservedOffset dir off) := by
  intro h _
  cases dir <;> simp_all [WellFormed, encode, Access.aligned32]
theorem busError (a : Access) : Statement (.busError a) := fun _ h => absurd rfl (h a)

end Sys2Proof.Laws.AlignedEncoding
end

