-- ==== Sys2Proof/Laws/Step.lean ====
section
/-! SUPPORT. What a step can do, said once. -/

namespace Sys2Proof.Machine

/-- Everything a step that answers a next state can have done (R16, R61, R240). -/
theorem step_cases {s t : State} (h : step s = .next t) :
    (s.port = [] ∧ t = s) ∨
    (∃ a rest, s.port = .access a :: rest ∧ exec (decode a) { s with port := rest } = .next t) ∨
    (∃ rest, s.port = .reset :: rest ∧ t = hardReset { s with port := rest }) := by
  unfold step at h
  split at h
  · next hp => exact .inl ⟨hp, by simpa using h.symm⟩
  · next a rest hp => exact .inr (.inl ⟨a, rest, hp, h⟩)
  · next rest hp => exact .inr (.inr ⟨rest, hp, by simpa using h.symm⟩)

/-- Two next answers of one meaning are the same state. -/
theorem next_inj {s t : State} : (Host.Outcome.next s : Result) = .next t ↔ s = t := by simp

end Sys2Proof.Machine
end

