-- ==== Sys2Proof/Laws/Streams.lean ====
section
/-! SUPPORT. What the loops of HD.BITS, CE.BITS and CD.BITS do to a whole run of bits, and what a command word that is no
command does. -/

namespace Sys2Proof.Machine

/-! ## HD.BITS -/

/-- One bit touches the symbol queue and the walker only (R133). -/
theorem walk_frame (b : Bool) (s : State) : ∃ q c m, (walk b s).1 = { s with hdQ := q, cur := c, mid := m } := by
  rcases walk_cases b s with ⟨h, -⟩ | ⟨i, -, -, h⟩ | ⟨i, -, -, h⟩
  · exact ⟨s.hdQ, s.root, false, by rw [h]; rfl⟩
  · exact ⟨s.hdQ ++ [(nodeAt s i).sym], s.root, false, by rw [h]; rfl⟩
  · exact ⟨s.hdQ, i, true, by rw [h]⟩

/-- The loop of HD.BITS touches the symbol queue and the walker, and may raise TREE at its end (R132). -/
theorem walkBits_frame (n : BitVec 6) (bs : Bits) (s : State) : ∃ q c m,
    walkBits n bs s = { s with hdQ := q, cur := c, mid := m } ∨
    walkBits n bs s = raise .tree (encodeCommand (.hdBits n)) { s with hdQ := q, cur := c, mid := m } := by
  induction bs generalizing s with
  | nil => exact ⟨s.hdQ, s.cur, s.mid, .inl rfl⟩
  | cons b bs ih =>
    obtain ⟨q, c, m, hf⟩ := walk_frame b s
    rcases hw : walk b s with ⟨t, ok⟩
    rw [hw] at hf
    subst hf
    cases ok
    · exact ⟨q, c, m, .inr (walkBits_cons_fail n b bs s _ hw)⟩
    · rw [walkBits_cons_ok n b bs s _ hw]
      exact ih _

/-! ## CE.BITS -/

@[simp] theorem encodeGroups_group (d1 d2 d3 d4 : Bool) (bs : Bits) :
    encodeGroups (d1 :: d2 :: d3 :: d4 :: bs) = (henc ⟨d1, d2, d3, d4⟩).bits ++ encodeGroups bs := rfl

theorem encodeGroups_short (bs : Bits) (h : bs.length < 4) : encodeGroups bs = [] := by
  match bs, h with
  | [], _ => rfl
  | [_], _ => rfl
  | [_, _], _ => rfl
  | [_, _, _], _ => rfl

/-- The loop of CE.BITS (R151): the blocks of the complete groups, then the bits left over. -/
theorem foldl_cePush (bs : Bits) (s : State) (h : s.ceG.length ≤ 3) :
    bs.foldl cePush s = { s with
      ceQ := s.ceQ ++ encodeGroups (s.ceG ++ bs)
      ceG := (s.ceG ++ bs).drop (4 * ((s.ceG.length + bs.length) / 4)) } := by
  induction bs generalizing s with
  | nil =>
    rw [List.append_nil, encodeGroups_short _ (by omega), List.length_nil,
      show 4 * ((s.ceG.length + 0) / 4) = 0 by omega]
    simp
  | cons b bs ih =>
    rw [List.foldl_cons]
    by_cases hs : s.ceG.length < 3
    · rw [cePush_short s b hs, ih _ (by simp; omega)]
      simp [Nat.add_assoc, Nat.add_comm 1]
    · obtain ⟨d1, d2, d3, hg⟩ := List.length_eq_three.1 (show s.ceG.length = 3 by omega)
      rw [cePush_full s d1 d2 d3 b hg, ih _ (by simp)]
      simp [hg, show 4 * ((3 + (bs.length + 1)) / 4) = 4 * (bs.length / 4) + 4 by omega]

/-- The loop of CE.BITS touches the group and the coded bits only. -/
theorem foldl_cePush_frame (bs : Bits) (s : State) : ∃ q g, bs.foldl cePush s = { s with ceQ := q, ceG := g } := by
  induction bs generalizing s with
  | nil => exact ⟨s.ceQ, s.ceG, rfl⟩
  | cons b bs ih =>
    obtain ⟨q, g, h⟩ : ∃ q g, cePush s b = { s with ceQ := q, ceG := g } := by
      unfold cePush; split <;> exact ⟨_, _, rfl⟩
    rw [List.foldl_cons, h]
    exact ih _

/-! ## CD.BITS -/

@[simp] theorem blocksOf_block (b1 b2 b3 b4 b5 b6 b7 : Bool) (bs : Bits) :
    blocksOf (b1 :: b2 :: b3 :: b4 :: b5 :: b6 :: b7 :: bs) = ⟨b1, b2, b3, b4, b5, b6, b7⟩ :: blocksOf bs := rfl

theorem blocksOf_short (bs : Bits) (h : bs.length < 7) : blocksOf bs = [] := by
  match bs, h with
  | [], _ => rfl
  | [_], _ => rfl
  | [_, _], _ => rfl
  | [_, _, _], _ => rfl
  | [_, _, _, _], _ => rfl
  | [_, _, _, _, _], _ => rfl
  | [_, _, _, _, _, _], _ => rfl

theorem six_bits (p : Bits) (h : p.length = 6) : ∃ b1 b2 b3 b4 b5 b6, p = [b1, b2, b3, b4, b5, b6] := by
  match p, h with
  | [b1, b2, b3, b4, b5, b6], _ => exact ⟨b1, b2, b3, b4, b5, b6, rfl⟩

/-- A completed block empties the partial block, whatever it was (R171). -/
theorem foldl_cdBlock_cdB (bs : List Block) (s : State) (p r : Bits) :
    { bs.foldl (fun s b => cdBlock b s) { s with cdB := p } with cdB := r } =
      { bs.foldl (fun s b => cdBlock b s) s with cdB := r } := by
  cases bs <;> rfl

/-- The loop of CD.BITS (R171): the complete blocks one after another, then the bits left over. -/
theorem foldl_cdPush (bs : Bits) (s : State) (h : s.cdB.length ≤ 6) :
    bs.foldl cdPush s = { (blocksOf (s.cdB ++ bs)).foldl (fun s b => cdBlock b s) s with
      cdB := (s.cdB ++ bs).drop (7 * ((s.cdB.length + bs.length) / 7)) } := by
  induction bs generalizing s with
  | nil =>
    rw [List.append_nil, blocksOf_short _ (by omega), List.length_nil,
      show 7 * ((s.cdB.length + 0) / 7) = 0 by omega]
    simp
  | cons b bs ih =>
    rw [List.foldl_cons]
    by_cases hs : s.cdB.length < 6
    · rw [cdPush_short s b hs, ih _ (by simp; omega)]
      rw [foldl_cdBlock_cdB]
      simp [Nat.add_assoc, Nat.add_comm 1]
    · obtain ⟨b1, b2, b3, b4, b5, b6, hg⟩ := six_bits s.cdB (by omega)
      rw [cdPush_full s b1 b2 b3 b4 b5 b6 b hg, ih _ (by simp)]
      simp [hg, show 7 * ((6 + (bs.length + 1)) / 7) = 7 * (bs.length / 7) + 7 by omega]

/-- The loop of CD.BITS touches CD's stream state only. -/
theorem foldl_cdPush_frame (bs : Bits) (s : State) : ∃ q p hold syn n,
    bs.foldl cdPush s = { s with cdQ := q, cdB := p, cdHold := hold, cdSyn := syn, cdNcorr := n } := by
  induction bs generalizing s with
  | nil => exact ⟨s.cdQ, s.cdB, s.cdHold, s.cdSyn, s.cdNcorr, rfl⟩
  | cons b bs ih =>
    obtain ⟨q, p, hold, syn, n, h⟩ : ∃ q p hold syn n,
        cdPush s b = { s with cdQ := q, cdB := p, cdHold := hold, cdSyn := syn, cdNcorr := n } := by
      unfold cdPush; split <;> exact ⟨_, _, _, _, _, rfl⟩
    rw [List.foldl_cons, h]
    exact ih _

/-! ## Command words -/

/-- A word with a bit outside its format's field mask is no command (R78). -/
theorem decodeCommand_reservedBit (w : Word) (f : Format) (hf : formatOf (opcOf w) = some f)
    (h : reservedBitSet f w = true) (c : Command) : decodeCommand w ≠ .ok c := by
  unfold decodeCommand
  rw [hf]
  cases commandOf w <;> simp [h]

/-- wr CMD of a word that is no command (R26, R78). -/
theorem execWrCmd_of_wellFormed (w : Word) (s : State) (f : Format) (hf : formatOf (opcOf w) = some f)
    (h : reservedBitSet f w = true) : execWrCmd w s = .next (raise .badCmd w s) := by
  unfold execWrCmd
  cases hd : decodeCommand w with
  | ok c => exact absurd hd (decodeCommand_reservedBit w f hf h c)
  | error e => rfl

end Sys2Proof.Machine
end

