-- ==== Sys2Proof/Machine/AssemblerText.lean ====
section
/-! DEFINITION. The text of a host program's lines, read into the lines of Assembler.lean (30_encoding.md R83 to R85). The
text never reaches the block. What the rules leave open about it is in log 27. -/

namespace Sys2Proof.Machine

/-! ## Tokens -/

/-- A token of a line. -/
inductive Tok where
  /-- A mnemonic, a register name or a number. -/
  | word (w : String)
  /-- A quoted character such as 'a' (R83). -/
  | char (c : Char)
  /-- A quoted bit string such as "0001" (00_scope.md R11). -/
  | bits (s : Bits)
  | comma
deriving DecidableEq, Repr

/-- Where the reader of a line stands: in a word, its letters last first, or in a bit string, its bits last first. -/
inductive Reading where
  | word (letters : List Char)
  | bits (read : Bits)
deriving DecidableEq, Repr

/-- A word read so far, as a token ahead of others; nothing for no letters. -/
def flushWord (letters : List Char) (toks : List Tok) : List Tok :=
  if letters = [] then toks else .word (String.ofList letters.reverse) :: toks

/-- The tokens of a line. A `;` outside quotes starts a comment, blanks separate words (R83). -/
def tokens : List Char → Reading → Option (List Tok)
  | [], .word w => some (flushWord w [])
  | [], .bits _ => none
  | '0' :: cs, .bits bs => tokens cs (.bits (false :: bs))
  | '1' :: cs, .bits bs => tokens cs (.bits (true :: bs))
  | '"' :: cs, .bits bs => (tokens cs (.word [])).map (.bits bs.reverse :: ·)
  | _ :: _, .bits _ => none
  | ';' :: _, .word w => some (flushWord w [])
  | '\'' :: c :: '\'' :: cs, .word w => (tokens cs (.word [])).map fun ts => flushWord w (.char c :: ts)
  | '"' :: cs, .word w => (tokens cs (.bits [])).map (flushWord w)
  | ',' :: cs, .word w => (tokens cs (.word [])).map fun ts => flushWord w (.comma :: ts)
  | ' ' :: cs, .word w => (tokens cs (.word [])).map (flushWord w)
  | c :: cs, .word w => tokens cs (.word (c :: w))

/-! ## Operands -/

/-- The value of a digit in base 16. -/
def digitOf (c : Char) : Option Nat :=
  if '0' ≤ c ∧ c ≤ '9' then some (c.toNat - '0'.toNat)
  else if 'a' ≤ c ∧ c ≤ 'f' then some (c.toNat - 'a'.toNat + 10)
  else if 'A' ≤ c ∧ c ≤ 'F' then some (c.toNat - 'A'.toNat + 10)
  else none

/-- Digits in a base, after a value already read. -/
def digitsFrom (base : Nat) : Nat → List Char → Option Nat
  | v, [] => some v
  | v, c :: cs =>
    match digitOf c with
    | some d => if d < base then digitsFrom base (base * v + d) cs else none
    | none => none

/-- At least one digit in a base. -/
def digits (base : Nat) (cs : List Char) : Option Nat := if cs = [] then none else digitsFrom base 0 cs

/-- A number: decimal, `0x` hexadecimal or `0b` binary (R83). -/
def number : List Char → Option Nat
  | '0' :: 'x' :: cs => digits 16 cs
  | '0' :: 'b' :: cs => digits 2 cs
  | cs => digits 10 cs

/-- An operand with a value: a number, or a quoted character, which stands for its code point (R83). -/
def value : Tok → Option Nat
  | .word w => number w.toList
  | .char c => some c.toNat
  | .bits _ | .comma => none

/-- A child of `hd.internal`, `-` for absent (R85). -/
def childOperand : Tok → Option (Option Nat)
  | .word "-" => some none
  | t => (value t).map some

/-- The mask of a unit name in CLEAR's list (R84, R72 format U). -/
def unitMask : List Char → Option Nat
  | ['H', 'E'] => some 1
  | ['H', 'D'] => some 2
  | ['C', 'E'] => some 4
  | ['C', 'D'] => some 8
  | _ => none

/-- The union of the masks of a list of unit names joined by `|`, the name being read last first (R84). -/
def unitList : List Char → List Char → Option Nat
  | [], name => unitMask name.reverse
  | '|' :: cs, name =>
    match unitMask name.reverse, unitList cs [] with
    | some m, some n => some (m ||| n)
    | _, _ => none
  | c :: cs, name => unitList cs (c :: name)

/-- CLEAR's operand: a 4-bit mask, or a list of units (R84). -/
def unitsOperand : Tok → Option Nat
  | .word w => (unitList w.toList []).or (number w.toList)
  | .char _ | .bits _ | .comma => none

/-- The register names of R51. -/
def regNamed : String → Option Reg
  | "ID" => some .id
  | "PARAM" => some .param
  | "STATUS" => some .status
  | "CMD" => some .cmd
  | "ARG0" => some .arg0
  | "ARG1" => some .arg1
  | "RES" => some .res
  | "IRQ_EN" => some .irqEn
  | "ERR_CMD" => some .errCmd
  | "HE_LEVEL" => some .heLevel
  | "HE_DATA" => some .heData
  | "HE_COUNT" => some .heCount
  | "HD_LEVEL" => some .hdLevel
  | "HD_DATA" => some .hdData
  | "HD_WALK" => some .hdWalk
  | "CE_LEVEL" => some .ceLevel
  | "CE_DATA" => some .ceData
  | "CE_STATE" => some .ceState
  | "CD_LEVEL" => some .cdLevel
  | "CD_DATA" => some .cdData
  | "CD_STATE" => some .cdState
  | "CD_NCORR" => some .cdNcorr
  | _ => none

/-! ## Lines -/

/-- A command mnemonic with no operand (R84). -/
def plainLine : String → Option Line
  | "NOP" => some .nop
  | "CT.INV" => some .ctInv
  | "HD.END" => some .hdEnd
  | "CE.END" => some .ceEnd
  | _ => none

/-- A line with one operand (R83 to R85). -/
def unaryLine : String → Tok → Option Line
  | "rd", .word r => (regNamed r).map .rd
  | "CLEAR", t => (unitsOperand t).map .clear
  | "HE.SYM", t => (value t).map .heSym
  | "HD.ROOT", t => (value t).map .hdRoot
  | "HD.NODE", t => (value t).map .hdNode
  | "HD.BITS", t => (value t).map .hdBits
  | "CE.ENC4", t => (value t).map .ceEnc4
  | "CE.BITS", t => (value t).map .ceBits
  | "CD.DEC7", t => (value t).map .cdDec7
  | "CD.BITS", t => (value t).map .cdBits
  | "CD.END", t => (value t).map .cdEnd
  | "hd.push", .bits s => some (.hdPush s)
  | "ce.push", .bits s => some (.cePush s)
  | "cd.push", .bits s => some (.cdPush s)
  | "ack", t => (value t).map .ack
  | _, _ => none

/-- A line with two operands (R83 to R85). -/
def binaryLine : String → Tok → Tok → Option Line
  | "wr", .word r, t => do return .wr (← regNamed r) (← value t)
  | "CT.LOAD", t, u => do return .ctLoad (← value t) (← value u)
  | "hd.leaf", t, u => do return .hdLeaf (← value t) (← value u)
  | _, _, _ => none

/-- A line with three operands (R85). -/
def ternaryLine : String → Tok → Tok → Tok → Option Line
  | "ct.entry", t, u, .bits s => do return .ctEntry (← value t) (← value u) s
  | "hd.internal", t, u, v => do return .hdInternal (← value t) (← childOperand u) (← childOperand v)
  | _, _, _, _ => none

/-- The line some tokens are; `rd REG -> v` is the line `rd REG` with a recorded value (R83). -/
def lineOf : List Tok → Option Line
  | [.word m] => plainLine m
  | [.word m, t] => unaryLine m t
  | [.word m, t, .comma, u] => binaryLine m t u
  | [.word m, t, .comma, u, .comma, v] => ternaryLine m t u v
  | [.word "rd", t, .word "->", _] => unaryLine "rd" t
  | _ => none

/-- The lines of a program's text, one access or pseudo-instruction a line; a line of nothing but a comment or blanks is
none of them. None if a line is no line of R83 to R85. -/
def parse : List String → Option (List Line)
  | [] => some []
  | text :: texts =>
    match tokens text.toList (.word []), parse texts with
    | some [], some ls => some ls
    | some ts, some ls => (lineOf ts).map (· :: ls)
    | _, _ => none

/-- The accesses of a program's text, in order; none for an assembly error. -/
def assembleText (texts : List String) : Option (List Access) := (parse texts).bind assembleAll

end Sys2Proof.Machine
end

