-- ==== Sys2Proof/Tests/Slice0.lean ====
section
/-! SUPPORT. The model's own tests: words and offsets decoded by hand from the tables of 20_memory.md and 30_encoding.md,
ill-formed terms, single accesses with the results of 95_test_vectors.md or worked out from the rules, and for every
statement with hypotheses a state that meets them (witness_…). -/

open Sys2Proof Sys2Proof.Machine

namespace Sys2Proof.Tests

/-! ## Small instances -/

/-- An instance with two code-table entries, four nodes, codes of at most 8 bits and the smallest queues of R8. -/
def tiny : Params := { symIdxW := 1, nodeW := 2, lMax := 8, qCapLog2 := 6, sqCapLog2 := 5 }

def s0 : State := State.resetOf tiny

/-- 'a' and 'b' (95_test_vectors.md). -/
def symA : Sym := 0x61
def symB : Sym := 0x62

/-- The two-symbol table of "aaab" (L1.1): a = "0", b = "1", and its tree. -/
def aaab : State := { s0 with
  ct := [{ v := true, sym := symA, len := 1, code := 0 }, { v := true, sym := symB, len := 1, code := 1 }]
  node := [{ kind := .internal, lv := true, rv := true, left := 1, right := 2, sym := 0 },
    { kind := .leaf, lv := false, rv := false, left := 0, right := 0, sym := symA },
    { kind := .leaf, lv := false, rv := false, left := 0, right := 0, sym := symB }, NodeEntry.atReset] }

/-- n zero bits. -/
def zeros (n : Nat) : Bits := List.replicate n false

/-- The state after an access that completes. -/
def after (i : Instr) (s : State) : State :=
  match exec i s with
  | .next t => t
  | .fault _ => s
  | .refused _ => s

/-- The last word returned. -/
def got (i : Instr) (s : State) : Word := (after i s).reads.getLastD 0

/-! ## Decoding: words written out from R72, R76, offsets from R51 -/

/-- OPC 00000, the rest 0. -/
theorem test_decode_nop : decodeTableWord 32 0b00000_000000000000000000000000000 = some .nop := by decide
/-- OPC 00001, UNITS in [3:0]. -/
theorem test_decode_clear : decodeTableWord 32 0b00001_00000000000000000000000_1010 = some (.clear 0b1010#4) := by decide
/-- OPC 00010. -/
theorem test_decode_ctInv : decodeTableWord 32 0b00010_000000000000000000000000000 = some .ctInv := by decide
/-- OPC 00011, LEN in [21:16], IDX in [9:0]. -/
theorem test_decode_ctLoad :
    decodeTableWord 32 0b00011_00000_100001_000000_1000000001 = some (.ctLoad 33#6 513#10) := by decide
/-- OPC 00100, SYM in [20:0]. -/
theorem test_decode_heSym :
    decodeTableWord 32 0b00100_000000_100000000000000000011 = some (.heSym 0x100003#21) := by decide
/-- OPC 00101, IDX in [10:0]. -/
theorem test_decode_hdRoot : decodeTableWord 32 0b00101_0000000000000000_10000000001 = some (.hdRoot 1025#11) := by decide
/-- OPC 00110, IDX in [10:0]. -/
theorem test_decode_hdNode : decodeTableWord 32 0b00110_0000000000000000_11000000000 = some (.hdNode 1536#11) := by decide
/-- OPC 00111, N in [5:0]; N = 63 is a well-formed word (R73). -/
theorem test_decode_hdBits : decodeTableWord 32 0b00111_000000000000000000000_111111 = some (.hdBits 63#6) := by decide
/-- OPC 01000. -/
theorem test_decode_hdEnd : decodeTableWord 32 0b01000_000000000000000000000000000 = some .hdEnd := by decide
/-- OPC 01001, D in [3:0]. -/
theorem test_decode_ceEnc4 : decodeTableWord 32 0b01001_00000000000000000000000_1000 = some (.ceEnc4 8#4) := by decide
/-- OPC 01010, N in [5:0]. -/
theorem test_decode_ceBits : decodeTableWord 32 0b01010_000000000000000000000_100000 = some (.ceBits 32#6) := by decide
/-- OPC 01011. -/
theorem test_decode_ceEnd : decodeTableWord 32 0b01011_000000000000000000000000000 = some .ceEnd := by decide
/-- OPC 01100, B in [6:0]. -/
theorem test_decode_cdDec7 : decodeTableWord 32 0b01100_00000000000000000000_0101001 = some (.cdDec7 0x29#7) := by decide
/-- OPC 01101, N in [5:0]. -/
theorem test_decode_cdBits : decodeTableWord 32 0b01101_000000000000000000000_000111 = some (.cdBits 7#6) := by decide
/-- OPC 01110, PAD in [1:0]. -/
theorem test_decode_cdEnd : decodeTableWord 32 0b01110_0000000000000000000000000_11 = some (.cdEnd 3#2) := by decide
/-- OPC 01111, the first reserved one, and 11111, the last, any bits below (R77). -/
theorem test_decode_reservedOpc :
    decodeTableWord 32 0b01111_000000000000000000000000001 = some (.reservedOpc 0x78000001#32) ∧
    decodeTableWord 32 0xF8000000 = some (.reservedOpc 0xF8000000#32) := by decide
/-- A defined opcode with a bit outside its fields (R78): CT.LOAD with bit 22, bit 15; HE.SYM with bit 21. -/
theorem test_decode_wrCmd :
    decodeTableWord 32 0x18410000 = some (.wrCmd 0x18410000#32) ∧
    decodeTableWord 32 0x18018000 = some (.wrCmd 0x18018000#32) ∧
    decodeTableWord 32 0x20200000 = some (.wrCmd 0x20200000#32) := by decide
theorem test_decode_writes :
    decode (.write 32 0x08#8 5#32) = .wrStatus 5#32 ∧ decode (.write 32 0x10#8 5#32) = .wrArg0 5#32 ∧
    decode (.write 32 0x14#8 5#32) = .wrArg1 5#32 ∧ decode (.write 32 0x1C#8 5#32) = .wrIrqEn 5#32 ∧
    decode (.write 32 0x0C#8 0x4800000F#32) = .ceEnc4 15#4 ∧
    decode (.write 32 0x00#8 5#32) = .wrReadOnly .id 5#32 ∧ decode (.write 32 0x34#8 5#32) = .wrReadOnly .hdData 5#32 ∧
    decode (.write 32 0x58#8 5#32) = .reservedOffset (.write 5#32) 0x58#8 := by decide
theorem test_decode_general_reads :
    decode (.read 32 0x00#8) = .rdId ∧ decode (.read 32 0x04#8) = .rdParam ∧ decode (.read 32 0x08#8) = .rdStatus ∧
    decode (.read 32 0x0C#8) = .rdCmd ∧ decode (.read 32 0x10#8) = .rdArg0 ∧ decode (.read 32 0x14#8) = .rdArg1 ∧
    decode (.read 32 0x18#8) = .rdRes ∧ decode (.read 32 0x1C#8) = .rdIrqEn ∧ decode (.read 32 0x20#8) = .rdErrCmd ∧
    decode (.read 32 0xFC#8) = .reservedOffset .read 0xFC#8 := by decide
theorem test_decode_unit_reads :
    decode (.read 32 0x24#8) = .rdHeLevel ∧ decode (.read 32 0x28#8) = .rdHeData ∧
    decode (.read 32 0x2C#8) = .rdHeCount ∧ decode (.read 32 0x30#8) = .rdHdLevel ∧
    decode (.read 32 0x34#8) = .rdHdData ∧ decode (.read 32 0x38#8) = .rdHdWalk ∧
    decode (.read 32 0x3C#8) = .rdCeLevel ∧ decode (.read 32 0x40#8) = .rdCeData ∧
    decode (.read 32 0x44#8) = .rdCeState ∧ decode (.read 32 0x48#8) = .rdCdLevel ∧
    decode (.read 32 0x4C#8) = .rdCdData ∧ decode (.read 32 0x50#8) = .rdCdState ∧
    decode (.read 32 0x54#8) = .rdCdNcorr := by decide
/-- An 8-bit row of the table is an offset, read (log 11). -/
theorem test_decode_offset_row : decodeTableWord 8 0x2C = some .rdHeCount ∧ decodeTableWord 8 0x58 =
    some (.reservedOffset .read 0x58#8) := by decide
/-- A 16-bit access, a misaligned one, and an access to a reserved offset that is both: the bus fault comes first. -/
theorem test_decode_busError :
    decode (.read 16 0x28#8) = .busError (.read 16 0x28#8) ∧ decode (.read 32 0x2A#8) = .busError (.read 32 0x2A#8) ∧
    decode (.write 8 0x59#8 1#32) = .busError (.write 8 0x59#8 1#32) := by decide
/-- The lines of R85's examples: hd.internal 0, 1, 2 and an absent child. -/
theorem test_assemble_internal :
    assemble (.hdInternal 0 (some 1) (some 2)) = some [.wr .arg0 0x70000802#32, .wr .cmd 0x30000000#32] ∧
    assemble (.hdInternal 1 (some 2) none) = some [.wr .arg0 0x60001000#32, .wr .cmd 0x30000001#32] := by decide
/-- V30's second push. -/
theorem test_assemble_push :
    assemble (.cePush [false, true, true, true, true]) = some [.wr .arg0 0x78000000#32, .wr .cmd 0x50000005#32] ∧
    assemble (.cePush []) = none := by decide

/-- The same lines as text, and lines of V5 and V12. -/
theorem test_text :
    assembleText ["hd.internal 0, 1, 2  ; the root"] = some [.wr .arg0 0x70000802#32, .wr .cmd 0x30000000#32] ∧
    assembleText ["; ack", "HE.SYM 'A'", "rd STATUS -> 0x80000044"] = some [.wr .cmd 0x20000041#32, .rd .status] := by
  decide
theorem test_text_entry : assembleText ["ct.entry 5, 'x', \"11\""] =
    some [.wr .arg0 0x00000003#32, .wr .arg1 0x00000078#32, .wr .cmd 0x18020005#32] := by decide
/-- CLEAR's two operand forms, and an operand that does not fit its field (R84). -/
theorem test_text_clear : assembleText ["CLEAR CE"] = some [.wr .cmd 0x08000004#32] ∧
    assembleText ["CLEAR HE|CD"] = some [.wr .cmd 0x08000009#32] ∧ assembleText ["CLEAR 16"] = none := by decide

/-! ## Well-formedness: an ill-formed term for each check -/

theorem test_illformed_reservedOpc : WellFormed (.reservedOpc 0x70000000#32) = false := by decide
theorem test_illformed_wrCmd_command : WellFormed (.wrCmd 0x70000003#32) = false := by decide
theorem test_illformed_wrCmd_reserved : WellFormed (.wrCmd 0x78000000#32) = false := by decide
theorem test_illformed_wrReadOnly : WellFormed (.wrReadOnly .status 0#32) = false := by decide
theorem test_illformed_reservedOffset_register : WellFormed (.reservedOffset .read 0x54#8) = false := by decide
theorem test_illformed_reservedOffset_misaligned : WellFormed (.reservedOffset .read 0x59#8) = false := by decide
theorem test_illformed_busError : WellFormed (.busError (.read 32 0x58#8)) = false := by decide

/-! ## Single accesses -/

/-- V1. -/
theorem test_nop_reserved_bit : (after (.wrCmd 1#32) s0).status = 1#8 ∧ (after (.wrCmd 1#32) s0).errCmd = 1#32 := by decide
/-- V2. -/
theorem test_reservedOpc : (after (.reservedOpc 0xF8000000#32) s0).errCmd = 0xF8000000#32 := by decide
/-- V3: the first error is kept. -/
theorem test_first_error : (after (.reservedOpc 0x78000001#32) { s0 with status := 1, errCmd := 0x78000000#32 }).errCmd =
    0x78000000#32 := by decide
/-- V4: UNDERRUN neither captures nor blocks a capture. -/
theorem test_underrun_no_capture : (after .rdHeData s0).status = 0x40#8 ∧ (after .rdHeData s0).errCmd = 0#32 ∧
    (after (.wrCmd 0x58000001#32) { s0 with status := 0x40 }).errCmd = 0x58000001#32 := by decide
/-- V5: acknowledging one bit leaves the other; ANYERR is bit 31. -/
theorem test_ack : got .rdStatus (after (.wrStatus 4#32) { s0 with status := 0x44 }) = 0x80000040#32 := by decide
/-- TRUNC alone is no ANYERR (R25). -/
theorem test_trunc_no_anyerr : got .rdStatus { s0 with status := 0x80 } = 0x00000080#32 := by decide
/-- V6: CE_STATE with "101" held, then CLEAR 0 and CLEAR 0xF. -/
theorem test_clear :
    got .rdCeState (after (.clear 0#4) { s0 with ceG := [true, false, true] }) = 0x00000A30#32 ∧
    got .rdCeState (after (.clear 0xF#4) { s0 with ceG := [true, false, true], cePad := 2 }) = 0#32 := by decide
/-- R91: CLEAR of HD puts the cursor back on root and keeps root. -/
theorem test_clear_hd : got .rdHdWalk (after (.clear 2#4) { s0 with root := 3, cur := 1, mid := true }) =
    0x00030003#32 := by decide
/-- V7. -/
theorem test_identification : got .rdId State.reset = 0x48484301#32 ∧ got .rdParam State.reset = 0x00582098#32 ∧
    got .rdCmd { s0 with arg0 := 7 } = 0#32 := by decide
/-- V8. -/
theorem test_irq : got .rdIrqEn (after (.wrIrqEn 0xFFFFFFFF#32) s0) = 0xFF#32 ∧
    State.irq { s0 with status := 0x40, irqEn := 0xFF } = true ∧
    State.irq { s0 with status := 0x40, irqEn := 0x80 } = false := by decide
/-- R92, R93. -/
theorem test_args : got .rdArg0 (after (.wrArg0 0xDEADBEEF#32) s0) = 0xDEADBEEF#32 ∧
    got .rdArg1 (after (.wrArg1 0x12345678#32) s0) = 0x12345678#32 := by decide
/-- V10, for N_SYM = 2 and L_MAX = 8: index 2, lengths 0 and 9 are BADARG. -/
theorem test_ctLoad_badArg : (after (.ctLoad 1#6 2#10) s0).status = 2#8 ∧ (after (.ctLoad 0#6 0#10) s0).status = 2#8 ∧
    (after (.ctLoad 9#6 0#10) s0).status = 2#8 := by decide
/-- V11's second entry: the bits of ARG0 above LEN-1 are dropped. -/
theorem test_ctLoad_mask : (after (.ctLoad 3#6 1#10) { s0 with arg0 := 0xFFFFFFFD#32, arg1 := 2#32 }).ct[1]? =
    some { v := true, sym := 2, len := 3, code := 5 } := by decide
/-- V12: the lowest valid index wins. -/
theorem test_heSym_lowest : (after (.heSym symA) { aaab with ct := [{ v := true, sym := symA, len := 1, code := 0 },
    { v := true, sym := symA, len := 2, code := 3 }] }).heQ = [false] := by decide
/-- R30: code[len-1] is sent first. -/
theorem test_heSym_order : (after (.heSym symA) { aaab with ct := [{ v := true, sym := symA, len := 3, code := 4 }] }).heQ =
    [true, false, false] := by decide
/-- V12: after CT.INV no symbol is known. -/
theorem test_ctInv : (after (.heSym symB) (after .ctInv aaab)).status = 4#8 := by decide
/-- V20, for N_NODE = 4. -/
theorem test_hdRoot : (after (.hdRoot 4#11) s0).status = 2#8 ∧ got .rdHdWalk (after (.hdRoot 3#11) s0) = 0x00030003#32 := by
  decide
/-- V21, for N_NODE = 4: KIND 3, a present child 4, an absent child 0x7FF. -/
theorem test_hdNode : (after (.hdNode 0#11) { s0 with arg0 := 0xC0000000#32 }).status = 2#8 ∧
    (after (.hdNode 0#11) { s0 with arg0 := 0x60002000#32 }).status = 2#8 ∧
    (after (.hdNode 0#11) { s0 with arg0 := 0x400007FF#32 }).status = 0#8 := by decide
/-- V22. -/
theorem test_hdBits_badArg : (after (.hdBits 0#6) s0).status = 2#8 ∧ (after (.hdBits 33#6) s0).status = 2#8 := by decide
/-- P1: "0001" walks to a, a, a, b. -/
theorem test_hdBits : (after (.hdBits 4#6) { aaab with arg0 := 0x10000000#32 }).hdQ = [symA, symA, symA, symB] := by decide
/-- A path cut off sets TRUNC, and captures nothing (R134). -/
theorem test_hdEnd : (after .hdEnd { s0 with cur := 1, mid := true }).status = 0x80#8 ∧
    (after .hdEnd { s0 with cur := 1, mid := true }).errCmd = 0#32 := by decide
/-- L2.4a: rows 0001 and 1000. -/
theorem test_ceEnc4 : (after (.ceEnc4 1#4) s0).res = 0x69#32 ∧ (after (.ceEnc4 8#4) s0).res = 0x70#32 := by decide
/-- V30: "100" then "01111" are the blocks of 1000 and 1111. -/
theorem test_ceBits : got .rdCeData (after (.ceBits 5#6) { s0 with ceG := [true, false, false], arg0 := 0x78000000#32 }) =
    0xE1FC0000#32 := by decide
/-- One bit held: padded to 1000, pad count 3 (R152). -/
theorem test_ceEnd : (after .ceEnd { s0 with ceG := [true] }).cePad = 3#2 ∧
    (after .ceEnd { s0 with ceG := [true] }).ceQ = [true, true, true, false, false, false, false] := by decide
/-- The hand-checked words 0x29, 0x03 and 0x7F. -/
theorem test_cdDec7 : (after (.cdDec7 0x29#7) s0).res = 0x1691#32 ∧ (after (.cdDec7 0x03#7) s0).res = 0x1433#32 ∧
    (after (.cdDec7 0x7F#7) s0).res = 0x07FF#32 := by decide
/-- The RES word of CD.DEC7 on the block of 0001 with two bits flipped. -/
def doubleFlipRes (p : BitVec 3 × BitVec 3) : Word := decodedWord (doubleFlip ⟨false, false, false, true⟩ p.1 p.2)

/-- L2.5c: the words pinned for the pairs with position 1 or 2. -/
theorem test_doubleFlip_low :
    [(1, 2), (1, 3), (1, 4), (1, 5), (1, 6), (1, 7), (2, 3), (2, 4), (2, 5), (2, 6), (2, 7)].map doubleFlipRes =
      [0x3199, 0x2199, 0x5255, 0x4255, 0x72A2, 0x62A2, 0x1199, 0x6433, 0x74C4, 0x4433, 0x54C4] := by decide
/-- L2.5c: the other pairs. -/
theorem test_doubleFlip_high :
    [(3, 4), (3, 5), (3, 6), (3, 7), (4, 5), (4, 6), (4, 7), (5, 6), (5, 7), (6, 7)].map doubleFlipRes =
      [0x7708, 0x67FF, 0x57FF, 0x4708, 0x1255, 0x2433, 0x3708, 0x37FF, 0x24C4, 0x12A2] := by decide
/-- R205: the worked example's stream with one flip at index 0 (R204 (4)). -/
theorem test_singleFlipRecovered : singleFlipRecovered 0 [false, false, false, true] s0 := by
  unfold singleFlipRecovered
  decide +kernel
/-- R205: the codes of "aaab"; "0" is a prefix of "01". -/
theorem test_prefixFree : prefixFree (ctImage [symA, symA, symA, symB]) = true ∧
    prefixFree [(symA, [false]), (symB, [false, true])] = false := by decide
/-- L1.1: the block 0101001 is corrected at position 1 and 0001 is held. -/
theorem test_cdBits : (after (.cdBits 7#6) { s0 with arg0 := 0x52000000#32 }).cdHold =
    some ⟨false, false, false, true⟩ ∧ (after (.cdBits 7#6) { s0 with arg0 := 0x52000000#32 }).cdSyn = 1#3 := by decide
/-- CD.END 3 releases d1 alone (R172). -/
theorem test_cdEnd : (after (.cdEnd 3#2) { s0 with cdHold := some ⟨true, false, true, true⟩ }).cdQ = [true] ∧
    (after (.cdEnd 0#2) { s0 with cdB := [true] }).status = 8#8 := by decide
/-- 35 bits: 32 come first, then 3 left-aligned (V11). -/
theorem test_heData : got .rdHeData { s0 with heQ := zeros 32 ++ [true, false, true] } = 0#32 ∧
    got .rdHeData { s0 with heQ := [true, false, true] } = 0xA0000000#32 := by decide
/-- V24: the symbol 'r' under the valid bit. -/
theorem test_hdData : got .rdHdData { s0 with hdQ := [0x72, 0x61] } = 0x80000072#32 ∧
    (after .rdHdData { s0 with hdQ := [0x72, 0x61] }).hdQ = [0x61] := by decide
/-- The left-aligned queue words of CE and CD. -/
theorem test_ce_cd_data : got .rdCeData { s0 with ceQ := [false, true] } = 0x40000000#32 ∧
    got .rdCdData { s0 with cdQ := [true] } = 0x80000000#32 := by decide
theorem test_levels : got .rdHeLevel { s0 with heQ := zeros 35 } = 35#32 ∧ got .rdHdLevel { s0 with hdQ := [1, 2] } = 2#32 ∧
    got .rdCeLevel { s0 with ceQ := zeros 7 } = 7#32 ∧ got .rdCdLevel { s0 with cdQ := zeros 4 } = 4#32 := by decide
theorem test_counters : got .rdHeCount { s0 with heCount := 35 } = 35#32 ∧ got .rdCdNcorr { s0 with cdNcorr := 2 } = 2#32 ∧
    got .rdRes { s0 with res := 9 } = 9#32 ∧ got .rdErrCmd { s0 with errCmd := 0x20000078 } = 0x20000078#32 := by decide
/-- R176 by hand: partial block "11" at [22:21], hold 0101 at [15:12], present at 8, length 2 at [6:4], cdSyn 6. -/
theorem test_cdState : got .rdCdState { s0 with cdB := [true, true], cdHold := some ⟨false, true, false, true⟩, cdSyn := 6 } =
    0x00605126#32 := by decide
/-- V7. -/
theorem test_reserved_offset : got (.reservedOffset .read 0x58#8) { s0 with arg0 := 5 } = 0#32 ∧
    exec (.reservedOffset (.write 5#32) 0x58#8) s0 = .next s0 := ⟨by decide, rfl⟩
/-- V7: wr RES is ignored. -/
theorem test_wrReadOnly : got .rdRes (after (.wrReadOnly .res 5#32) { s0 with res := 9 }) = 9#32 := by decide
/-- R53. -/
theorem test_busError : exec (.busError (.read 8 0x00#8)) s0 = .fault .busFault := rfl
/-- withFetchWord's word is the next step's. -/
theorem test_fetch : step (s0.withFetchWord 32 0x48000001) = .next { s0 with res := 0x69 } := rfl
theorem test_core : Sys2Proof.core.reset = State.reset := rfl

/-! ## Witnesses: for each statement with hypotheses, inputs that meet them, clause by clause -/

/-- The tables of s0 hold nothing valid, so the invariant's clauses about entries have nothing to say. -/
theorem s0_inv : s0.Inv :=
  { params_legal := by decide, ct_size := by decide, node_size := by decide, heQ_fits := by decide, ceQ_fits := by decide,
    cdQ_fits := by decide, hdQ_fits := by decide, ceG_short := by decide, cdB_short := by decide, at_root := by decide,
    cur_in_arena := by decide, root_in_arena := by decide, ct_codes := by decide, node_children := by decide }

theorem aaab_inv : aaab.Inv :=
  { params_legal := by decide, ct_size := by decide, node_size := by decide, heQ_fits := by decide, ceQ_fits := by decide,
    cdQ_fits := by decide, hdQ_fits := by decide, ceG_short := by decide, cdB_short := by decide, at_root := by decide,
    cur_in_arena := by decide, root_in_arena := by decide, ct_codes := by decide, node_children := by decide }

/-- The smallest and the largest parameters of R8, and ones just outside. -/
theorem witness_legal :
    Params.legal { symIdxW := 1, nodeW := 1, lMax := 1, qCapLog2 := 6, sqCapLog2 := 5 } = true ∧
    Params.legal { symIdxW := 10, nodeW := 11, lMax := 32, qCapLog2 := 15, sqCapLog2 := 15 } = true ∧
    Params.legal Params.default = true ∧
    Params.legal { symIdxW := 10, nodeW := 11, lMax := 32, qCapLog2 := 15, sqCapLog2 := 4 } = false := by decide

/-- DecodeOfEncodeIsIdentity, and the WellFormed hypotheses of the statements below: a term of each row that has a check. -/
theorem witness_wellFormed :
    WellFormed .nop = true ∧ WellFormed (.ctLoad 63#6 1023#10) = true ∧ WellFormed (.reservedOpc 0x78000000#32) = true ∧
    WellFormed (.wrCmd 1#32) = true ∧ WellFormed (.wrReadOnly .cdNcorr 0#32) = true ∧
    WellFormed (.reservedOffset .read 0x58#8) = true ∧ WellFormed (.reservedOffset (.write 1#32) 0xFC#8) = true ∧
    WellFormed (.busError (.read 32 0x01#8)) = true ∧ WellFormed .rdHeData = true := by decide

/-- CommandWordsByMaskAndMatch: a word on each side of both columns, at the ends of the opcode map. -/
theorem witness_maskAndMatch :
    0x7000_0003#32 &&& 0xFFFFFFFC#32 = 0x70000000#32 ∧ decodeCommand 0x70000003#32 = .ok (.cdEnd 3#2) ∧
    decodeCommand 0x70000004#32 = .error .reservedBit ∧
    15 ≤ (0x78000000#32 |>.extractLsb' 27 5).toNat ∧ decodeCommand 0x78000000#32 = .error .reservedOpcode := by decide

/-- StepPerformsTheNextAccess. -/
theorem witness_step :
    ({ s0 with port := [.access (.read 32 0x00#8)] } : State).port = .access (.read 32 0x00#8) :: [] ∧
    WellFormed (.ceEnc4 1#4) = true ∧
    ({ s0 with port := [.access (encode (.ceEnc4 1#4)), .reset] } : State).port =
      .access (encode (.ceEnc4 1#4)) :: [.reset] ∧
    s0.port = [] := by decide

/-- ResetSignalRestoresResetValues, from a state that differs from reset. -/
theorem witness_reset : ({ aaab with status := 1, port := [.reset] } : State).port = .reset :: [] := rfl

/-- ResetStateHasTheSpecsValues: a register with a shown value. -/
theorem witness_shown : shown State.reset .cdState = some 0#32 ∧ Reg.cdState ≠ .id ∧ Reg.cdState ≠ .param := by decide

/-- StepKeepsTheInvariant: a step of each kind, with the invariant before it. -/
theorem witness_stepKeeps :
    s0.Inv ∧ step s0 = .next s0 ∧
    ({ s0 with port := [.access (encode .ceEnd)] } : State).Inv ∧
    step { s0 with port := [.access (encode .ceEnd)] } = .next s0 ∧
    ({ s0 with port := [.reset] } : State).Inv ∧ step { s0 with port := [.reset] } = .next s0 :=
  ⟨s0_inv, rfl, { s0_inv with }, rfl, { s0_inv with }, rfl⟩

/-- EveryAccessCompletesOrFaults. -/
theorem witness_completes : ∀ a, Instr.rdCdNcorr ≠ .busError a := by simp

/-- NonWordAccessIsABusFault: each clause at its boundary. -/
theorem witness_busFault :
    (16 ≠ 32 ∨ (0x00#8).toNat % 4 ≠ 0) ∧ (33 ≠ 32 ∨ (0x00#8).toNat % 4 ≠ 0) ∧ (32 ≠ 32 ∨ (0xFF#8).toNat % 4 ≠ 0) ∧
    (32 = 32 ∧ (0xFC#8).toNat % 4 = 0) ∧
    ({ s0 with port := [.access (.read 16 0x00#8)] } : State).port = .access (.read 16 0x00#8) :: [] ∧
    ({ s0 with port := [.access (.write 32 0x01#8 0#32)] } : State).port = .access (.write 32 0x01#8 0#32) :: [] := by
  decide

/-- BadCommandWordsRaiseBadCmd: the first and the last reserved opcode, a reserved bit. -/
theorem witness_badCmd :
    15 ≤ ((0x78000000#32).extractLsb' 27 5).toNat ∧ 15 ≤ ((0xFFFFFFFF#32).extractLsb' 27 5).toNat ∧
    (formatOf ((0x70000004#32).extractLsb' 27 5) = some .pad ∧
      (0x70000004#32).extractLsb' 0 27 &&& ~~~ Format.fieldMask .pad ≠ 0#27) := by decide

/-! The BadCmdWhen clause of every command: the lowest and the highest reserved bit. -/

theorem witness_badCmdWhen_n :
    ∀ x ∈ [(0x00#5, 0x00000001#32), (0x00#5, 0x04000000#32), (0x02#5, 0x10000001#32), (0x02#5, 0x14000000#32),
        (0x08#5, 0x40000001#32), (0x08#5, 0x44000000#32), (0x0B#5, 0x58000001#32), (0x0B#5, 0x5C000000#32)],
      x.2.extractLsb' 27 5 = x.1 ∧ x.2.extractLsb' 0 27 ≠ 0#27 := by simp

theorem witness_badCmdWhen_u_d4 :
    ∀ x ∈ [(0x01#5, 0x08000010#32), (0x01#5, 0x0C000000#32), (0x09#5, 0x48000010#32), (0x09#5, 0x4C000000#32)],
      x.2.extractLsb' 27 5 = x.1 ∧ x.2.extractLsb' 4 23 ≠ 0#23 := by simp

theorem witness_badCmdWhen_cnt :
    ∀ x ∈ [(0x07#5, 0x38000040#32), (0x07#5, 0x3C000000#32), (0x0A#5, 0x50000040#32), (0x0A#5, 0x54000000#32),
        (0x0D#5, 0x68000040#32), (0x0D#5, 0x6C000000#32)],
      x.2.extractLsb' 27 5 = x.1 ∧ x.2.extractLsb' 6 21 ≠ 0#21 := by simp

theorem witness_badCmdWhen_idx :
    ∀ x ∈ [(0x05#5, 0x28000800#32), (0x05#5, 0x2C000000#32), (0x06#5, 0x30000800#32), (0x06#5, 0x34000000#32)],
      x.2.extractLsb' 27 5 = x.1 ∧ x.2.extractLsb' 11 16 ≠ 0#16 := by simp

theorem witness_badCmdWhen_others :
    (0x18000400#32).extractLsb' 10 6 ≠ 0#6 ∧ (0x1C000000#32).extractLsb' 22 5 ≠ 0#5 ∧
    (0x20200000#32).extractLsb' 21 6 ≠ 0#6 ∧ (0x60000080#32).extractLsb' 7 20 ≠ 0#20 ∧
    (0x70000004#32).extractLsb' 2 25 ≠ 0#25 := by decide

/-- StatusBitsAreSticky and StatusBitsAreSetByTheirWritersOnly: bit 7 set and kept, bit 6 newly set, bit 0 newly set. -/
theorem witness_status :
    exec .hdEnd { s0 with mid := true } = .next (after .hdEnd { s0 with mid := true }) ∧
    (s0.status.getLsbD 7 = false ∧ (after .hdEnd { s0 with mid := true }).status.getLsbD 7 = true) ∧
    exec .rdCdData s0 = .next (after .rdCdData s0) ∧
    (s0.status.getLsbD 6 = false ∧ (after .rdCdData s0).status.getLsbD 6 = true) ∧
    exec .nop { s0 with status := 0x80 } = .next { s0 with status := 0x80 } ∧
    ({ s0 with status := 0x80 } : State).status.getLsbD 7 = true ∧
    exec (.wrCmd 1#32) s0 = .next (after (.wrCmd 1#32) s0) ∧ WellFormed (.wrCmd 1#32) = true ∧
    (s0.status.getLsbD 0 = false ∧ (after (.wrCmd 1#32) s0).status.getLsbD 0 = true) :=
  ⟨rfl, by decide, rfl, by decide, rfl, by decide, rfl, by decide, by decide⟩

/-- ErrCmdCapturesTheFirstError: a first error, and an UNDERRUN, which is none. -/
theorem witness_errCmd :
    exec (.heSym 5#21) s0 = .next (after (.heSym 5#21) s0) ∧
    (s0.status &&& 0x3F#8 = 0#8 ∧ (after (.heSym 5#21) s0).status &&& 0x3F#8 ≠ 0#8) ∧
    exec .rdHeData s0 = .next (after .rdHeData s0) ∧
    ¬(s0.status &&& 0x3F#8 = 0#8 ∧ (after .rdHeData s0).status &&& 0x3F#8 ≠ 0#8) :=
  ⟨rfl, by decide, rfl, by decide⟩

/-- TablesAreWrittenByTheirCommandsOnly: each table changed. -/
theorem witness_tables :
    exec .ctInv aaab = .next (after .ctInv aaab) ∧ (after .ctInv aaab).ct ≠ aaab.ct ∧
    exec (.hdNode 0#11) aaab = .next (after (.hdNode 0#11) aaab) ∧ (after (.hdNode 0#11) aaab).node ≠ aaab.node ∧
    exec (.hdRoot 2#11) aaab = .next (after (.hdRoot 2#11) aaab) ∧ (after (.hdRoot 2#11) aaab).root ≠ aaab.root :=
  ⟨rfl, by decide, rfl, by decide, rfl, by decide⟩

/-- OperandAndResultRegistersHaveOneWriter: each register changed, a word returned. -/
theorem witness_registers :
    exec (.wrArg0 1#32) s0 = .next (after (.wrArg0 1#32) s0) ∧ (after (.wrArg0 1#32) s0).arg0 ≠ s0.arg0 ∧
    exec (.wrArg1 1#32) s0 = .next (after (.wrArg1 1#32) s0) ∧ (after (.wrArg1 1#32) s0).arg1 ≠ s0.arg1 ∧
    exec (.ceEnc4 1#4) s0 = .next (after (.ceEnc4 1#4) s0) ∧ (after (.ceEnc4 1#4) s0).res ≠ s0.res ∧
    exec (.wrIrqEn 1#32) s0 = .next (after (.wrIrqEn 1#32) s0) ∧ (after (.wrIrqEn 1#32) s0).irqEn ≠ s0.irqEn ∧
    exec .rdId s0 = .next (after .rdId s0) ∧ (after .rdId s0).reads ≠ s0.reads :=
  ⟨rfl, by decide, rfl, by decide, rfl, by decide, rfl, by decide, rfl, by decide⟩

/-- UnitsDoNotTouchEachOther: each unit's stream state changed. -/
theorem witness_units :
    exec (.heSym symA) aaab = .next (after (.heSym symA) aaab) ∧
    ((after (.heSym symA) aaab).heQ, (after (.heSym symA) aaab).heCount) ≠ (aaab.heQ, aaab.heCount) ∧
    exec (.hdBits 1#6) aaab = .next (after (.hdBits 1#6) aaab) ∧
    ((after (.hdBits 1#6) aaab).hdQ, (after (.hdBits 1#6) aaab).cur, (after (.hdBits 1#6) aaab).mid) ≠
      (aaab.hdQ, aaab.cur, aaab.mid) ∧
    exec (.ceBits 1#6) s0 = .next (after (.ceBits 1#6) s0) ∧
    ((after (.ceBits 1#6) s0).ceQ, (after (.ceBits 1#6) s0).ceG, (after (.ceBits 1#6) s0).cePad) ≠
      (s0.ceQ, s0.ceG, s0.cePad) ∧
    exec (.clear 8#4) { s0 with cdNcorr := 1 } = .next s0 ∧ ({ s0 with cdNcorr := 1 } : State).cdNcorr ≠ s0.cdNcorr :=
  ⟨rfl, by decide, rfl, by decide, rfl, by decide, rfl, by decide⟩

/-- FlagsDoNotSteerAnyAccess: two states that differ in the flags, one of which captures. -/
theorem witness_flags :
    withoutFlags s0 = withoutFlags { s0 with status := 0x7F, irqEn := 1, errCmd := 9 } ∧
    exec (.heSym 5#21) s0 = .next (after (.heSym 5#21) s0) ∧ Instr.heSym 5#21 ≠ .rdStatus ∧ Instr.heSym 5#21 ≠ .rdIrqEn ∧
    Instr.heSym 5#21 ≠ .rdErrCmd := ⟨rfl, rfl, by decide, by decide, by decide⟩

/-- CtLoadWritesOneEntry: each BADARG clause, and both ends of the accepted range. -/
theorem witness_ctLoad :
    s0.params.nSym ≤ (2#10).toNat ∧ (0#6).toNat = 0 ∧ s0.params.lMax < (9#6).toNat ∧
    ((1#10).toNat < s0.params.nSym ∧ 1 ≤ (8#6).toNat ∧ (8#6).toNat ≤ s0.params.lMax) ∧
    ((0#10).toNat < s0.params.nSym ∧ 1 ≤ (1#6).toNat ∧ (1#6).toNat ≤ s0.params.lMax) := by decide

/-- HeSymAppendsTheLowestEntrysCode: no entry; an entry that just fits; one that just does not. -/
theorem witness_heSym :
    (∀ e ∈ aaab.ct, ¬(e.v = true ∧ e.sym = 5#21)) ∧
    (aaab.ct[1]? = some { v := true, sym := symB, len := 1, code := 1 } ∧
      ∀ e ∈ aaab.ct[0]?, ¬(e.v = true ∧ e.sym = symB)) ∧
    ({ aaab with heQ := zeros 63 } : State).heQ.length + (1#6).toNat ≤ aaab.params.qCap ∧
    aaab.params.qCap < ({ aaab with heQ := zeros 64 } : State).heQ.length + (1#6).toNat := by decide

/-- HdRootMovesRootAndCursor, at N_NODE - 1 and N_NODE. -/
theorem witness_hdRoot : (3#11).toNat < s0.params.nNode ∧ s0.params.nNode ≤ (4#11).toNat := by decide

/-- HdNodeWritesOneNode: each BADARG clause and an accepted descriptor with an unchecked absent child. -/
theorem witness_hdNode :
    s0.params.nNode ≤ (4#11).toNat ∧ ((0xC0000000#32).extractLsb' 30 2).toNat = 3 ∧
    (((0x60002000#32).extractLsb' 30 2).toNat = 1 ∧ (0x60002000#32).getLsbD 29 = true ∧
      s0.params.nNode ≤ ((0x60002000#32).extractLsb' 11 11).toNat) ∧
    (((0x50000004#32).extractLsb' 30 2).toNat = 1 ∧ (0x50000004#32).getLsbD 28 = true ∧
      s0.params.nNode ≤ ((0x50000004#32).extractLsb' 0 11).toNat) ∧
    ((3#11).toNat < s0.params.nNode ∧ ((0x400007FF#32).extractLsb' 30 2).toNat ≠ 3 ∧
      (0x400007FF#32).getLsbD 29 = false ∧ (0x400007FF#32).getLsbD 28 = false) := by decide

/-- WalkerTakesOneEdgePerBit: no INTERNAL node, an absent child, and a LEAF, an INTERNAL and an INVALID child. -/
theorem witness_walk :
    (∃ c, s0.node[s0.cur.toNat]? = some c ∧ c.kind ≠ .internal) ∧
    (∃ c, ({ aaab with node := [{ kind := .internal, lv := true, rv := false, left := 0, right := 3, sym := 0 }] } :
      State).node[0]? = some c ∧ c.rv = false) ∧
    (∃ c t, aaab.node[aaab.cur.toNat]? = some c ∧ c.kind = .internal ∧ c.lv = true ∧ aaab.node[c.left.toNat]? = some t ∧
      t.kind = .leaf) ∧
    (∃ c t, ({ aaab with node := [{ kind := .internal, lv := true, rv := true, left := 0, right := 1, sym := 0 },
        NodeEntry.atReset] } : State).node[0]? = some c ∧
      c.kind = .internal ∧ c.lv = true ∧ c.rv = true ∧ c.left = 0 ∧ c.right = 1 ∧
      ({ aaab with node := [c, t] } : State).node[c.right.toNat]? = some t ∧ t.kind = .invalid) :=
  ⟨⟨_, rfl, by decide⟩, ⟨_, rfl, rfl⟩, ⟨_, _, rfl, rfl, rfl, rfl, rfl⟩,
    ⟨_, NodeEntry.atReset, rfl, rfl, rfl, rfl, rfl, rfl, rfl, rfl⟩⟩

/-- HdBitsWalksBitAfterBit, CeBitsEncodesCompleteGroups, CdBitsDecodesCompleteBlocks: N at its bounds, the output bound met
and missed by one. -/
theorem witness_bits :
    (0#6).toNat = 0 ∧ 32 < (33#6).toNat ∧ (1 ≤ (1#6).toNat ∧ (1#6).toNat ≤ 32) ∧ (1 ≤ (32#6).toNat ∧ (32#6).toNat ≤ 32) ∧
    ([] : List Sym).length + (32#6).toNat ≤ s0.params.sqCap ∧ s0.params.sqCap < [symA].length + (32#6).toNat ∧
    ((zeros 3).length ≤ 3 ∧ (zeros 57).length + 7 * ((3 + (1#6).toNat) / 4) ≤ s0.params.qCap ∧
      s0.params.qCap < (zeros 58).length + 7 * ((3 + (1#6).toNat) / 4)) ∧
    ((zeros 6).length ≤ 6 ∧ (zeros 60).length + 4 * ((6 + (1#6).toNat) / 7) ≤ s0.params.qCap ∧
      s0.params.qCap < (zeros 61).length + 4 * ((6 + (1#6).toNat) / 7)) ∧
    blocksOf (zeros 6) = [] ∧
    blocksOf (zeros 7) = [] ++ [⟨false, false, false, false, false, false, false⟩] := by decide

/-- CeEndPadsTheLastGroup: groups of 0, 1 and 3 bits, the block fitting and not. -/
theorem witness_ceEnd :
    s0.ceG = [] ∧ (1 ≤ (zeros 1).length ∧ (zeros 3).length ≤ 3) ∧ (zeros 57).length + 7 ≤ s0.params.qCap ∧
    s0.params.qCap < (zeros 58).length + 7 := by decide

/-- CdEndReleasesTheHold: a partial block, no hold, a hold that fits and one that does not. -/
theorem witness_cdEnd :
    ({ s0 with cdB := [true] } : State).cdB ≠ [] ∧ (s0.cdB = [] ∧ s0.cdHold = none) ∧
    ({ s0 with cdHold := some ⟨true, true, true, true⟩ } : State).cdHold = some ⟨true, true, true, true⟩ ∧
    (zeros 63).length + (4 - (3#2).toNat) ≤ s0.params.qCap ∧ s0.params.qCap < (zeros 64).length + (4 - (3#2).toNat) := by
  decide

/-- HammingCorrectsOneFlip: the premise, and positions at both ends. -/
theorem witness_flip :
    exec (.ceEnc4 1#4) s0 = .next (after (.ceEnc4 1#4) s0) ∧ (1 ≤ 1 ∧ 1 ≤ 7 ∧ 1 ≤ 7 ∧ 7 ≤ 7 ∧ (1 : Nat) ≠ 7) :=
  ⟨rfl, by decide⟩

/-- BitQueueReadsPopUpTo32Bits and HdDataReadPopsOneSymbol: empty and not. -/
theorem witness_pop :
    (s0.heQ = [] ∧ s0.ceQ = [] ∧ s0.cdQ = [] ∧ s0.hdQ = []) ∧ ({ s0 with heQ := zeros 33 } : State).heQ ≠ [] ∧
    ({ s0 with ceQ := [true] } : State).ceQ ≠ [] ∧ ({ s0 with cdQ := [true] } : State).cdQ ≠ [] ∧
    ({ s0 with hdQ := [symA] } : State).hdQ = symA :: [] ∧ (0 < 32 ∧ 31 < 32) := by decide

/-- StateWordsShowTheStreamState: full partial state, a hold and none. -/
theorem witness_stateWords :
    (zeros 3).length ≤ 3 ∧ (zeros 6).length ≤ 6 ∧ s0.cdHold = none ∧
    ({ s0 with cdHold := some ⟨true, false, true, false⟩ } : State).cdHold = some ⟨true, false, true, false⟩ := by decide

/-- IdentificationReads, ReadOnlyWritesAreIgnored, ReservedOffsetsReadZero. -/
theorem witness_registerRows :
    s0.params.legal = true ∧ State.reset.params = Params.default ∧ Reg.cdNcorr ∈ [Reg.id, .cdNcorr] ∧
    (0x58 ≤ (0x58#8).toNat ∧ (0x58#8).toNat % 4 = 0) ∧ (0x58 ≤ (0xFC#8).toNat ∧ (0xFC#8).toNat % 4 = 0) := by decide

/-- The codes of "aaab" (L1.1). -/
def codesAaab : List (Sym × Bits) := [(symA, [false]), (symB, [true])]

/-- CLEAR leaves a clean instance as it is. -/
theorem clear_clean :
    exec (.clear 1#4) aaab = .next aaab ∧ exec (.clear 2#4) aaab = .next aaab ∧ exec (.clear 4#4) s0 = .next s0 ∧
    exec (.clear 8#4) s0 = .next s0 := by
  simp [exec, execClear, onUnit, clearHe, clearHd, clearCe, clearCd, aaab, s0, State.resetOf]

/-- HuffmanEncoderAgreesWithTheSource: a symbol, a pop. -/
theorem witness_heAgrees :
    aaab.params.legal = true ∧ aaab.status = 0 ∧ exec (.clear 1#4) aaab = .next aaab ∧
    (∀ t ∈ pushed [.push symB, .pop], aaab.ct.countP (fun e => e.v && e.sym == t) = 1) :=
  ⟨by decide, by decide, clear_clean.1, by simp [pushed, aaab, symA, symB]⟩

/-- The same moves: no error is raised. -/
theorem witness_heAgrees_status : (heMoves [.push symB, .pop] aaab).2.status &&& 0x7F#8 = 0#8 := by decide

/-- The tree of "aaab" (L1.1). -/
def treeAaab : CodeTree := .internal 4 (.leaf symA 3) (.leaf symB 1)

/-- HuffmanDecoderAgreesWithTheSource: "00" pushed, a symbol popped, "1" pushed. -/
theorem witness_hdAgrees :
    treeAt aaab treeAaab aaab.root ∧ aaab.status = 0 ∧ exec (.clear 2#4) aaab = .next aaab ∧
    pushesFit [.push [false, false], .pop, .push [true]] ∧
    (hdMoves [.push [false, false], .pop, .push [true]] aaab).2.status &&& 0x7F#8 = 0#8 ∧
    sourceDecodeFrom treeAaab treeAaab false [false, false, true] = some ([symA, symA, symB], false) :=
  ⟨by simp [treeAt, treeAaab, nodeAt, aaab, s0, State.resetOf], by decide, clear_clean.2.1, by unfold pushesFit; decide, by decide,
    by decide⟩

theorem witness_pushesFit : pushesFit [.push (zeros 1), .pop, .push (zeros 32)] := by
  unfold pushesFit; decide

/-- HammingEncoderAgreesWithTheSource: five bits, a pop, CE.END. -/
theorem witness_ceAgrees :
    s0.params.legal = true ∧ s0.status = 0 ∧ exec (.clear 4#4) s0 = .next s0 ∧ pushesFit [.push (zeros 5), .pop] ∧
    exec .ceEnd (ceMoves [.push (zeros 5), .pop] s0).2 = .next (after .ceEnd (ceMoves [.push (zeros 5), .pop] s0).2) ∧
    (after .ceEnd (ceMoves [.push (zeros 5), .pop] s0).2).status &&& 0x7F#8 = 0#8 :=
  ⟨by decide, by decide, clear_clean.2.2.1, by unfold pushesFit; decide, rfl, by decide⟩

/-- HammingDecoderAgreesWithTheSource: 14 bits end well; 8 bits end in LENGTH. -/
theorem witness_cdAgrees :
    exec (.clear 8#4) s0 = .next s0 ∧ s0.status = 0 ∧ pushesFit [.push (zeros 14), .pop] ∧
    (cdMoves [.push (zeros 14), .pop] s0).2.status &&& 0x7F#8 = 0#8 ∧
    (after (.cdEnd 1#2) (cdMoves [.push (zeros 14), .pop] s0).2).status &&& 0x7F#8 = 0#8 ∧
    (zeros 14).length % 7 = 0 ∧ (zeros 8).length % 7 ≠ 0 ∧
    (cdMoves [.push (zeros 8)] s0).2.status &&& 0x7F#8 = 0#8 :=
  ⟨clear_clean.2.2.2, by decide, by unfold pushesFit; decide, by decide, by decide, by decide, by decide, by decide⟩

/-- DerivedCodesArePrefixFree and HuffmanRoundTrip: the codes of "aaab". -/
theorem witness_codes :
    deriveCodes (treeOf [symA, symA, symA, symB]) = codesAaab ∧ symA ≠ symB ∧ [symA, symA, symA, symB] ≠ [] := by decide

/-- HammingRoundTripWithOneFlipPerBlock and ReferenceRunRecoversTheSource: nothing flipped is at most one flip. -/
theorem witness_oneFlip (bits : Bits) : oneFlipPerBlock bits bits :=
  ⟨rfl, fun _ _ _ _ _ _ _ h => absurd rfl h⟩

/-- The block of 0001 with its first bit flipped (L1.1). -/
theorem witness_oneFlip_first :
    oneFlipPerBlock (hammingEncode [false, false, false, true]) [false, true, false, true, false, false, true] := by
  refine ⟨by decide, ?_⟩
  have h : ∀ i : Nat, ([false, true, false, true, false, false, true] : Bits)[i]? ≠
      (hammingEncode [false, false, false, true])[i]? → i = 0 := by
    intro i hi
    match i with
    | 0 => rfl
    | 1 | 2 | 3 | 4 | 5 | 6 => exact absurd (by decide) hi
    | n + 7 => exact absurd rfl hi
  intro _ i j _ _ _ _ hi hj
  rw [h i hi, h j hj]

/-- InjectorFlipsEveryInterval: both sides of its hypotheses. -/
theorem witness_inject : ([] : Bits) = [] ∧ (0 : Int) ≤ 0 ∧ (0 : Int) < 1 ∧ (zeros 1)[0]? = some false := by decide

/-- RunStartIsClean and ReferenceRunRecoversTheSource: "aaab" fits the tiny instance. -/
theorem witness_run : s0.Inv ∧ fits s0.params [symA, symA, symA, symB] = true := ⟨s0_inv, by decide⟩

end Sys2Proof.Tests
end

section
/-! PROOFS. Every access completes in one step, the bus fault apart (00_scope.md R17, 70_reset_and_hazards.md R250). -/

namespace Sys2Proof.Machine

/-- A meaning answers a next state: the access is performed to completion (R17). -/
def Completes (r : Result) : Prop := ∃ t, r = .next t

@[simp] theorem completes_next (t : State) : Completes (.next t) := ⟨t, rfl⟩

/-- A check completes when each of its two answers does. -/
theorem completes_ite {p : Prop} [Decidable p] {a b : Result} (ha : Completes a) (hb : Completes b) :
    Completes (if p then a else b) := by
  split
  · exact ha
  · exact hb

/-- Two checks in order complete, whichever of the three answers they give (60_exceptions.md R216). -/
theorem completes_checks {p q : Prop} [Decidable p] [Decidable q] {s t u : State} :
    Completes (if p then .next s else if q then .next t else .next u) :=
  completes_ite (completes_next _) (completes_ite (completes_next _) (completes_next _))

/-! ## Commands -/

theorem completes_execHeSym (sym : Sym) (s : State) : Completes (execHeSym sym s) := by
  unfold execHeSym
  split
  · exact completes_next _
  · exact completes_ite (completes_next _) (completes_next _)

theorem completes_execHdNode (idx : NodeIdx) (s : State) : Completes (execHdNode idx s) := by
  refine completes_ite (completes_next _) ?_
  split
  · exact completes_next _
  · exact completes_ite (completes_next _) (completes_next _)

theorem completes_execCdEnd (pad : BitVec 2) (s : State) : Completes (execCdEnd pad s) := by
  refine completes_ite (completes_next _) ?_
  split
  · exact completes_next _
  · exact completes_ite (completes_next _) (completes_next _)

/-- Every command completes, whatever error it raises (R212, R250). -/
theorem completes_runCommand (c : Command) (s : State) : Completes (runCommand c s) := by
  cases c with
  | nop | clear | ctInv | hdEnd | ceEnc4 | cdDec7 => exact completes_next _
  | hdRoot => exact completes_ite (completes_next _) (completes_next _)
  | ctLoad | hdBits | ceBits | ceEnd | cdBits => exact completes_checks
  | heSym sym => exact completes_execHeSym sym s
  | hdNode idx => exact completes_execHdNode idx s
  | cdEnd pad => exact completes_execCdEnd pad s

/-- A write of any word to CMD completes (R26). -/
theorem completes_execWrCmd (w : Word) (s : State) : Completes (execWrCmd w s) := by
  unfold execWrCmd
  split
  · exact completes_runCommand _ s
  · exact completes_next _

/-! ## Register accesses with a case split -/

theorem completes_execRdHdData (s : State) : Completes (execRdHdData s) := by
  unfold execRdHdData
  split
  · exact completes_next _
  · exact completes_next _

theorem completes_execReservedOffset (dir : Dir) (off : Offset) (s : State) :
    Completes (execReservedOffset dir off s) := by
  cases dir with
  | read => exact completes_next _
  | write v => exact completes_next _

/-! ## All instructions -/

theorem exec_busError (a : Access) (s : State) : exec (.busError a) s = .fault .busFault := rfl

/-- Every instruction completes, the bus fault's apart (R17). -/
theorem completes_exec (i : Instr) (s : State) (h : ∀ a, i ≠ .busError a) : Completes (exec i s) := by
  cases i with
  | nop => exact completes_runCommand .nop s
  | clear units => exact completes_runCommand (.clear units) s
  | ctInv => exact completes_runCommand .ctInv s
  | ctLoad len idx => exact completes_runCommand (.ctLoad len idx) s
  | heSym sym => exact completes_runCommand (.heSym sym) s
  | hdRoot idx => exact completes_runCommand (.hdRoot idx) s
  | hdNode idx => exact completes_runCommand (.hdNode idx) s
  | hdBits n => exact completes_runCommand (.hdBits n) s
  | hdEnd => exact completes_runCommand .hdEnd s
  | ceEnc4 d => exact completes_runCommand (.ceEnc4 d) s
  | ceBits n => exact completes_runCommand (.ceBits n) s
  | ceEnd => exact completes_runCommand .ceEnd s
  | cdDec7 b => exact completes_runCommand (.cdDec7 b) s
  | cdBits n => exact completes_runCommand (.cdBits n) s
  | cdEnd pad => exact completes_runCommand (.cdEnd pad) s
  | wrCmd w => exact completes_execWrCmd w s
  | rdHdData => exact completes_execRdHdData s
  | rdHeData | rdCeData | rdCdData => exact completes_ite (completes_next _) (completes_next _)
  | reservedOffset dir off => exact completes_execReservedOffset dir off s
  | busError a => exact absurd rfl (h a)
  | reservedOpc | wrArg0 | wrArg1 | wrStatus | wrIrqEn | wrReadOnly => exact completes_next _
  | rdArg0 | rdArg1 | rdStatus | rdIrqEn | rdId | rdParam | rdRes | rdErrCmd | rdCmd | rdHeLevel | rdHeCount
  | rdHdLevel | rdHdWalk | rdCeLevel | rdCeState | rdCdLevel | rdCdState | rdCdNcorr => exact completes_next _

/-- No instruction is refused: every row has its meaning. -/
theorem exec_ne_refused (i : Instr) (s : State) (r : Refusal) : exec i s ≠ .refused r := by
  by_cases h : ∃ a, i = .busError a
  · obtain ⟨a, rfl⟩ := h
    simp [exec_busError]
  · obtain ⟨t, ht⟩ := completes_exec i s (not_exists.1 h)
    simp [ht]

/-- Settles O11, from the completion of each instruction. -/
theorem everyAccessCompletesOrFaults : Obligations.EveryAccessCompletesOrFaults := by
  intro i s
  exact ⟨completes_exec i s, fun a => exec_busError a s, exec_ne_refused i s⟩

end Sys2Proof.Machine
end

section
/-! PROOFS. The source's Hamming coder gives a stream back when at most one bit of every block is flipped
(48_host_reference.md R204 (3), (4)). -/

namespace Sys2Proof.Machine

/-! ## One flip in a block -/

/-- Flipping a block at position i + 1 flips bit i of its stream (R173). -/
theorem flip_bits (c : Block) (i : Nat) (hi : i < 7) :
    (c.flip (BitVec.ofNat 3 (i + 1))).bits = flipAt i c.bits := by
  interval_cases i <;> rfl

@[simp] theorem Block.bits_length (b : Block) : b.bits.length = 7 := rfl

/-- Two streams of one length that differ in at most one place are equal or one flip apart. -/
theorem eq_or_eq_flipAt (u v : Bits) (hlen : u.length = v.length)
    (h : ∀ i j : Nat, u[i]? ≠ v[i]? → u[j]? ≠ v[j]? → i = j) : u = v ∨ ∃ i < v.length, u = flipAt i v := by
  by_cases huv : u = v
  · exact .inl huv
  obtain ⟨i, hi⟩ : ∃ i : Nat, u[i]? ≠ v[i]? := not_forall.1 fun hall => huv (List.ext_getElem? hall)
  have hlt : i < v.length := by
    by_contra hge
    exact hi (by rw [List.getElem?_eq_none (by omega), List.getElem?_eq_none (by omega)])
  refine .inr ⟨i, hlt, List.ext_getElem? fun k => ?_⟩
  rw [flipAt_getElem?]
  split
  · next hik =>
    subst hik
    have hu : i < u.length := hlen ▸ hlt
    simp only [List.getElem?_eq_getElem hlt, List.getElem?_eq_getElem hu, ne_eq, Option.some.injEq] at hi ⊢
    simpa using Bool.eq_not.2 hi
  · next hik =>
    by_contra hk
    exact hik (h i k hi hk)

/-- Seven bits that differ from a block in at most one place are the block flipped at one position, or at none. -/
theorem exists_flip_of_oneFlip (b : Block) (u : Bits) (hlen : u.length = 7)
    (h : ∀ i j : Nat, u[i]? ≠ b.bits[i]? → u[j]? ≠ b.bits[j]? → i = j) : ∃ p, u = (b.flip p).bits := by
  rcases eq_or_eq_flipAt u b.bits hlen h with rfl | ⟨i, hi, rfl⟩
  · exact ⟨0, rfl⟩
  · exact ⟨BitVec.ofNat 3 (i + 1), (flip_bits b i hi).symm⟩

/-! ## The first block of a stream -/

/-- Two streams cut to n bits differ only below n, where the streams themselves do. -/
theorem getElem?_ne_of_take_ne {u v : Bits} {n k : Nat} (h : (u.take n)[k]? ≠ (v.take n)[k]?) :
    k < n ∧ u[k]? ≠ v[k]? := by
  rw [List.getElem?_take, List.getElem?_take] at h
  split at h
  · next hk => exact ⟨hk, h⟩
  · exact absurd rfl h

/-- The first seven bits differ in at most one place. -/
theorem oneFlipPerBlock_take {u v : Bits} (h : oneFlipPerBlock u v) (i j : Nat)
    (hi : (v.take 7)[i]? ≠ (u.take 7)[i]?) (hj : (v.take 7)[j]? ≠ (u.take 7)[j]?) : i = j := by
  obtain ⟨hi7, hi'⟩ := getElem?_ne_of_take_ne hi
  obtain ⟨hj7, hj'⟩ := getElem?_ne_of_take_ne hj
  exact h.2 0 i j (by omega) (by omega) (by omega) (by omega) hi' hj'

/-- The stream after its first block has at most one flip per block, since its blocks are the stream's own. -/
theorem oneFlipPerBlock_drop {u v : Bits} (h : oneFlipPerBlock u v) : oneFlipPerBlock (u.drop 7) (v.drop 7) := by
  obtain ⟨hlen, hone⟩ := h
  refine ⟨by rw [List.length_drop, List.length_drop, hlen], fun k i j hki hik hkj hjk hi hj => ?_⟩
  rw [List.getElem?_drop, List.getElem?_drop] at hi hj
  have := hone (k + 1) (7 + i) (7 + j) (by omega) (by omega) (by omega) (by omega) hi hj
  omega

/-- At most one flip per block: the first block is flipped at most once, and the rest has at most one flip per block. -/
theorem oneFlipPerBlock_block_append {b : Block} {v c : Bits} (h : oneFlipPerBlock (b.bits ++ v) c) :
    ∃ p v', c = (b.flip p).bits ++ v' ∧ oneFlipPerBlock v v' := by
  have hhead : (c.take 7).length = 7 := by
    have := h.1
    simp only [List.length_append, Block.bits_length] at this
    rw [List.length_take]
    omega
  obtain ⟨p, hp⟩ := exists_flip_of_oneFlip b (c.take 7) hhead (oneFlipPerBlock_take h)
  exact ⟨p, c.drop 7, by rw [← hp, List.take_append_drop], oneFlipPerBlock_drop h⟩

/-! ## Decoding block after block -/

theorem decodeBlocks_block (b : Block) (bs : Bits) :
    decodeBlocks (b.bits ++ bs) = (hdec b).data.bits ++ decodeBlocks bs := rfl

/-- One flip in the block of a nibble leaves its data (R179). -/
theorem hdec_flip_henc_data (d : Nibble) (p : BitVec 3) : (hdec ((henc d).flip p)).data = d :=
  congrArg Decoded.data (singleFlipCorrected_all d p)

/-- Complete groups come back from their blocks when each block has at most one flip (R204 (3), (4)). -/
theorem decodeBlocks_of_oneFlip : ∀ bits c : Bits, bits.length % 4 = 0 → oneFlipPerBlock (encodeGroups bits) c →
    decodeBlocks c = bits ∧ c.length % 7 = 0
  | [], c, _, h => by
    obtain rfl : c = [] := List.length_eq_zero_iff.1 h.1
    exact ⟨rfl, rfl⟩
  | d1 :: d2 :: d3 :: d4 :: rest, c, hlen, h => by
    obtain ⟨p, c', rfl, h'⟩ := oneFlipPerBlock_block_append h
    have hrest : rest.length % 4 = 0 := by simp only [List.length_cons] at hlen; omega
    obtain ⟨hdata, hmod⟩ := decodeBlocks_of_oneFlip rest c' hrest h'
    constructor
    · rw [decodeBlocks_block, hdec_flip_henc_data, hdata]
      rfl
    · rw [List.length_append, Block.bits_length]
      omega
  | [_], _, hlen, _ => absurd hlen (by simp)
  | [_, _], _, hlen, _ => absurd hlen (by simp)
  | [_, _, _], _, hlen, _ => absurd hlen (by simp)

/-! ## The padding -/

/-- The padded stream is whole groups of four (R15). -/
theorem padded_length_mod (bits : Bits) : (bits ++ List.replicate (padCount bits) false).length % 4 = 0 := by
  simp only [List.length_append, List.length_replicate, padCount]
  omega

/-- Settles O57: the decoder's blocks give the padded stream back, and the pad count cuts the padding off. -/
theorem hammingRoundTripWithOneFlipPerBlock : Obligations.HammingRoundTripWithOneFlipPerBlock := by
  intro bits c h
  obtain ⟨hdata, hmod⟩ := decodeBlocks_of_oneFlip _ c (padded_length_mod bits) h
  simp [hammingDecode, hmod, hdata]

end Sys2Proof.Machine
end

section
/-! PROOFS. The decoder undoes the encoder on well-formed instructions (30_encoding.md R72, R82), and a step performs the
next access at the port (20_memory.md R58, R61). -/

namespace Sys2Proof

/-! ## Accesses to named registers -/

@[simp] theorem decode_rd (r : Reg) : decode (.rd r) = decodeRead r := by
  simp [decode, Access.rd, Access.aligned32]

@[simp] theorem decode_wr (r : Reg) (v : Word) : decode (.wr r v) = decodeWrite r v := by
  simp [decode, Access.wr, Access.aligned32]

/-! ## Words written to CMD -/

theorem decodeCmdWrite_encodeCommand (c : Command) : decodeCmdWrite (encodeCommand c) = c.toInstr := by
  simp [decodeCmdWrite, decodeCommand_encodeCommand]

/-- The access of a command is the command (R70, R80). -/
@[simp] theorem decode_command (c : Command) : decode (.command c) = c.toInstr := by
  rw [Access.command, decode_wr]
  exact decodeCmdWrite_encodeCommand c

/-- A word whose opcode has no format is of the reserved row (R77). -/
theorem decodeCmdWrite_reservedOpc (w : Word) (h : formatOf (opcOf w) = none) :
    decodeCmdWrite w = .reservedOpc w := by
  simp [decodeCmdWrite, decodeCommand, h]

/-- The opcodes with a format are those with a command (R76). -/
theorem commandOf_isSome (w : Word) (f : Format) (h : formatOf (opcOf w) = some f) : ∃ c, commandOf w = some c := by
  unfold formatOf at h
  unfold commandOf
  split at h <;> simp_all

/-- A word of a defined opcode with a reserved bit set is of the row wr CMD (R78). -/
theorem decodeCmdWrite_reservedBit (w : Word) (f : Format) (hf : formatOf (opcOf w) = some f)
    (h : reservedBitSet f w = true) : decodeCmdWrite w = .wrCmd w := by
  obtain ⟨c, hc⟩ := commandOf_isSome w f hf
  simp [decodeCmdWrite, decodeCommand, hf, hc, h]

/-! ## Read-only registers, reserved offsets, the bus fault -/

theorem decodeWrite_readOnly (r : Reg) (v : Word) (h : r.readOnly = true) : decodeWrite r v = .wrReadOnly r v := by
  cases r with
  | status | cmd | arg0 | arg1 | irqEn => simp [Reg.readOnly, Reg.kind] at h
  | _ => rfl

theorem decode_reservedOffset (dir : Dir) (off : Offset) (h : WellFormed (.reservedOffset dir off) = true) :
    decode (encode (.reservedOffset dir off)) = .reservedOffset dir off := by
  simp only [WellFormed, Bool.and_eq_true, decide_eq_true_eq, Option.isNone_iff_eq_none] at h
  obtain ⟨haligned, hnone⟩ := h
  cases dir <;> simp [decode, encode, Access.aligned32, haligned, hnone]

theorem decode_of_not_aligned (a : Access) (h : a.aligned32 = false) : decode a = .busError a := by
  simp [decode, h]

/-! ## All instructions -/

/-- Every well-formed instruction is the one its access decodes to (R72, R76, R82). -/
theorem decode_encode (i : Instr) (h : WellFormed i = true) : decode (encode i) = i := by
  cases i with
  | nop => exact decode_command .nop
  | clear units => exact decode_command (.clear units)
  | ctInv => exact decode_command .ctInv
  | ctLoad len idx => exact decode_command (.ctLoad len idx)
  | heSym sym => exact decode_command (.heSym sym)
  | hdRoot idx => exact decode_command (.hdRoot idx)
  | hdNode idx => exact decode_command (.hdNode idx)
  | hdBits n => exact decode_command (.hdBits n)
  | hdEnd => exact decode_command .hdEnd
  | ceEnc4 d => exact decode_command (.ceEnc4 d)
  | ceBits n => exact decode_command (.ceBits n)
  | ceEnd => exact decode_command .ceEnd
  | cdDec7 b => exact decode_command (.cdDec7 b)
  | cdBits n => exact decode_command (.cdBits n)
  | cdEnd pad => exact decode_command (.cdEnd pad)
  | reservedOpc w =>
    exact (decode_wr .cmd w).trans (decodeCmdWrite_reservedOpc w (by simpa [WellFormed] using h))
  | wrCmd w =>
    cases hf : formatOf (opcOf w) with
    | none => simp [WellFormed, hf] at h
    | some f =>
      exact (decode_wr .cmd w).trans (decodeCmdWrite_reservedBit w f hf (by simpa [WellFormed, hf] using h))
  | wrReadOnly r v => exact (decode_wr r v).trans (decodeWrite_readOnly r v h)
  | reservedOffset dir off => exact decode_reservedOffset dir off h
  | busError a => exact decode_of_not_aligned a (by simpa [WellFormed] using h)
  | wrArg0 | wrArg1 | wrStatus | wrIrqEn => exact decode_wr _ _
  | rdArg0 | rdArg1 | rdStatus | rdIrqEn | rdId | rdParam | rdRes | rdErrCmd | rdCmd | rdHeLevel | rdHeData | rdHeCount
  | rdHdLevel | rdHdData | rdHdWalk | rdCeLevel | rdCeData | rdCeState | rdCdLevel | rdCdData | rdCdState
  | rdCdNcorr => exact decode_rd _

end Sys2Proof

namespace Sys2Proof.Machine

/-! ## The step -/

/-- With nothing at the port a step changes nothing (R16). -/
theorem step_idle {s : State} (h : s.port = []) : step s = .next s := by simp [step, h]

/-- An access leaves the port and its instruction is performed (R61). -/
theorem step_access {s : State} {a : Access} {rest : List Event} (h : s.port = .access a :: rest) :
    step s = exec (decode a) { s with port := rest } := by simp [step, h]

/-- A command's word is placed next at the port as a write to CMD (log 11). -/
theorem withFetchWord_encodeCommand (s : State) (c : Command) :
    s.withFetchWord 32 (encodeCommand c).toNat = { s with port := .access (.command c) :: s.port } := by
  simp [State.withFetchWord, accessOfTableWord, Access.command]

/-- Settles O6, from what a step does with the port and the round trip of the decoder. -/
theorem stepPerformsTheNextAccess : Obligations.StepPerformsTheNextAccess := by
  intro s
  refine ⟨fun a rest h => step_access h, fun i rest hi h => ?_, fun c => ?_, step_idle⟩
  · rw [step_access h, decode_encode i hi]
  · rw [withFetchWord_encodeCommand, step_access rfl, decode_command]

end Sys2Proof.Machine
end

section
/-! PROOFS. The state after reset meets the invariant (10_state.md R46, R48). -/

namespace Sys2Proof.Machine

/-- Nothing in the tables is valid after reset, every queue is empty and the walker is at node 0 (R48). -/
theorem resetOf_inv (p : Params) (hp : p.legal = true) : (State.resetOf p).Inv where
  params_legal := hp
  ct_size := List.length_replicate
  node_size := List.length_replicate
  heQ_fits := Nat.zero_le _
  ceQ_fits := Nat.zero_le _
  cdQ_fits := Nat.zero_le _
  hdQ_fits := Nat.zero_le _
  ceG_short := Nat.zero_le _
  cdB_short := Nat.zero_le _
  at_root _ := rfl
  cur_in_arena := Nat.two_pow_pos _
  root_in_arena := Nat.two_pow_pos _
  ct_codes e he hv := by
    obtain rfl : e = CtEntry.atReset := List.eq_of_mem_replicate he
    exact absurd hv (by decide)
  node_children e he hk := by
    obtain rfl : e = NodeEntry.atReset := List.eq_of_mem_replicate he
    exact absurd hk (by decide)

/-- Settles O9: the default parameters of R8 are legal, so they are one case of the others. -/
theorem resetMeetsTheInvariant : Obligations.ResetMeetsTheInvariant :=
  ⟨resetOf_inv Params.default (by decide), resetOf_inv⟩

end Sys2Proof.Machine
end

section
/-! PROOFS. What an instruction can do, said once: every next state of exec is one of the effects below. The families of
statements about frames, flags and the invariant are case analyses over them. -/

namespace Sys2Proof.Machine

/-- The error rows of R211: which instructions raise which error. -/
def Err.reportedBy : Err → Instr → Prop
  | .badCmd, i => (∃ w, i = .reservedOpc w) ∨ ∃ w, i = .wrCmd w
  | .badArg, i => (∃ l x, i = .ctLoad l x) ∨ (∃ x, i = .hdRoot x) ∨ (∃ x, i = .hdNode x) ∨ (∃ n, i = .hdBits n) ∨
      (∃ n, i = .ceBits n) ∨ ∃ n, i = .cdBits n
  | .unkSym, i => ∃ x, i = .heSym x
  | .length, i => ∃ p, i = .cdEnd p
  | .tree, i => ∃ n, i = .hdBits n
  | .overrun, i => (∃ x, i = .heSym x) ∨ (∃ n, i = .hdBits n) ∨ (∃ n, i = .ceBits n) ∨ i = .ceEnd ∨
      (∃ n, i = .cdBits n) ∨ ∃ p, i = .cdEnd p
  | .underrun, i => i = .rdHeData ∨ i = .rdHdData ∨ i = .rdCeData ∨ i = .rdCdData

/-- What CLEAR leaves (R91), field by field. -/
def cleared (units : BitVec 4) (s : State) : State :=
  { s with
    heQ := if units.getLsbD 0 then [] else s.heQ
    heCount := if units.getLsbD 0 then 0 else s.heCount
    hdQ := if units.getLsbD 1 then [] else s.hdQ
    cur := if units.getLsbD 1 then s.root else s.cur
    mid := if units.getLsbD 1 then false else s.mid
    ceQ := if units.getLsbD 2 then [] else s.ceQ
    ceG := if units.getLsbD 2 then [] else s.ceG
    cePad := if units.getLsbD 2 then 0 else s.cePad
    cdQ := if units.getLsbD 3 then [] else s.cdQ
    cdB := if units.getLsbD 3 then [] else s.cdB
    cdHold := if units.getLsbD 3 then none else s.cdHold
    cdSyn := if units.getLsbD 3 then 0 else s.cdSyn
    cdNcorr := if units.getLsbD 3 then 0 else s.cdNcorr }

theorem onUnit_clearHe (b : Bool) (s : State) : onUnit b clearHe s =
    { s with heQ := if b then [] else s.heQ, heCount := if b then 0 else s.heCount } := by cases b <;> rfl

theorem onUnit_clearHd (b : Bool) (s : State) : onUnit b clearHd s =
    { s with
      hdQ := if b then [] else s.hdQ
      cur := if b then s.root else s.cur
      mid := if b then false else s.mid } := by cases b <;> rfl

theorem onUnit_clearCe (b : Bool) (s : State) : onUnit b clearCe s =
    { s with
      ceQ := if b then [] else s.ceQ
      ceG := if b then [] else s.ceG
      cePad := if b then 0 else s.cePad } := by cases b <;> rfl

theorem onUnit_clearCd (b : Bool) (s : State) : onUnit b clearCd s =
    { s with
      cdQ := if b then [] else s.cdQ
      cdB := if b then [] else s.cdB
      cdHold := if b then none else s.cdHold
      cdSyn := if b then 0 else s.cdSyn
      cdNcorr := if b then 0 else s.cdNcorr } := by cases b <;> rfl

/-- The units are cleared one after another, which is field by field because they share no field (R36). -/
theorem cleared_eq (units : BitVec 4) (s : State) :
    cleared units s = onUnit (units.getLsbD 3) clearCd (onUnit (units.getLsbD 2) clearCe
      (onUnit (units.getLsbD 1) clearHd (onUnit (units.getLsbD 0) clearHe s))) := by
  rw [onUnit_clearHe, onUnit_clearHd, onUnit_clearCe, onUnit_clearCd]
  rfl

theorem execClear_eq (units : BitVec 4) (s : State) : execClear units s = .next (cleared units s) :=
  congrArg _ (cleared_eq units s).symm

/-- One way an instruction completes: the state before, the guard it passed, the state after. -/
inductive Effect : Instr → State → State → Prop
  /-- Nothing happens. -/
  | idle (i : Instr) (s : State) : Effect i s s
  /-- A command's error is raised with its word, and there is no other effect (R211, R212). -/
  | report {i : Instr} {e : Err} (s : State) (w : Word) (hw : encode i = .wr .cmd w) (he : e.reportedBy i) :
      Effect i s (raise e w s)
  /-- A read that does not pop (R45). -/
  | answer {i : Instr} {off : Offset} (s : State) (v : Word) (hr : encode i = .read 32 off) :
      Effect i s (respond v s)
  /-- A DATA read of an empty queue (R56). -/
  | underrun {i : Instr} {off : Offset} (s : State) (hr : encode i = .read 32 off)
      (he : Err.underrun.reportedBy i) : Effect i s (respond 0 (raise .underrun 0 s))
  | popHe (s : State) : Effect .rdHeData s (respond (popWord s.heQ) { s with heQ := popRest s.heQ })
  | popHd (s : State) (sym : Sym) (rest : List Sym) (hq : s.hdQ = sym :: rest) :
      Effect .rdHdData s (respond (hdDataWord sym) { s with hdQ := rest })
  | popCe (s : State) : Effect .rdCeData s (respond (popWord s.ceQ) { s with ceQ := popRest s.ceQ })
  | popCd (s : State) : Effect .rdCdData s (respond (popWord s.cdQ) { s with cdQ := popRest s.cdQ })
  | wrArg0 (v : Word) (s : State) : Effect (.wrArg0 v) s { s with arg0 := v }
  | wrArg1 (v : Word) (s : State) : Effect (.wrArg1 v) s { s with arg1 := v }
  | wrStatus (v : Word) (s : State) : Effect (.wrStatus v) s (acknowledge v s)
  | wrIrqEn (v : Word) (s : State) : Effect (.wrIrqEn v) s { s with irqEn := v.extractLsb' 0 8 }
  | clear (units : BitVec 4) (s : State) : Effect (.clear units) s (cleared units s)
  | ctInv (s : State) : Effect .ctInv s { s with ct := s.ct.map CtEntry.invalidate }
  | ctLoad (len : BitVec 6) (idx : BitVec 10) (s : State) (hidx : idx.toNat < s.params.nSym) (hpos : len ≠ 0)
      (hmax : len.toNat ≤ s.params.lMax) :
      Effect (.ctLoad len idx) s { s with ct := s.ct.set idx.toNat (loadedEntry len s) }
  | heSym (sym : Sym) (s : State) (e : CtEntry) (hl : lookup s.ct sym = some e)
      (hfit : s.heQ.length + e.len.toNat ≤ s.params.qCap) :
      Effect (.heSym sym) s
        { s with heQ := s.heQ ++ e.bits, heCount := s.heCount + BitVec.ofNat 32 e.len.toNat }
  | hdRoot (idx : NodeIdx) (s : State) (hidx : idx.toNat < s.params.nNode) :
      Effect (.hdRoot idx) s { s with root := idx, cur := idx, mid := false }
  | hdNode (idx : NodeIdx) (s : State) (k : NodeKind) (hidx : idx.toNat < s.params.nNode) (hk : argKind s = some k)
      (hc : childOutOfRange s.params (argNode s k) = false) :
      Effect (.hdNode idx) s { s with node := s.node.set idx.toNat (argNode s k) }
  /-- Every bit is walked (R132). -/
  | hdBits (n : BitVec 6) (s : State) (q : List Sym) (c : NodeIdx) (m : Bool)
      (hfit : s.hdQ.length + n.toNat ≤ s.params.sqCap)
      (hw : walkBits n (argBits s n) s = { s with hdQ := q, cur := c, mid := m }) :
      Effect (.hdBits n) s { s with hdQ := q, cur := c, mid := m }
  /-- A bit has no edge: TREE (R132, R218). -/
  | hdBitsTree (n : BitVec 6) (s : State) (q : List Sym) (c : NodeIdx) (m : Bool)
      (hfit : s.hdQ.length + n.toNat ≤ s.params.sqCap)
      (hw : walkBits n (argBits s n) s =
        raise .tree (encodeCommand (.hdBits n)) { s with hdQ := q, cur := c, mid := m }) :
      Effect (.hdBits n) s (raise .tree (encodeCommand (.hdBits n)) { s with hdQ := q, cur := c, mid := m })
  | hdEndTrunc (s : State) (hm : s.mid = true) : Effect .hdEnd s (rewind (setTrunc s))
  | hdEnd (s : State) (hm : s.mid = false) : Effect .hdEnd s (rewind s)
  | ceEnc4 (d : BitVec 4) (s : State) :
      Effect (.ceEnc4 d) s { s with res := 0#25 ++ (henc (Nibble.ofField d)).toField }
  | ceBits (n : BitVec 6) (s : State) (q g : Bits) (hfit : s.ceQ.length + ceBound n s ≤ s.params.qCap)
      (hp : (argBits s n).foldl cePush s = { s with ceQ := q, ceG := g }) :
      Effect (.ceBits n) s { s with ceQ := q, ceG := g }
  | ceEndEmpty (s : State) (hg : s.ceG = []) : Effect .ceEnd s { s with cePad := 0 }
  | ceEnd (s : State) (hfit : s.ceQ.length + 7 ≤ s.params.qCap) :
      Effect .ceEnd s { s with
        ceQ := s.ceQ ++ (henc (padded s.ceG)).bits, cePad := BitVec.ofNat 2 (4 - s.ceG.length), ceG := [] }
  | cdDec7 (b : BitVec 7) (s : State) : Effect (.cdDec7 b) s { s with res := decodedWord (hdec (Block.ofField b)) }
  | cdBits (n : BitVec 6) (s : State) (q p : Bits) (hold : Option Nibble) (syn : BitVec 3) (k : Word)
      (hfit : s.cdQ.length + cdBound n s ≤ s.params.qCap)
      (hp : (argBits s n).foldl cdPush s =
        { s with cdQ := q, cdB := p, cdHold := hold, cdSyn := syn, cdNcorr := k }) :
      Effect (.cdBits n) s { s with cdQ := q, cdB := p, cdHold := hold, cdSyn := syn, cdNcorr := k }
  /-- A partial block is an error and is dropped with the hold (R172). -/
  | cdEndLength (pad : BitVec 2) (s : State) (hb : s.cdB ≠ []) :
      Effect (.cdEnd pad) s (raise .length (encodeCommand (.cdEnd pad)) { s with cdB := [], cdHold := none })
  | cdEnd (pad : BitVec 2) (s : State) (d : Nibble) (hd : s.cdHold = some d)
      (hfit : s.cdQ.length + (4 - pad.toNat) ≤ s.params.qCap) :
      Effect (.cdEnd pad) s { s with cdQ := s.cdQ ++ d.bits.take (4 - pad.toNat), cdHold := none }

/-! ## Commands -/

/-- Whenever a meaning answers a next state, that state has the property. -/
def Ensures (r : Result) (P : State → Prop) : Prop := ∀ ⦃t : State⦄, r = .next t → P t

theorem ensures_next {t : State} {P : State → Prop} (h : P t) : Ensures (.next t) P := by
  rintro _ ⟨⟩
  exact h

/-- A check ensures what each of its answers ensures, given how the check went. -/
theorem ensures_ite {p : Prop} [Decidable p] {a b : Result} {P : State → Prop} (ha : p → Ensures a P)
    (hb : ¬p → Ensures b P) : Ensures (if p then a else b) P := by
  split
  · next h => exact ha h
  · next h => exact hb h

/-- A command's error raised with no other effect. -/
theorem ensures_report {i : Instr} {e : Err} {w : Word} {s : State} (hw : encode i = .wr .cmd w)
    (he : e.reportedBy i) : Ensures (.next (raise e w s)) (Effect i s) := ensures_next (.report s w hw he)

theorem effect_execCtLoad (len : BitVec 6) (idx : BitVec 10) (s : State) :
    Ensures (execCtLoad len idx s) (Effect (.ctLoad len idx) s) := by
  have badArg : Err.badArg.reportedBy (.ctLoad len idx) := by simp [Err.reportedBy]
  refine ensures_ite (fun _ => ensures_report rfl badArg) fun hidx =>
    ensures_ite (fun _ => ensures_report rfl badArg) fun hlen => ?_
  obtain ⟨hpos, hmax⟩ := not_or.1 hlen
  exact ensures_next (.ctLoad len idx s (not_le.1 hidx) hpos (not_lt.1 hmax))

theorem effect_execHeSym (sym : Sym) (s : State) : Ensures (execHeSym sym s) (Effect (.heSym sym) s) := by
  unfold execHeSym
  split
  · exact ensures_report rfl ⟨sym, rfl⟩
  · next e hl =>
    exact ensures_ite (fun _ => ensures_report rfl (by simp [Err.reportedBy]))
      fun hfit => ensures_next (.heSym sym s e hl (not_lt.1 hfit))

theorem effect_execHdRoot (idx : NodeIdx) (s : State) : Ensures (execHdRoot idx s) (Effect (.hdRoot idx) s) :=
  ensures_ite (fun _ => ensures_report rfl (by simp [Err.reportedBy]))
    fun hidx => ensures_next (.hdRoot idx s (not_le.1 hidx))

theorem effect_execHdNode (idx : NodeIdx) (s : State) : Ensures (execHdNode idx s) (Effect (.hdNode idx) s) := by
  have badArg : Err.badArg.reportedBy (.hdNode idx) := by simp [Err.reportedBy]
  refine ensures_ite (fun _ => ensures_report rfl badArg) fun hidx => ?_
  split
  · exact ensures_report rfl badArg
  · next k hk =>
    exact ensures_ite (fun _ => ensures_report rfl badArg)
      fun hc => ensures_next (.hdNode idx s k (not_le.1 hidx) hk (Bool.eq_false_of_not_eq_true hc))

theorem effect_execHdBits (n : BitVec 6) (s : State) : Ensures (execHdBits n s) (Effect (.hdBits n) s) := by
  refine ensures_ite (fun _ => ensures_report rfl (by simp [Err.reportedBy])) fun _ =>
    ensures_ite (fun _ => ensures_report rfl (by simp [Err.reportedBy])) fun hfit => ensures_next ?_
  obtain ⟨q, c, m, hw | hw⟩ := walkBits_frame n (argBits s n) s
  · exact hw ▸ .hdBits n s q c m (not_lt.1 hfit) hw
  · exact hw ▸ .hdBitsTree n s q c m (not_lt.1 hfit) hw

theorem effect_execHdEnd (s : State) : Ensures (execHdEnd s) (Effect .hdEnd s) := by
  unfold execHdEnd
  split
  · next hm => exact ensures_next (.hdEndTrunc s hm)
  · next hm => exact ensures_next (.hdEnd s (Bool.eq_false_of_not_eq_true hm))

theorem effect_execCeBits (n : BitVec 6) (s : State) : Ensures (execCeBits n s) (Effect (.ceBits n) s) := by
  refine ensures_ite (fun _ => ensures_report rfl (by simp [Err.reportedBy])) fun _ =>
    ensures_ite (fun _ => ensures_report rfl (by simp [Err.reportedBy])) fun hfit => ensures_next ?_
  obtain ⟨q, g, hp⟩ := foldl_cePush_frame (argBits s n) s
  exact hp ▸ .ceBits n s q g (not_lt.1 hfit) hp

theorem effect_execCeEnd (s : State) : Ensures (execCeEnd s) (Effect .ceEnd s) :=
  ensures_ite (fun hg => ensures_next (.ceEndEmpty s hg)) fun _ =>
    ensures_ite (fun _ => ensures_report rfl (by simp [Err.reportedBy])) fun hfit => ensures_next (.ceEnd s (not_lt.1 hfit))

theorem effect_execCdBits (n : BitVec 6) (s : State) : Ensures (execCdBits n s) (Effect (.cdBits n) s) := by
  refine ensures_ite (fun _ => ensures_report rfl (by simp [Err.reportedBy])) fun _ =>
    ensures_ite (fun _ => ensures_report rfl (by simp [Err.reportedBy])) fun hfit => ensures_next ?_
  obtain ⟨q, p, hold, syn, k, hp⟩ := foldl_cdPush_frame (argBits s n) s
  exact hp ▸ .cdBits n s q p hold syn k (not_lt.1 hfit) hp

theorem effect_execCdEnd (pad : BitVec 2) (s : State) : Ensures (execCdEnd pad s) (Effect (.cdEnd pad) s) := by
  refine ensures_ite (fun hb => ensures_next (.cdEndLength pad s hb)) fun _ => ?_
  split
  · exact ensures_next (.idle _ s)
  · next d hd =>
    exact ensures_ite (fun _ => ensures_report rfl (by simp [Err.reportedBy]))
      fun hfit => ensures_next (.cdEnd pad s d hd (not_lt.1 hfit))

/-- What a command does (R90 to R172). -/
theorem effect_runCommand (c : Command) (s : State) : Ensures (runCommand c s) (Effect c.toInstr s) := by
  cases c with
  | nop => exact ensures_next (.idle _ s)
  | clear units =>
    rw [runCommand, execClear_eq]
    exact ensures_next (.clear units s)
  | ctInv => exact ensures_next (.ctInv s)
  | ctLoad len idx => exact effect_execCtLoad len idx s
  | heSym sym => exact effect_execHeSym sym s
  | hdRoot idx => exact effect_execHdRoot idx s
  | hdNode idx => exact effect_execHdNode idx s
  | hdBits n => exact effect_execHdBits n s
  | hdEnd => exact effect_execHdEnd s
  | ceEnc4 d => exact ensures_next (.ceEnc4 d s)
  | ceBits n => exact effect_execCeBits n s
  | ceEnd => exact effect_execCeEnd s
  | cdDec7 b => exact ensures_next (.cdDec7 b s)
  | cdBits n => exact effect_execCdBits n s
  | cdEnd pad => exact effect_execCdEnd pad s

/-! ## All instructions -/

theorem effect_execRdHdData (s : State) : Ensures (execRdHdData s) (Effect .rdHdData s) := by
  unfold execRdHdData
  split
  · exact ensures_next (.underrun s rfl (.inr (.inl rfl)))
  · next sym rest hq => exact ensures_next (.popHd s sym rest hq)

/-- A command's instruction runs the command. -/
theorem exec_toInstr (c : Command) (s : State) : exec c.toInstr s = runCommand c s := by cases c <;> rfl

/-- A write to CMD of a command's word runs the command (R26). -/
theorem exec_wrCmd_of_command {w : Word} {c : Command} (hc : decodeCommand w = .ok c) (s : State) :
    exec (.wrCmd w) s = runCommand c s := by simp [exec, execWrCmd, hc]

/-- A write to CMD of another word only raises BADCMD (R77, R78). -/
theorem exec_wrCmd_of_badWord {w : Word} {e : BadWord} (he : decodeCommand w = .error e) (s : State) :
    exec (.wrCmd w) s = .next (raise .badCmd w s) := by simp [exec, execWrCmd, he]

/-- An instruction has one of its own effects, if it is not wr CMD of a word that has a command's row (log 10). -/
theorem effect_exec {i : Instr} (s : State) (hi : ∀ w c, i = .wrCmd w → decodeCommand w ≠ .ok c) :
    Ensures (exec i s) (Effect i s) := by
  cases i with
  | nop => exact effect_runCommand .nop s
  | clear units => exact effect_runCommand (.clear units) s
  | ctInv => exact effect_runCommand .ctInv s
  | ctLoad len idx => exact effect_execCtLoad len idx s
  | heSym sym => exact effect_execHeSym sym s
  | hdRoot idx => exact effect_execHdRoot idx s
  | hdNode idx => exact effect_execHdNode idx s
  | hdBits n => exact effect_execHdBits n s
  | hdEnd => exact effect_execHdEnd s
  | ceEnc4 d => exact effect_runCommand (.ceEnc4 d) s
  | ceBits n => exact effect_execCeBits n s
  | ceEnd => exact effect_execCeEnd s
  | cdDec7 b => exact effect_runCommand (.cdDec7 b) s
  | cdBits n => exact effect_execCdBits n s
  | cdEnd pad => exact effect_execCdEnd pad s
  | reservedOpc w => exact ensures_report rfl (.inl ⟨w, rfl⟩)
  | wrCmd w =>
    cases hd : decodeCommand w with
    | ok c => exact absurd hd (hi w c rfl)
    | error e => exact (exec_wrCmd_of_badWord hd s).symm ▸ ensures_report rfl (.inr ⟨w, rfl⟩)
  | wrArg0 v => exact ensures_next (.wrArg0 v s)
  | wrArg1 v => exact ensures_next (.wrArg1 v s)
  | wrStatus v => exact ensures_next (.wrStatus v s)
  | wrIrqEn v => exact ensures_next (.wrIrqEn v s)
  | wrReadOnly r v => exact ensures_next (.idle _ s)
  | rdHeData =>
    exact ensures_ite (fun _ => ensures_next (.underrun s rfl (.inl rfl))) fun _ => ensures_next (.popHe s)
  | rdHdData => exact effect_execRdHdData s
  | rdCeData =>
    exact ensures_ite (fun _ => ensures_next (.underrun s rfl (by simp [Err.reportedBy]))) fun _ => ensures_next (.popCe s)
  | rdCdData =>
    exact ensures_ite (fun _ => ensures_next (.underrun s rfl (by simp [Err.reportedBy]))) fun _ => ensures_next (.popCd s)
  | rdArg0 | rdArg1 | rdStatus | rdIrqEn | rdId | rdParam | rdRes | rdErrCmd | rdCmd | rdHeLevel | rdHeCount
  | rdHdLevel | rdHdWalk | rdCeLevel | rdCeState | rdCdLevel | rdCdState | rdCdNcorr =>
    exact ensures_next (.answer s _ rfl)
  | reservedOffset dir off =>
    cases dir with
    | read => exact ensures_next (.answer s 0 rfl)
    | write v => exact ensures_next (.idle _ s)
  | busError a => rintro t ⟨⟩

/-- A well-formed instruction has one of its own effects (R78). -/
theorem effect_of_wellFormed {i : Instr} {s t : State} (hi : WellFormed i = true) (h : exec i s = .next t) :
    Effect i s t := by
  refine effect_exec s ?_ h
  rintro w c rfl
  cases hf : formatOf (opcOf w) with
  | none => simp [WellFormed, hf] at hi
  | some f => exact decodeCommand_reservedBit w f hf (by simpa [WellFormed, hf] using hi) c

/-- Any instruction has the effects of one row, its own or a command's (R26). -/
theorem exists_effect {i : Instr} {s t : State} (h : exec i s = .next t) :
    ∃ j, Effect j s t ∧ (j = i ∨ ∃ c : Command, j = c.toInstr) := by
  by_cases hi : ∃ w c, i = .wrCmd w ∧ decodeCommand w = .ok c
  · obtain ⟨w, c, rfl, hc⟩ := hi
    rw [exec_wrCmd_of_command hc] at h
    exact ⟨c.toInstr, effect_runCommand c s h, .inr ⟨c, rfl⟩⟩
  · exact ⟨i, effect_exec s (fun w c hw hc => hi ⟨w, c, hw, hc⟩) h, .inl rfl⟩

end Sys2Proof.Machine
end

section
/-! PROOFS. What each instruction leaves unchanged (10_state.md R27 to R38, R49, R91; 60_exceptions.md R211): the writers
of every field, read off the effects. -/

namespace Sys2Proof.Machine

variable {i : Instr} {s t : State}

/-! ## STATUS -/

/-- STATUS is written by an error's report, by HD.END's TRUNC and by the host's acknowledgement (R211, R94). -/
theorem Effect.status_writers (h : Effect i s t) :
    t.status = s.status ∨ (∃ e : Err, e.reportedBy i ∧ t.status = setBit s.status e.bit) ∨
      (i = .hdEnd ∧ t.status = setBit s.status truncBit) ∨ ∃ v, i = .wrStatus v ∧ t.status = ackBits s.status v := by
  cases h with
  | report _ _ _ he => exact .inr (.inl ⟨_, he, rfl⟩)
  | underrun _ _ he => exact .inr (.inl ⟨.underrun, he, rfl⟩)
  | hdBitsTree n => exact .inr (.inl ⟨.tree, ⟨n, rfl⟩, rfl⟩)
  | cdEndLength pad => exact .inr (.inl ⟨.length, ⟨pad, rfl⟩, rfl⟩)
  | hdEndTrunc => exact .inr (.inr (.inl ⟨rfl, rfl⟩))
  | wrStatus v => exact .inr (.inr (.inr ⟨v, rfl, rfl⟩))
  | _ => exact .inl rfl

theorem toInstr_ne_wrStatus (c : Command) (v : Word) : c.toInstr ≠ .wrStatus v := by cases c <;> rintro ⟨⟩

/-- Settles O16: a report or TRUNC keeps the bits that are set, and an acknowledgement clears those written as 1. -/
theorem statusBitsAreSticky : Obligations.StatusBitsAreSticky := by
  intro i s t k hk h hset
  obtain ⟨j, he, hj⟩ := exists_effect h
  rcases he.status_writers with hs | ⟨e, -, hs⟩ | ⟨-, hs⟩ | ⟨v, rfl, hs⟩
  · exact .inl (hs ▸ hset)
  · exact .inl (by rw [hs, setBit_getLsbD _ _ _ hk, hset, Bool.true_or])
  · exact .inl (by rw [hs, setBit_getLsbD _ _ _ hk, hset, Bool.true_or])
  · rcases hj with rfl | ⟨c, hc⟩
    · cases hv : v.getLsbD k with
      | true => exact .inr ⟨v, rfl, hv⟩
      | false => exact .inl (by rw [hs, ackBits_getLsbD _ _ _ hk, hset, hv]; rfl)
    · exact absurd hc.symm (toInstr_ne_wrStatus c v)

/-- A bit that setBit turns on is the bit it names. -/
theorem eq_of_setBit_getLsbD {st : BitVec 8} {b k : Nat} (hclear : st.getLsbD k = false)
    (hset : (setBit st b).getLsbD k = true) : k = b := by
  have hk : k < 8 := BitVec.lt_of_getLsbD hset
  simpa [setBit_getLsbD _ _ _ hk, hclear] using hset

/-- Settles O17: the bit that turned on is the code of an error the instruction reports, or TRUNC. -/
theorem statusBitsAreSetByTheirWritersOnly : Obligations.StatusBitsAreSetByTheirWritersOnly := by
  intro i s t k hi h hclear hset
  rcases (effect_of_wellFormed hi h).status_writers with hs | ⟨e, he, hs⟩ | ⟨rfl, hs⟩ | ⟨v, -, hs⟩
  · rw [hs, hclear] at hset
    cases hset
  · have hk : k = e.bit := eq_of_setBit_getLsbD hclear (hs ▸ hset)
    cases e with
    | badCmd => exact .inl ⟨hk, he⟩
    | badArg => exact .inr (.inl ⟨hk, he⟩)
    | unkSym => exact .inr (.inr (.inl ⟨hk, he⟩))
    | length => exact .inr (.inr (.inr (.inl ⟨hk, he⟩)))
    | tree => exact .inr (.inr (.inr (.inr (.inl ⟨hk, he⟩))))
    | overrun => exact .inr (.inr (.inr (.inr (.inr (.inl ⟨hk, he⟩)))))
    | underrun => exact .inr (.inr (.inr (.inr (.inr (.inr (.inl ⟨hk, he⟩))))))
  · have hk : k = truncBit := eq_of_setBit_getLsbD hclear (hs ▸ hset)
    exact .inr (.inr (.inr (.inr (.inr (.inr (.inr ⟨hk, rfl⟩))))))
  · rw [hs, ackBits_getLsbD _ _ _ (BitVec.lt_of_getLsbD hset), hclear] at hset
    cases hset

/-! ## The tables -/

theorem Effect.ct_writers (h : Effect i s t) : t.ct = s.ct ∨ i = .ctInv ∨ ∃ l x, i = .ctLoad l x := by
  cases h with
  | ctInv => exact .inr (.inl rfl)
  | ctLoad len idx => exact .inr (.inr ⟨len, idx, rfl⟩)
  | _ => exact .inl rfl

theorem Effect.node_writers (h : Effect i s t) : t.node = s.node ∨ ∃ x, i = .hdNode x := by
  cases h with
  | hdNode idx => exact .inr ⟨idx, rfl⟩
  | _ => exact .inl rfl

theorem Effect.root_writers (h : Effect i s t) : t.root = s.root ∨ ∃ x, i = .hdRoot x := by
  cases h with
  | hdRoot idx => exact .inr ⟨idx, rfl⟩
  | _ => exact .inl rfl

/-- Settles O19, from the writers of each table and of root. -/
theorem tablesAreWrittenByTheirCommandsOnly : Obligations.TablesAreWrittenByTheirCommandsOnly := by
  intro i s t hi h
  have he := effect_of_wellFormed hi h
  exact ⟨he.ct_writers.resolve_left, he.node_writers.resolve_left, he.root_writers.resolve_left⟩

/-! ## Operands, results, and the model's own fields -/

theorem Effect.arg0_writers (h : Effect i s t) : t.arg0 = s.arg0 ∨ ∃ v, i = .wrArg0 v := by
  cases h with
  | wrArg0 v => exact .inr ⟨v, rfl⟩
  | _ => exact .inl rfl

theorem Effect.arg1_writers (h : Effect i s t) : t.arg1 = s.arg1 ∨ ∃ v, i = .wrArg1 v := by
  cases h with
  | wrArg1 v => exact .inr ⟨v, rfl⟩
  | _ => exact .inl rfl

theorem Effect.res_writers (h : Effect i s t) : t.res = s.res ∨ (∃ d, i = .ceEnc4 d) ∨ ∃ b, i = .cdDec7 b := by
  cases h with
  | ceEnc4 d => exact .inr (.inl ⟨d, rfl⟩)
  | cdDec7 b => exact .inr (.inr ⟨b, rfl⟩)
  | _ => exact .inl rfl

theorem Effect.irqEn_writers (h : Effect i s t) : t.irqEn = s.irqEn ∨ ∃ v, i = .wrIrqEn v := by
  cases h with
  | wrIrqEn v => exact .inr ⟨v, rfl⟩
  | _ => exact .inl rfl

theorem Effect.params_kept (h : Effect i s t) : t.params = s.params := by cases h <;> rfl

theorem Effect.port_kept (h : Effect i s t) : t.port = s.port := by cases h <;> rfl

theorem Effect.reads_writers (h : Effect i s t) :
    t.reads = s.reads ∨ ∃ off v, encode i = .read 32 off ∧ t.reads = s.reads ++ [v] := by
  cases h with
  | answer _ v hr => exact .inr ⟨_, v, hr, rfl⟩
  | underrun _ hr => exact .inr ⟨_, 0, hr, rfl⟩
  | popHe | popHd | popCe | popCd => exact .inr ⟨_, _, rfl, rfl⟩
  | _ => exact .inl rfl

/-- Settles O20, from the writers of each register and of the model's own fields. -/
theorem operandAndResultRegistersHaveOneWriter : Obligations.OperandAndResultRegistersHaveOneWriter := by
  intro i s t hi h
  have he := effect_of_wellFormed hi h
  exact ⟨he.arg0_writers.resolve_left, he.arg1_writers.resolve_left, he.res_writers.resolve_left,
    he.irqEn_writers.resolve_left, he.params_kept, he.port_kept, he.reads_writers.resolve_left⟩

/-! ## The four units -/

theorem Effect.he_writers (h : Effect i s t) : (t.heQ, t.heCount) = (s.heQ, s.heCount) ∨
    (∃ x, i = .heSym x) ∨ i = .rdHeData ∨ ∃ u, i = .clear u ∧ u.getLsbD 0 = true := by
  cases h with
  | heSym sym => exact .inr (.inl ⟨sym, rfl⟩)
  | popHe => exact .inr (.inr (.inl rfl))
  | clear units =>
    cases hu : units.getLsbD 0 with
    | true => exact .inr (.inr (.inr ⟨units, rfl, hu⟩))
    | false => exact .inl (by simp only [cleared, hu, Bool.false_eq_true, if_false])
  | _ => exact .inl rfl

theorem Effect.hd_writers (h : Effect i s t) : (t.hdQ, t.cur, t.mid) = (s.hdQ, s.cur, s.mid) ∨
    (∃ x, i = .hdRoot x) ∨ (∃ n, i = .hdBits n) ∨ i = .hdEnd ∨ i = .rdHdData ∨
      ∃ u, i = .clear u ∧ u.getLsbD 1 = true := by
  cases h with
  | hdRoot idx => exact .inr (.inl ⟨idx, rfl⟩)
  | hdBits n | hdBitsTree n => exact .inr (.inr (.inl ⟨n, rfl⟩))
  | hdEnd | hdEndTrunc => exact .inr (.inr (.inr (.inl rfl)))
  | popHd => exact .inr (.inr (.inr (.inr (.inl rfl))))
  | clear units =>
    cases hu : units.getLsbD 1 with
    | true => exact .inr (.inr (.inr (.inr (.inr ⟨units, rfl, hu⟩))))
    | false => exact .inl (by simp only [cleared, hu, Bool.false_eq_true, if_false])
  | _ => exact .inl rfl

theorem Effect.ce_writers (h : Effect i s t) : (t.ceQ, t.ceG, t.cePad) = (s.ceQ, s.ceG, s.cePad) ∨
    (∃ n, i = .ceBits n) ∨ i = .ceEnd ∨ i = .rdCeData ∨ ∃ u, i = .clear u ∧ u.getLsbD 2 = true := by
  cases h with
  | ceBits n => exact .inr (.inl ⟨n, rfl⟩)
  | ceEnd | ceEndEmpty => exact .inr (.inr (.inl rfl))
  | popCe => exact .inr (.inr (.inr (.inl rfl)))
  | clear units =>
    cases hu : units.getLsbD 2 with
    | true => exact .inr (.inr (.inr (.inr ⟨units, rfl, hu⟩)))
    | false => exact .inl (by simp only [cleared, hu, Bool.false_eq_true, if_false])
  | _ => exact .inl rfl

theorem Effect.cd_writers (h : Effect i s t) :
    (t.cdQ, t.cdB, t.cdHold, t.cdSyn, t.cdNcorr) = (s.cdQ, s.cdB, s.cdHold, s.cdSyn, s.cdNcorr) ∨
    (∃ n, i = .cdBits n) ∨ (∃ p, i = .cdEnd p) ∨ i = .rdCdData ∨ ∃ u, i = .clear u ∧ u.getLsbD 3 = true := by
  cases h with
  | cdBits n => exact .inr (.inl ⟨n, rfl⟩)
  | cdEnd pad | cdEndLength pad => exact .inr (.inr (.inl ⟨pad, rfl⟩))
  | popCd => exact .inr (.inr (.inr (.inl rfl)))
  | clear units =>
    cases hu : units.getLsbD 3 with
    | true => exact .inr (.inr (.inr (.inr ⟨units, rfl, hu⟩)))
    | false => exact .inl (by simp only [cleared, hu, Bool.false_eq_true, if_false])
  | _ => exact .inl rfl

/-- Settles O21, from the writers of each unit's stream state. -/
theorem unitsDoNotTouchEachOther : Obligations.UnitsDoNotTouchEachOther := by
  intro i s t hi h
  have he := effect_of_wellFormed hi h
  exact ⟨he.he_writers.resolve_left, he.hd_writers.resolve_left, he.ce_writers.resolve_left,
    he.cd_writers.resolve_left⟩

end Sys2Proof.Machine
end

section
/-! PROOFS. Every step keeps the invariant (10_state.md R46, with R30, R33 and 60_exceptions.md R217). -/

namespace Sys2Proof.Machine

variable {i : Instr} {s t : State}

/-! ## The tables -/

/-- A code cut to len bits is below 2^len (R111). -/
theorem argCode_lt (s : State) (len : BitVec 6) : (argCode s len).toNat < 2 ^ len.toNat := by
  have hle : 2 ^ len.toNat - 1 < 2 ^ len.toNat := Nat.sub_lt (Nat.two_pow_pos _) Nat.one_pos
  calc (argCode s len).toNat
      ≤ (BitVec.ofNat 32 (2 ^ len.toNat - 1)).toNat := Nat.and_le_right
    _ ≤ 2 ^ len.toNat - 1 := by rw [BitVec.toNat_ofNat]; exact Nat.mod_le _ _
    _ < 2 ^ len.toNat := hle

/-- CT.INV leaves no valid entry (R110). -/
theorem inv_ctInv (h : s.Inv) : ({ s with ct := s.ct.map CtEntry.invalidate } : State).Inv :=
  { h with
    ct_size := (List.length_map _).trans h.ct_size
    ct_codes := by
      intro e he hv
      obtain ⟨e', -, rfl⟩ := List.mem_map.1 he
      cases hv }

/-- CT.LOAD writes an entry of legal length with no bit above it (R111). -/
theorem inv_ctLoad (h : s.Inv) (len : BitVec 6) (k : Nat) (hpos : len ≠ 0) (hmax : len.toNat ≤ s.params.lMax) :
    ({ s with ct := s.ct.set k (loadedEntry len s) } : State).Inv :=
  { h with
    ct_size := List.length_set.trans h.ct_size
    ct_codes := by
      intro e he hv
      rcases List.mem_or_eq_of_mem_set he with hmem | rfl
      · exact h.ct_codes e hmem hv
      · exact ⟨Nat.pos_of_ne_zero fun h0 => hpos (BitVec.eq_of_toNat_eq h0), hmax, argCode_lt s len⟩ }

/-- A node whose present children passed the range check (R131). -/
theorem children_in_arena {p : Params} {e : NodeEntry} (hc : childOutOfRange p e = false) (hk : e.kind = .internal) :
    (e.lv = true → e.left.toNat < p.nNode) ∧ (e.rv = true → e.right.toNat < p.nNode) := by
  simpa [childOutOfRange, hk] using hc

theorem inv_hdNode (h : s.Inv) (k : Nat) (e : NodeEntry) (hc : childOutOfRange s.params e = false) :
    ({ s with node := s.node.set k e } : State).Inv :=
  { h with
    node_size := List.length_set.trans h.node_size
    node_children := by
      intro e' he hk
      rcases List.mem_or_eq_of_mem_set he with hmem | rfl
      · exact h.node_children e' hmem hk
      · exact children_in_arena hc hk }

/-! ## HD -/

/-- The walker back at root (R133). -/
theorem inv_rewind (h : s.Inv) : (rewind s).Inv :=
  { h with
    at_root := fun _ => rfl
    cur_in_arena := h.root_in_arena }

/-- The edge of a node the arena shows leads into the arena (R33). -/
theorem edge_in_arena (h : s.Inv) {i j : NodeIdx} {b : Bool} (he : edge (nodeAt s i) b = some j) :
    j.toNat < s.params.nNode := by
  obtain ⟨hk, hedge⟩ := (edge_eq_some _ _ _).1 he
  have hmem : nodeAt s i ∈ s.node := by
    unfold nodeAt at hk ⊢
    cases hn : s.node[i.toNat]? with
    | none => simp [hn, NodeEntry.atReset] at hk
    | some e => exact List.mem_of_getElem? hn
  obtain ⟨hleft, hright⟩ := h.node_children _ hmem hk
  rcases hedge with ⟨-, hv, rfl⟩ | ⟨-, hv, rfl⟩
  · exact hright hv
  · exact hleft hv

/-- One bit keeps the invariant while the symbol queue has room, and appends at most one symbol (R133). -/
theorem inv_walk (h : s.Inv) (b : Bool) (hroom : s.hdQ.length + 1 ≤ s.params.sqCap) :
    (walk b s).1.Inv ∧ (walk b s).1.hdQ.length ≤ s.hdQ.length + 1 ∧ (walk b s).1.params = s.params := by
  rcases walk_cases b s with ⟨hw, -⟩ | ⟨j, -, -, hw⟩ | ⟨j, he, -, hw⟩ <;> rw [hw]
  · exact ⟨inv_rewind h, Nat.le_succ _, rfl⟩
  · have hq : (s.hdQ ++ [(nodeAt s j).sym]).length = s.hdQ.length + 1 := List.length_append
    exact ⟨inv_rewind { h with hdQ_fits := hq ▸ hroom }, hq.le, rfl⟩
  · exact ⟨{ h with
      at_root := nofun
      cur_in_arena := edge_in_arena h he }, Nat.le_succ _, rfl⟩

/-- The loop of HD.BITS, when the queue has room for a symbol per bit (R132, R217). -/
theorem inv_walkBits (n : BitVec 6) (bs : Bits) (s : State) (h : s.Inv)
    (hroom : s.hdQ.length + bs.length ≤ s.params.sqCap) : (walkBits n bs s).Inv := by
  induction bs generalizing s with
  | nil => exact h
  | cons b bs ih =>
    rw [List.length_cons] at hroom
    obtain ⟨hinv, hlen, hparams⟩ := inv_walk h b (by omega)
    rcases hw : walk b s with ⟨t, ok⟩
    rw [hw] at hinv hlen hparams
    cases ok
    · rw [walkBits_cons_fail n b bs s t hw]
      exact { hinv with }
    · rw [walkBits_cons_ok n b bs s t hw]
      exact ih t hinv (by rw [hparams]; simp only at hlen; omega)

/-! ## CE and CD -/

/-- Seven coded bits per complete group (R151). -/
theorem encodeGroups_length : ∀ bs : Bits, (encodeGroups bs).length = 7 * (bs.length / 4)
  | d1 :: d2 :: d3 :: d4 :: rest => by
    rw [encodeGroups_group, List.length_append, Block.bits_length, encodeGroups_length rest]
    simp only [List.length_cons]
    omega
  | [] | [_] | [_, _] | [_, _, _] => by simp [encodeGroups_short]

/-- CE.BITS fills the queue by exactly its bound (R217), and leaves the remainder in the group. -/
theorem inv_cePush (h : s.Inv) (n : BitVec 6) (hfit : s.ceQ.length + ceBound n s ≤ s.params.qCap) :
    ((argBits s n).foldl cePush s).Inv := by
  have hn : (argBits s n).length = n.toNat := unpack_length _ _
  rw [foldl_cePush _ _ h.ceG_short]
  exact { h with
    ceQ_fits := by
      rw [ceBound] at hfit
      simpa [encodeGroups_length, hn] using hfit
    ceG_short := by
      simp only [List.length_drop, List.length_append]
      omega }

/-- One data nibble is held per block, and the one before it is released (R171). -/
theorem foldl_cdBlock_cdQ_length (bs : List Block) (s : State) :
    (bs.foldl (fun s b => cdBlock b s) s).cdQ.length ≤ s.cdQ.length + 4 * bs.length := by
  induction bs generalizing s with
  | nil => exact Nat.le_refl _
  | cons b bs ih =>
    have hb : (cdBlock b s).cdQ.length ≤ s.cdQ.length + 4 := by
      rw [cdBlock_cdQ, List.length_append]
      cases s.cdHold <;> simp [holdBits, Nibble.bits]
    have := ih (cdBlock b s)
    rw [List.foldl_cons, List.length_cons]
    omega

/-- One block per seven bits (R171). -/
theorem blocksOf_length : ∀ bs : Bits, (blocksOf bs).length = bs.length / 7
  | b1 :: b2 :: b3 :: b4 :: b5 :: b6 :: b7 :: rest => by
    rw [blocksOf_block, List.length_cons, blocksOf_length rest]
    simp only [List.length_cons]
    omega
  | [] | [_] | [_, _] | [_, _, _] | [_, _, _, _] | [_, _, _, _, _] | [_, _, _, _, _, _] => by simp [blocksOf_short]

/-- CD.BITS leaves the queue within its bound (R217), and the remainder in the partial block. -/
theorem cdPush_lengths (bs : Bits) (s : State) (h : s.cdB.length ≤ 6) :
    (bs.foldl cdPush s).cdQ.length ≤ s.cdQ.length + 4 * ((s.cdB.length + bs.length) / 7) ∧
      (bs.foldl cdPush s).cdB.length ≤ 6 := by
  rw [foldl_cdPush bs s h]
  constructor
  · simpa [blocksOf_length] using foldl_cdBlock_cdQ_length (blocksOf (s.cdB ++ bs)) s
  · simp only [List.length_drop, List.length_append]
    omega

/-! ## All effects -/

/-- A unit's update keeps the invariant whether it is selected or not. -/
theorem inv_onUnit {f : State → State} (hf : ∀ {s : State}, s.Inv → (f s).Inv) (selected : Bool) (h : s.Inv) :
    (onUnit selected f s).Inv := by
  cases selected
  · exact h
  · exact hf h

/-- CLEAR empties queues and takes the walker to root (R91). -/
theorem inv_cleared (h : s.Inv) (units : BitVec 4) : (cleared units s).Inv := by
  have he {s : State} (h : s.Inv) : (clearHe s).Inv := { h with heQ_fits := Nat.zero_le _ }
  have hd {s : State} (h : s.Inv) : (clearHd s).Inv :=
    { h with hdQ_fits := Nat.zero_le _, at_root := fun _ => rfl, cur_in_arena := h.root_in_arena }
  have ce {s : State} (h : s.Inv) : (clearCe s).Inv := { h with ceQ_fits := Nat.zero_le _, ceG_short := Nat.zero_le _ }
  have cd {s : State} (h : s.Inv) : (clearCd s).Inv := { h with cdQ_fits := Nat.zero_le _, cdB_short := Nat.zero_le _ }
  rw [cleared_eq]
  exact inv_onUnit cd _ (inv_onUnit ce _ (inv_onUnit hd _ (inv_onUnit he _ h)))

/-- Every effect keeps the invariant. -/
theorem Effect.inv (he : Effect i s t) (h : s.Inv) : t.Inv := by
  cases he with
  | idle | report | answer | underrun | wrArg0 | wrArg1 | wrStatus | wrIrqEn | ceEnc4 | cdDec7 | ceEndEmpty =>
    exact { h with }
  | popHe => exact { h with heQ_fits := (List.drop_sublist 32 _).length_le.trans h.heQ_fits }
  | popHd _ sym rest hq =>
    have hrest : rest.length ≤ s.hdQ.length := hq ▸ Nat.le_succ _
    exact { h with hdQ_fits := hrest.trans h.hdQ_fits }
  | popCe => exact { h with ceQ_fits := (List.drop_sublist 32 _).length_le.trans h.ceQ_fits }
  | popCd => exact { h with cdQ_fits := (List.drop_sublist 32 _).length_le.trans h.cdQ_fits }
  | clear units => exact inv_cleared h units
  | ctInv => exact inv_ctInv h
  | ctLoad len idx _ _ hpos hmax => exact inv_ctLoad h len _ hpos hmax
  | heSym sym _ e _ hfit => exact { h with heQ_fits := by simpa using hfit }
  | hdRoot idx _ hidx => exact { h with at_root := fun _ => rfl, cur_in_arena := hidx, root_in_arena := hidx }
  | hdNode idx _ k _ _ hc => exact inv_hdNode h _ _ hc
  | hdBits n _ q c m hfit hw => exact hw ▸ inv_walkBits n _ s h (by rwa [argBits, unpack_length])
  | hdBitsTree n _ q c m hfit hw => exact hw ▸ inv_walkBits n _ s h (by rwa [argBits, unpack_length])
  | hdEndTrunc => exact inv_rewind { h with }
  | hdEnd => exact inv_rewind h
  | ceBits n _ q g hfit hp => exact hp ▸ inv_cePush h n hfit
  | ceEnd _ hfit =>
    exact { h with
      ceQ_fits := by simpa using hfit
      ceG_short := Nat.zero_le _ }
  | cdBits n _ q p hold syn k hfit hp =>
    obtain ⟨hq, hb⟩ := cdPush_lengths (argBits s n) s h.cdB_short
    rw [hp, argBits, unpack_length] at hq
    rw [hp] at hb
    exact { h with
      cdQ_fits := hq.trans hfit
      cdB_short := hb }
  | cdEndLength => exact { h with cdB_short := Nat.zero_le _ }
  | cdEnd pad _ d _ hfit =>
    have hlen : (s.cdQ ++ d.bits.take (4 - pad.toNat)).length ≤ s.cdQ.length + (4 - pad.toNat) := by
      rw [List.length_append]
      exact Nat.add_le_add_left (List.length_take_le _ _) _
    exact { h with cdQ_fits := hlen.trans hfit }

/-- Settles O10: an idle step changes nothing, an access has one of the effects, a reset gives the reset state. -/
theorem stepKeepsTheInvariant : Obligations.StepKeepsTheInvariant := by
  intro s t h hstep
  rcases step_cases hstep with ⟨-, rfl⟩ | ⟨a, rest, -, he⟩ | ⟨rest, -, rfl⟩
  · exact h
  · obtain ⟨j, he, -⟩ := exists_effect he
    exact he.inv { h with }
  · exact { resetOf_inv s.params h.params_legal with }

end Sys2Proof.Machine
end

section
/-! PROOFS. Nothing an access does depends on STATUS, IRQ_EN or ERR_CMD, except those registers (10_state.md R49,
60_exceptions.md R212): every meaning does the same, flags apart, when the flags are blanked before it. -/

namespace Sys2Proof.Machine

/-! ## What the meanings branch on is no flag -/

theorem withoutFlags_ct (s : State) : (withoutFlags s).ct = s.ct := rfl
theorem withoutFlags_hdQ (s : State) : (withoutFlags s).hdQ = s.hdQ := rfl
theorem withoutFlags_cur (s : State) : (withoutFlags s).cur = s.cur := rfl
theorem withoutFlags_mid (s : State) : (withoutFlags s).mid = s.mid := rfl
theorem withoutFlags_ceG (s : State) : (withoutFlags s).ceG = s.ceG := rfl
theorem withoutFlags_cdB (s : State) : (withoutFlags s).cdB = s.cdB := rfl
theorem withoutFlags_cdHold (s : State) : (withoutFlags s).cdHold = s.cdHold := rfl
theorem nodeAt_withoutFlags (s : State) (i : NodeIdx) : nodeAt (withoutFlags s) i = nodeAt s i := rfl
theorem argKind_withoutFlags (s : State) : argKind (withoutFlags s) = argKind s := rfl

/-- An answer with the flags of its next state blanked. -/
def blanked : Result → Result
  | .next t => .next (withoutFlags t)
  | .fault r => .fault r
  | .refused r => .refused r

/-- A meaning that does the same, flags apart, from a state and from the state without its flags. -/
def FlagBlind (f : State → Result) : Prop := ∀ s, blanked (f (withoutFlags s)) = blanked (f s)

theorem blanked_next {t t' : State} (h : withoutFlags t = withoutFlags t') :
    blanked (.next t) = blanked (.next t') := congrArg Host.Outcome.next h

/-- A check whose condition reads no flag. -/
theorem blanked_ite {p : Prop} [Decidable p] {a a' b b' : Result} (ha : blanked a = blanked a')
    (hb : blanked b = blanked b') : blanked (if p then a else b) = blanked (if p then a' else b') := by
  split
  · exact ha
  · exact hb

/-! ## The loops -/

theorem walk_withoutFlags (b : Bool) (s : State) :
    walk b (withoutFlags s) = (withoutFlags (walk b s).1, (walk b s).2) := by
  simp only [walk, nodeAt_withoutFlags, withoutFlags_cur]
  split
  · rfl
  · split <;> rfl

theorem walkBits_withoutFlags (n : BitVec 6) (bs : Bits) (s : State) :
    withoutFlags (walkBits n bs (withoutFlags s)) = withoutFlags (walkBits n bs s) := by
  induction bs generalizing s with
  | nil => rfl
  | cons b bs ih =>
    have hb := walk_withoutFlags b s
    rcases hw : walk b s with ⟨t, ok⟩
    rw [hw] at hb
    cases ok
    · rw [walkBits_cons_fail n b bs _ _ hb, walkBits_cons_fail n b bs s t hw]
      rfl
    · rw [walkBits_cons_ok n b bs _ _ hb, walkBits_cons_ok n b bs s t hw]
      exact ih t

theorem cePush_withoutFlags (s : State) (b : Bool) : cePush (withoutFlags s) b = withoutFlags (cePush s b) := by
  unfold cePush
  rw [withoutFlags_ceG]
  split <;> rfl

theorem cdPush_withoutFlags (s : State) (b : Bool) : cdPush (withoutFlags s) b = withoutFlags (cdPush s b) := by
  unfold cdPush
  rw [withoutFlags_cdB]
  split <;> rfl

/-- A loop whose every turn ignores the flags ignores them. -/
theorem foldl_withoutFlags {f : State → Bool → State} (hf : ∀ s b, f (withoutFlags s) b = withoutFlags (f s b))
    (bs : Bits) (s : State) : withoutFlags (bs.foldl f (withoutFlags s)) = withoutFlags (bs.foldl f s) := by
  rw [List.foldl_hom withoutFlags hf]
  rfl

/-! ## Commands -/

theorem flagBlind_execHeSym (sym : Sym) : FlagBlind (execHeSym sym) := by
  intro s
  unfold execHeSym
  rw [withoutFlags_ct]
  split
  · rfl
  · exact blanked_ite rfl rfl

theorem flagBlind_execHdNode (idx : NodeIdx) : FlagBlind (execHdNode idx) := by
  intro s
  refine blanked_ite rfl ?_
  rw [argKind_withoutFlags]
  split
  · rfl
  · exact blanked_ite rfl rfl

theorem flagBlind_execHdEnd : FlagBlind execHdEnd := by
  intro s
  unfold execHdEnd
  rw [withoutFlags_mid]
  split <;> rfl

theorem flagBlind_execCdEnd (pad : BitVec 2) : FlagBlind (execCdEnd pad) := by
  intro s
  refine blanked_ite rfl ?_
  rw [withoutFlags_cdHold]
  split
  · rfl
  · exact blanked_ite rfl rfl

theorem flagBlind_runCommand (c : Command) : FlagBlind (runCommand c) := by
  intro s
  cases c with
  | nop | ctInv | ceEnc4 | cdDec7 => rfl
  | clear units =>
    simp only [runCommand, execClear_eq]
    rfl
  | ctLoad len idx => exact blanked_ite rfl (blanked_ite rfl rfl)
  | heSym sym => exact flagBlind_execHeSym sym s
  | hdRoot idx => exact blanked_ite rfl rfl
  | hdNode idx => exact flagBlind_execHdNode idx s
  | hdBits n => exact blanked_ite rfl (blanked_ite rfl (blanked_next (walkBits_withoutFlags n (argBits s n) s)))
  | hdEnd => exact flagBlind_execHdEnd s
  | ceBits n =>
    exact blanked_ite rfl (blanked_ite rfl (blanked_next (foldl_withoutFlags cePush_withoutFlags (argBits s n) s)))
  | ceEnd => exact blanked_ite rfl (blanked_ite rfl rfl)
  | cdBits n =>
    exact blanked_ite rfl (blanked_ite rfl (blanked_next (foldl_withoutFlags cdPush_withoutFlags (argBits s n) s)))
  | cdEnd pad => exact flagBlind_execCdEnd pad s

/-! ## All instructions -/

theorem flagBlind_execWrCmd (w : Word) : FlagBlind (execWrCmd w) := by
  intro s
  unfold execWrCmd
  split
  · exact flagBlind_runCommand _ s
  · rfl

theorem flagBlind_execRdHdData : FlagBlind execRdHdData := by
  intro s
  unfold execRdHdData
  rw [withoutFlags_hdQ]
  split <;> rfl

theorem flagBlind_execReservedOffset (dir : Dir) (off : Offset) : FlagBlind (execReservedOffset dir off) := by
  intro s
  cases dir <;> rfl

/-- Every instruction but the reads of the three flag registers is blind to them (R49, R212). -/
theorem flagBlind_exec (i : Instr) (hst : i ≠ .rdStatus) (hirq : i ≠ .rdIrqEn) (herr : i ≠ .rdErrCmd) :
    FlagBlind (exec i) := by
  cases i with
  | nop => exact flagBlind_runCommand .nop
  | clear units => exact flagBlind_runCommand (.clear units)
  | ctInv => exact flagBlind_runCommand .ctInv
  | ctLoad len idx => exact flagBlind_runCommand (.ctLoad len idx)
  | heSym sym => exact flagBlind_runCommand (.heSym sym)
  | hdRoot idx => exact flagBlind_runCommand (.hdRoot idx)
  | hdNode idx => exact flagBlind_runCommand (.hdNode idx)
  | hdBits n => exact flagBlind_runCommand (.hdBits n)
  | hdEnd => exact flagBlind_runCommand .hdEnd
  | ceEnc4 d => exact flagBlind_runCommand (.ceEnc4 d)
  | ceBits n => exact flagBlind_runCommand (.ceBits n)
  | ceEnd => exact flagBlind_runCommand .ceEnd
  | cdDec7 b => exact flagBlind_runCommand (.cdDec7 b)
  | cdBits n => exact flagBlind_runCommand (.cdBits n)
  | cdEnd pad => exact flagBlind_runCommand (.cdEnd pad)
  | wrCmd w => exact flagBlind_execWrCmd w
  | rdStatus => exact absurd rfl hst
  | rdIrqEn => exact absurd rfl hirq
  | rdErrCmd => exact absurd rfl herr
  | rdHdData => exact flagBlind_execRdHdData
  | rdHeData | rdCeData | rdCdData => exact fun s => blanked_ite rfl rfl
  | reservedOffset dir off => exact flagBlind_execReservedOffset dir off
  | reservedOpc | wrArg0 | wrArg1 | wrStatus | wrIrqEn | wrReadOnly | busError => exact fun s => rfl
  | rdArg0 | rdArg1 | rdId | rdParam | rdRes | rdCmd | rdHeLevel | rdHeCount | rdHdLevel | rdHdWalk | rdCeLevel
  | rdCeState | rdCdLevel | rdCdState | rdCdNcorr => exact fun s => rfl

/-- An answer that is a next state, flags apart, is one. -/
theorem next_of_blanked_eq {r : Result} {t : State} (h : blanked r = blanked (.next t)) :
    ∃ t', r = .next t' ∧ withoutFlags t = withoutFlags t' := by
  cases r with
  | next t' => exact ⟨t', rfl, (next_inj.1 h).symm⟩
  | fault | refused => cases h

/-- Settles O22: both states do what the one without flags does. -/
theorem flagsDoNotSteerAnyAccess : Obligations.FlagsDoNotSteerAnyAccess := by
  intro i s₁ s₂ t₁ hst hirq herr hsame h
  have hblind := flagBlind_exec i hst hirq herr
  refine next_of_blanked_eq ?_
  calc blanked (exec i s₂) = blanked (exec i (withoutFlags s₂)) := (hblind s₂).symm
    _ = blanked (exec i (withoutFlags s₁)) := by rw [hsame]
    _ = blanked (exec i s₁) := hblind s₁
    _ = blanked (.next t₁) := by rw [h]

end Sys2Proof.Machine
end

section
/-! PROOFS. The registers of 10_state.md: STATUS (R25), CMD (R26), the identification registers (R22, R23), and what reset
leaves (R48, 70_reset_and_hazards.md R240). -/

namespace Sys2Proof.Machine

/-! ## STATUS -/

/-- ANYERR is the OR of bits 6 to 0 (R25). -/
theorem anyErr_iff (st : BitVec 8) : anyErr st = true ↔ ∃ k, k < 7 ∧ st.getLsbD k = true := by
  rw [anyErr, bne_iff_ne, Ne, BitVec.eq_of_getLsbD_eq_iff]
  simp only [BitVec.getLsbD_extractLsb', BitVec.getLsbD_zero, not_forall, Nat.zero_add, Bool.and_eq_false_imp,
    decide_eq_true_eq, Bool.not_eq_false, exists_prop, and_self_left]

/-- The STATUS word: ANYERR over zeros over STATUS (R25). -/
theorem statusWord_fields (s : State) :
    (statusWord s).extractLsb' 0 8 = s.status ∧ (statusWord s).extractLsb' 8 23 = 0#23 ∧
      (statusWord s).getLsbD 31 = anyErr s.status := by
  refine ⟨BitVec.extractLsb'_append_eq_right, ?_, ?_⟩
  · exact (BitVec.extractLsb'_append_eq_of_le (le_refl 8)).trans BitVec.extractLsb'_append_eq_right
  · exact BitVec.getLsbD_append.trans (BitVec.getLsbD_append.trans (by simp))

/-- Settles O23: the write is an acknowledgement, the read answers the word of R25. -/
theorem statusReadAndAcknowledge : Obligations.StatusReadAndAcknowledge := by
  intro s v
  obtain ⟨hstatus, hzero, hany⟩ := statusWord_fields s
  exact ⟨⟨ackBits s.status v, rfl, ackBits_getLsbD s.status v⟩,
    statusWord s, rfl, hstatus, hzero, by rw [hany, anyErr_iff]⟩

/-! ## CMD -/

/-- Settles O14: a command's word runs the command, and another word raises BADCMD whatever its row. -/
theorem writeCmdExecutesTheWord : Obligations.WriteCmdExecutesTheWord := by
  intro w s
  refine ⟨?_, completes_execWrCmd w s, rfl⟩
  unfold decodeCmdWrite
  split
  · next c hc => rw [exec_wrCmd_of_command hc, exec_toInstr]
  · next he => exact exec_wrCmd_of_badWord he s
  · rfl

/-! ## ID and PARAM -/

/-- The fields of PARAM (R23). -/
theorem paramWord_fields (p : Params) :
    (paramWord p).extractLsb' 0 4 = BitVec.ofNat 4 p.symIdxW ∧ (paramWord p).extractLsb' 4 4 = BitVec.ofNat 4 p.nodeW ∧
      (paramWord p).extractLsb' 8 6 = BitVec.ofNat 6 p.lMax ∧ (paramWord p).extractLsb' 14 2 = 0#2 ∧
      (paramWord p).extractLsb' 16 4 = BitVec.ofNat 4 p.qCapLog2 ∧
      (paramWord p).extractLsb' 20 4 = BitVec.ofNat 4 p.sqCapLog2 ∧ (paramWord p).extractLsb' 24 8 = 0#8 := by
  refine ⟨?_, ?_, ?_, ?_, ?_, ?_, ?_⟩ <;>
    simp (disch := omega) only [paramWord, BitVec.extractLsb'_append_eq_right, BitVec.extractLsb'_append_eq_of_le,
      Nat.reduceSub, BitVec.extractLsb'_eq_self]

theorem paramWord_default : paramWord Params.default = 0x00582098#32 := by decide

/-- A legal parameter fits its field of PARAM (R8, R23). -/
theorem legal_fits {p : Params} (h : p.legal = true) :
    p.symIdxW < 2 ^ 4 ∧ p.nodeW < 2 ^ 4 ∧ p.lMax < 2 ^ 6 ∧ p.qCapLog2 < 2 ^ 4 ∧ p.sqCapLog2 < 2 ^ 4 := by
  simp only [Params.legal, Bool.and_eq_true, decide_eq_true_eq] at h
  omega

/-- Settles O48: the words of ID and PARAM, each parameter within its field. -/
theorem identificationReads : Obligations.IdentificationReads := by
  intro s
  refine ⟨rfl, fun hlegal => ⟨paramWord s.params, rfl, ?_⟩, fun hdefault => ?_⟩
  · obtain ⟨hsym, hnode, hlMax, hzero, hq, hsq, htop⟩ := paramWord_fields s.params
    obtain ⟨fsym, fnode, flMax, fq, fsq⟩ := legal_fits hlegal
    rw [hsym, hnode, hlMax, hq, hsq]
    exact ⟨Nat.mod_eq_of_lt fsym, Nat.mod_eq_of_lt fnode, Nat.mod_eq_of_lt flMax, hzero, Nat.mod_eq_of_lt fq,
      Nat.mod_eq_of_lt fsq, htop⟩
  · have hword : paramWord s.params = 0x00582098#32 := hdefault ▸ paramWord_default
    exact congrArg (fun w => (.next (respond w s) : Result)) hword

/-! ## Reset -/

theorem resetOf_ct_invalid (p : Params) : ∀ e ∈ (State.resetOf p).ct, e.v = false := by
  intro e he
  rw [List.eq_of_mem_replicate he]
  rfl

theorem resetOf_node_invalid (p : Params) : ∀ e ∈ (State.resetOf p).node, e.kind = .invalid := by
  intro e he
  rw [List.eq_of_mem_replicate he]
  rfl

/-- With no STATUS bit set the interrupt line is deasserted (R220). -/
theorem irq_of_status_zero {s : State} (h : s.status = 0) : s.irq = false := by simp [State.irq, h]

/-- A reset at the port leaves the port and resets every element (R240). -/
theorem step_reset {s : State} {rest : List Event} (h : s.port = .reset :: rest) :
    step s = .next (hardReset { s with port := rest }) := by simp [step, h]

/-- Settles O7, a reset gives the reset state of the parameters. -/
theorem resetSignalRestoresResetValues : Obligations.ResetSignalRestoresResetValues := by
  intro s rest h
  exact ⟨_, step_reset h, rfl, rfl, rfl, rfl, rfl, rfl, resetOf_ct_invalid s.params, resetOf_node_invalid s.params,
    List.length_replicate, List.length_replicate, rfl, rfl, rfl, rfl, rfl, rfl, rfl, rfl, rfl, rfl, rfl, rfl, rfl, rfl,
    irq_of_status_zero rfl, rfl, rfl, rfl⟩

/-- Every register that does not pop reads 0 after reset, ID and PARAM apart (R48, R51). -/
theorem shown_reset {r : Reg} {v : Word} (h : shown State.reset r = some v) (hid : r ≠ .id) (hparam : r ≠ .param) :
    v = 0#32 := by
  cases r with
  | id => exact absurd rfl hid
  | param => exact absurd rfl hparam
  | heData | hdData | ceData | cdData => cases h
  | _ => exact (Option.some.inj h).symm

/-- Settles O8, from the reset state of the default parameters. -/
theorem resetStateHasTheSpecsValues : Obligations.ResetStateHasTheSpecsValues :=
  ⟨resetOf_ct_invalid _, List.length_replicate, resetOf_node_invalid _, List.length_replicate, rfl, rfl, rfl, rfl, rfl,
    rfl, rfl, rfl, rfl, rfl, rfl, rfl, rfl, rfl, rfl, fun _ _ => shown_reset⟩

end Sys2Proof.Machine
end

section
/-! PROOFS. The accesses of 20_memory.md: each is one well-formed instruction (R52 to R54), a bus fault unless it is an
aligned 32-bit one (R53), and without effect at a reserved offset (R52) or as a write to a read-only register (R54). -/

namespace Sys2Proof

/-! ## A command's word is put together again from its opcode and its fields -/

/-- With no reserved bit set, a range of bits outside the format's named fields is 0 (R78). -/
theorem reserved_range_zero {w : Word} {f : Format} (h : reservedBitSet f w = false) (start len : Nat)
    (hlow : start + len ≤ 27) (hmask : (~~~ f.fieldMask).extractLsb' start len = BitVec.allOnes len) :
    w.extractLsb' start len = 0#len := by
  have hzero : w.extractLsb' 0 27 &&& ~~~ f.fieldMask = 0#27 := by simpa [reservedBitSet] using h
  calc w.extractLsb' start len
      = (w.extractLsb' 0 27).extractLsb' start len := (BitVec.extractLsb'_extractLsb'_of_le hlow).symm
    _ = (w.extractLsb' 0 27 &&& ~~~ f.fieldMask).extractLsb' start len := by
      rw [BitVec.extractLsb'_and, hmask, BitVec.and_allOnes]
    _ = 0#len := by rw [hzero, BitVec.extractLsb'_zero]

section
variable {w : Word} {opc : BitVec 5} (hopc : opc = opcOf w)
include hopc

/-- A word of a format with no field is its opcode over zeros (R72, format N). -/
theorem opcode_zeros (h : reservedBitSet .n w = false) : opc ++ 0#27 = w := by
  rw [hopc, ← reserved_range_zero h 0 27 (by decide) (by decide)]
  exact BitVec.extractLsb'_append_extractLsb' (w := 5) (len := 27)

/-- A word of a format with one field, the low n bits, is its opcode, zeros and the field (R72). -/
theorem opcode_zeros_field {f : Format} (h : reservedBitSet f w = false) (m n : Nat) (hlen : 5 + m + n = 32)
    (hmask : (~~~ f.fieldMask).extractLsb' n m = BitVec.allOnes m) :
    (opc ++ 0#m ++ w.extractLsb' 0 n).cast hlen = w := by
  have hlow : n + m = 27 := by omega
  rw [hopc, opcOf, ← reserved_range_zero h n m hlow.le hmask,
    BitVec.extractLsb'_append_extractLsb'_eq_extractLsb' hlow.symm,
    BitVec.extractLsb'_append_extractLsb'_eq_extractLsb' (Nat.zero_add n).symm]
  exact BitVec.eq_of_toNat_eq (by simpa [hlen] using w.isLt)

/-- A word of format CT is its opcode, LEN and IDX, with zeros before each field (R72). -/
theorem opcode_len_idx (h : reservedBitSet .ct w = false) :
    opc ++ 0#5 ++ w.extractLsb' 16 6 ++ 0#6 ++ w.extractLsb' 0 10 = w := by
  rw [hopc, opcOf, ← reserved_range_zero h 22 5 (by decide) (by decide),
    ← reserved_range_zero h 10 6 (by decide) (by decide)]
  iterate 4 rw [BitVec.extractLsb'_append_extractLsb'_eq_extractLsb' (by omega)]
  exact BitVec.extractLsb'_eq_self

end

/-- The command cut out of a word has the word's opcode (R76). -/
theorem opc_of_commandOf {w : Word} {c : Command} (h : commandOf w = some c) : c.opc = opcOf w := by
  unfold commandOf at h
  split at h
  case h_16 => cases h
  all_goals
    next hopc =>
      cases h
      exact BitVec.eq_of_toNat_eq hopc.symm

/-- A word with no reserved bit set is the word of the command cut out of it (R72, R80). -/
theorem encodeCommand_commandOf {w : Word} {c : Command} {f : Format} (hc : commandOf w = some c)
    (hf : formatOf (opcOf w) = some f) (h : reservedBitSet f w = false) : encodeCommand c = w := by
  have hopc := opc_of_commandOf hc
  simp only [commandOf, ← hopc] at hc hf
  cases c <;> cases hf <;> cases hc
  case nop | ctInv | hdEnd | ceEnd => exact opcode_zeros hopc h
  case ctLoad => exact opcode_len_idx hopc h
  case clear | ceEnc4 => exact opcode_zeros_field hopc h 23 4 rfl (by decide)
  case heSym => exact opcode_zeros_field hopc h 6 21 rfl (by decide)
  case hdRoot | hdNode => exact opcode_zeros_field hopc h 16 11 rfl (by decide)
  case hdBits | ceBits | cdBits => exact opcode_zeros_field hopc h 21 6 rfl (by decide)
  case cdDec7 => exact opcode_zeros_field hopc h 20 7 rfl (by decide)
  case cdEnd => exact opcode_zeros_field hopc h 25 2 rfl (by decide)

/-! ## Each kind of access encodes back -/

/-- The instruction i is well formed and its access is a. -/
def EncodesBack (i : Instr) (a : Access) : Prop := encode i = a ∧ WellFormed i = true

theorem encodesBack_toInstr (c : Command) : EncodesBack c.toInstr (.command c) := by
  cases c <;> exact ⟨rfl, rfl⟩

theorem encodesBack_decodeRead (r : Reg) : EncodesBack (decodeRead r) (.rd r) := by
  cases r <;> exact ⟨rfl, rfl⟩

/-- Every word written to CMD has its own row: a reserved opcode, a reserved bit, or a command (R77, R78, R80). -/
theorem encodesBack_decodeCmdWrite (w : Word) : EncodesBack (decodeCmdWrite w) (.wr .cmd w) := by
  cases hf : formatOf (opcOf w) with
  | none =>
    rw [decodeCmdWrite_reservedOpc w hf]
    exact ⟨rfl, by simp [WellFormed, hf]⟩
  | some f =>
    cases hres : reservedBitSet f w with
    | true =>
      rw [decodeCmdWrite_reservedBit w f hf hres]
      exact ⟨rfl, by simp [WellFormed, hf, hres]⟩
    | false =>
      obtain ⟨c, hc⟩ := commandOf_isSome w f hf
      obtain rfl := encodeCommand_commandOf hc hf hres
      rw [decodeCmdWrite_encodeCommand]
      exact encodesBack_toInstr c

theorem encodesBack_decodeWrite (r : Reg) (v : Word) : EncodesBack (decodeWrite r v) (.wr r v) := by
  cases r with
  | cmd => exact encodesBack_decodeCmdWrite v
  | _ => exact ⟨rfl, rfl⟩

/-! ## The register map -/

/-- The register at an offset has that offset (R51). -/
theorem offset_of_regAt {off : Offset} {r : Reg} (h : regAt off = some r) : r.offset = off := by
  unfold regAt at h
  split at h
  case h_23 => cases h
  all_goals
    next hoff =>
      cases h
      exact BitVec.eq_of_toNat_eq hoff.symm

/-- Every register lies below the reserved offsets (R51, R52). -/
theorem offset_lt (r : Reg) : r.offset.toNat < 0x58 := by cases r <;> decide

/-- From 0x58 on there is no register (R52). -/
theorem regAt_reserved {off : Offset} (h : 0x58 ≤ off.toNat) : regAt off = none := by
  refine Option.eq_none_iff_forall_ne_some.2 fun r hr => ?_
  have hlt := offset_lt r
  rw [offset_of_regAt hr] at hlt
  omega

/-- An aligned offset without a register is a reserved one (R52). -/
theorem wellFormed_reservedOffset (dir : Dir) {off : Offset} (haligned : off.toNat % 4 = 0) (hnone : regAt off = none) :
    WellFormed (.reservedOffset dir off) = true := by simp [WellFormed, haligned, hnone]

/-! ## All accesses -/

theorem encodesBack_decode_reservedOffset (dir : Dir) {off : Offset} (haligned : off.toNat % 4 = 0)
    (hnone : regAt off = none) :
    EncodesBack (decode (encode (.reservedOffset dir off))) (encode (.reservedOffset dir off)) := by
  have hwf := wellFormed_reservedOffset dir haligned hnone
  rw [decode_reservedOffset dir off hwf]
  exact ⟨rfl, hwf⟩

/-- Every access encodes back: a bus fault, an access to a register, or one to a reserved offset (R52, R53, R82). -/
theorem encodesBack_decode (a : Access) : EncodesBack (decode a) a := by
  cases ha : a.aligned32 with
  | false =>
    rw [decode_of_not_aligned a ha]
    exact ⟨rfl, by simp [WellFormed, ha]⟩
  | true =>
    cases a with
    | read bits off =>
      obtain ⟨rfl, haligned⟩ : bits = 32 ∧ off.toNat % 4 = 0 := by simpa [Access.aligned32] using ha
      cases hreg : regAt off with
      | none => exact encodesBack_decode_reservedOffset .read haligned hreg
      | some r =>
        obtain rfl := offset_of_regAt hreg
        exact (decode_rd r).symm ▸ encodesBack_decodeRead r
    | write bits off v =>
      obtain ⟨rfl, haligned⟩ : bits = 32 ∧ off.toNat % 4 = 0 := by simpa [Access.aligned32] using ha
      cases hreg : regAt off with
      | none => exact encodesBack_decode_reservedOffset (.write v) haligned hreg
      | some r =>
        obtain rfl := offset_of_regAt hreg
        exact (decode_wr r v).symm ▸ encodesBack_decodeWrite r v

/-- Settles O2, from the rows of the register map and of CMD's words. -/
theorem everyAccessIsOneInstruction : Obligations.EveryAccessIsOneInstruction := encodesBack_decode

/-! ## Words written out from the tables -/

/-- A row of 32 bits is the write of its word to CMD (log 11). -/
theorem decodeTableWord_cmd (w : Word) : decodeTableWord 32 w.toNat = some (decodeCmdWrite w) := by
  simp [decodeTableWord, accessOfTableWord, decodeWrite]

theorem decodeTableWord_encodeCommand (c : Command) :
    decodeTableWord 32 (encodeCommand c).toNat = some c.toInstr := by
  rw [decodeTableWord_cmd, decodeCmdWrite_encodeCommand]

/-- Settles O5: nine words of commands, a reserved opcode, a reserved bit of CE.END, and five accesses. -/
theorem writtenOutWordsDecode : Obligations.WrittenOutWordsDecode :=
  ⟨decodeTableWord_encodeCommand .nop, decodeTableWord_encodeCommand (.clear 5),
    decodeTableWord_encodeCommand (.ctLoad 32 0x41), decodeTableWord_encodeCommand (.heSym 0x61),
    decodeTableWord_encodeCommand (.hdRoot 0x1FF), decodeTableWord_encodeCommand (.hdBits 4),
    decodeTableWord_encodeCommand (.ceEnc4 1), decodeTableWord_encodeCommand (.cdDec7 0x29),
    decodeTableWord_encodeCommand (.cdEnd 3),
    (decodeTableWord_cmd 0x78000000#32).trans (congrArg some (decodeCmdWrite_reservedOpc _ rfl)),
    (decodeTableWord_cmd 0x58000001#32).trans (congrArg some (decodeCmdWrite_reservedBit _ .n rfl rfl)),
    decode_wr .status _, decode_rd .hdData, decode_wr .cdNcorr _, decode_reservedOffset .read 0x58#8 rfl,
    decode_of_not_aligned _ rfl⟩

end Sys2Proof

namespace Sys2Proof.Machine

/-! ## The bus fault -/

/-- An access that is not an aligned 32-bit one is a bus fault, in whatever state (R53). -/
theorem exec_decode_of_not_aligned {a : Access} (h : a.aligned32 = false) (s : State) :
    exec (decode a) s = .fault .busFault := by
  rw [decode_of_not_aligned a h, exec_busError]

/-- An aligned 32-bit access completes: the bus fault's row is well formed for the other accesses only (R17, R53). -/
theorem completes_exec_decode {a : Access} (h : a.aligned32 = true) (s : State) : Completes (exec (decode a) s) := by
  refine completes_exec _ s fun b hb => ?_
  obtain ⟨hencode, hwf⟩ := encodesBack_decode a
  rw [hb] at hencode hwf
  obtain rfl : b = a := hencode
  simp [WellFormed, h] at hwf

/-- Settles O12, from what each of the two kinds of access does. -/
theorem nonWordAccessIsABusFault : Obligations.NonWordAccessIsABusFault := by
  intro s bits off v
  refine ⟨fun h => ?_, fun ⟨hbits, haligned⟩ => ?_⟩
  · have hoff : (decide (bits = 32) && decide (off.toNat % 4 = 0)) = false := by
      simpa [imp_iff_not_or] using h
    have hread : (Access.read bits off).aligned32 = false := hoff
    have hwrite : (Access.write bits off v).aligned32 = false := hoff
    exact ⟨exec_decode_of_not_aligned hread s, exec_decode_of_not_aligned hwrite s,
      fun _ hport => (step_access hport).trans (exec_decode_of_not_aligned hread _),
      fun _ hport => (step_access hport).trans (exec_decode_of_not_aligned hwrite _)⟩
  · exact ⟨completes_exec_decode (by simp [Access.aligned32, hbits, haligned]) s,
      completes_exec_decode (by simp [Access.aligned32, hbits, haligned]) s⟩

/-! ## Accesses without effect -/

/-- Settles O50: above the map an aligned access is of the reserved row. -/
theorem reservedOffsetsReadZero : Obligations.ReservedOffsetsReadZero := by
  intro s off v hreserved haligned
  have hdecode (dir : Dir) : decode (encode (.reservedOffset dir off)) = .reservedOffset dir off :=
    decode_reservedOffset dir off (wellFormed_reservedOffset dir haligned (regAt_reserved hreserved))
  exact ⟨hdecode .read, rfl, hdecode (.write v), rfl⟩

/-- Settles O49: each of the seventeen registers is read-only by the access column of R51. -/
theorem readOnlyWritesAreIgnored : Obligations.ReadOnlyWritesAreIgnored := by
  intro s r v hr
  have hreadOnly : r.readOnly = true := by
    revert r
    decide
  exact ⟨(decode_wr r v).trans (decodeWrite_readOnly r v hreadOnly), rfl⟩

end Sys2Proof.Machine
end

section
/-! PROOFS. The command words of 30_encoding.md: the mask and match columns of R76 are the tests the decoder makes (R77,
R78), every word is one command or BADCMD (R80), and a BADCMD word has no other effect (60_exceptions.md R214). -/

namespace Sys2Proof

/-- Settles O1, by the decoder's round trip over every row of the opcode table. -/
theorem decodeOfEncodeIsIdentity : Obligations.DecodeOfEncodeIsIdentity := decode_encode

/-! ## What a word decodes to -/

/-- The reserved opcodes are those from 0x0F on (R77). -/
theorem formatOf_eq_none_iff (opc : BitVec 5) : formatOf opc = none ↔ 0x0F ≤ opc.toNat := by
  revert opc
  decide

/-- A word is reserved by its opcode alone: a defined opcode has a command to cut out (R76, R77). -/
theorem decodeCommand_reservedOpcode_iff (w : Word) :
    decodeCommand w = .error .reservedOpcode ↔ 0x0F ≤ (opcOf w).toNat := by
  rw [← formatOf_eq_none_iff]
  cases hf : formatOf (opcOf w) with
  | none => simp [decodeCommand, hf]
  | some f =>
    obtain ⟨c, hc⟩ := commandOf_isSome w f hf
    cases hres : reservedBitSet f w <;> simp [decodeCommand, hf, hc, hres]

/-- No reserved bit is set when [26:0] has no 1 outside the format's field mask (R78). -/
theorem reservedBitSet_eq_false_iff {f : Format} {w : Word} :
    reservedBitSet f w = false ↔ w.extractLsb' 0 27 &&& ~~~ f.fieldMask = 0#27 := bne_eq_false_iff_eq

/-- A word is a command when its opcode has a format, the command is cut out of it, and no reserved bit is set (R80). -/
theorem decodeCommand_ok_iff {w : Word} {c : Command} :
    decodeCommand w = .ok c ↔ ∃ f, formatOf (opcOf w) = some f ∧ commandOf w = some c ∧ reservedBitSet f w = false := by
  cases hf : formatOf (opcOf w) with
  | none => simp [decodeCommand, hf]
  | some f =>
    obtain ⟨d, hd⟩ := commandOf_isSome w f hf
    cases hres : reservedBitSet f w <;> simp [decodeCommand, hf, hd, hres]

/-- The words a command is encoded as are those that decode to it (R80). -/
theorem encodeCommand_eq_iff {w : Word} {c : Command} : encodeCommand c = w ↔ decodeCommand w = .ok c := by
  refine ⟨?_, fun h => ?_⟩
  · rintro rfl
    exact decodeCommand_encodeCommand c
  · obtain ⟨f, hf, hc, hres⟩ := decodeCommand_ok_iff.1 h
    exact encodeCommand_commandOf hc hf hres

/-- Settles O4: the two sides are the two answers of the decoder. -/
theorem everyWordIsOneCommandOrBadCmd : Obligations.EveryWordIsOneCommandOrBadCmd := by
  intro w
  cases hw : decodeCommand w with
  | ok c => exact .inl ⟨c, rfl, fun c' => by rw [encodeCommand_eq_iff, hw, Except.ok.injEq, eq_comm]⟩
  | error r => exact .inr ⟨r, rfl, fun c => by simp [encodeCommand_eq_iff, hw]⟩

/-! ## Mask and match -/

/-- Two words put together from parts of the same widths are equal when their parts are. -/
theorem bitVec_append_inj {m n : Nat} {a b : BitVec m} {c d : BitVec n} : a ++ c = b ++ d ↔ a = b ∧ c = d := by
  refine ⟨fun h => ⟨?_, ?_⟩, fun ⟨hab, hcd⟩ => hab ▸ hcd ▸ rfl⟩
  · simpa only [BitVec.extractLsb'_append_eq_left] using congrArg (BitVec.extractLsb' n m) h
  · simpa only [BitVec.extractLsb'_append_eq_right] using congrArg (BitVec.extractLsb' 0 n) h

/-- A mask over the whole opcode and some of [26:0] tests the opcode and those bits (R76). -/
theorem and_mask_eq_match_iff (w : Word) (opc : BitVec 5) (reserved : BitVec 27) :
    w &&& (0x1F#5 ++ reserved) = opc ++ 0#27 ↔ opcOf w = opc ∧ w.extractLsb' 0 27 &&& reserved = 0#27 := by
  have hsplit : opcOf w ++ w.extractLsb' 0 27 = w := BitVec.extractLsb'_append_extractLsb' (w := 5) (len := 27)
  have hand : w &&& (0x1F#5 ++ reserved) = opcOf w ++ (w.extractLsb' 0 27 &&& reserved) := by
    conv_lhs => rw [← hsplit]
    exact BitVec.and_append.trans (congrArg (· ++ _) BitVec.and_allOnes)
  rw [hand]
  exact bitVec_append_inj

/-- A row of the opcode map: its mask is the opcode and the reserved bits of its format, its match the opcode (R76). -/
theorem decodeCommand_ok_iff_mask {w : Word} {c : Command} {f : Format} {mask matched : Word}
    (hcut : opcOf w = c.opc → commandOf w = some c) (hf : formatOf c.opc = some f)
    (hmask : 0x1F#5 ++ ~~~ f.fieldMask = mask) (hmatch : c.opc ++ 0#27 = matched) :
    decodeCommand w = .ok c ↔ w &&& mask = matched := by
  rw [← hmask, ← hmatch, and_mask_eq_match_iff, decodeCommand_ok_iff]
  constructor
  · rintro ⟨g, hg, hc, hres⟩
    have hopc : opcOf w = c.opc := (opc_of_commandOf hc).symm
    obtain rfl : f = g := by simpa [hopc, hf] using hg
    exact ⟨hopc, reservedBitSet_eq_false_iff.1 hres⟩
  · rintro ⟨hopc, hzero⟩
    exact ⟨f, hopc ▸ hf, hcut hopc, reservedBitSet_eq_false_iff.2 hzero⟩

/-- Settles O3: each command is a row of the opcode map, with the operands the decoder cuts out at its opcode. -/
theorem commandWordsByMaskAndMatch : Obligations.CommandWordsByMaskAndMatch := by
  intro w
  refine ⟨?_, ?_, ?_, ?_, ?_, ?_, ?_, ?_, ?_, ?_, ?_, ?_, ?_, ?_, ?_, decodeCommand_reservedOpcode_iff w⟩
  all_goals
    refine decodeCommand_ok_iff_mask (fun hopc => ?_) rfl rfl ?_
    · rw [commandOf, hopc]
      rfl
    · rw [Command.opc]
      rfl

end Sys2Proof

namespace Sys2Proof.Machine

/-- Settles O15: a reserved opcode is of the reserved row, a reserved bit of the row wr CMD, and both only raise BADCMD. -/
theorem badCommandWordsRaiseBadCmd : Obligations.BadCommandWordsRaiseBadCmd := by
  intro w s
  refine ⟨fun hopc => ⟨?_, rfl⟩, fun f hf hbit => ?_⟩
  · rw [decodeCmdWrite_reservedOpc w ((formatOf_eq_none_iff _).2 hopc)]
    rfl
  · have hres : reservedBitSet f w = true := bne_iff_ne.2 hbit
    rw [decodeCmdWrite_reservedBit w f hf hres]
    exact execWrCmd_of_wellFormed w s f hf hres

end Sys2Proof.Machine
end

section
/-! PROOFS. The control commands and the general registers of 40_control.md: NOP (R90), CLEAR (R91), ARG0 and ARG1 (R92,
R93), IRQ_EN and the interrupt line (R96, 60_exceptions.md R220), RES, ERR_CMD and CMD (R98 to R100). -/

namespace Sys2Proof.Machine

/-! ## A command word with a reserved bit set -/

/-- A 1 in a range of bits outside the format's named fields is a reserved bit set (R78). -/
theorem reservedBitSet_of_range {w : Word} {f : Format} {start len : Nat} (hlow : start + len ≤ 27)
    (hmask : (~~~ f.fieldMask).extractLsb' start len = BitVec.allOnes len) (h : w.extractLsb' start len ≠ 0#len) :
    reservedBitSet f w = true := by
  by_contra hclear
  exact h (reserved_range_zero (Bool.eq_false_iff.2 hclear) start len hlow hmask)

/-- The BADCMD clause of a command, from a test that finds only reserved bits of its opcode's format (R78, R214). -/
theorem badCmdWhen_of_reservedBitSet {opc : BitVec 5} {f : Format} {bad : Word → Prop} (hf : formatOf opc = some f)
    (hbad : ∀ w, bad w → reservedBitSet f w = true) (s : State) : BadCmdWhen opc bad s := by
  rintro w rfl hw
  exact (badCommandWordsRaiseBadCmd w s).2 f hf (bne_iff_ne.1 (hbad w hw))

/-- The BADCMD clause of a command whose reserved bits are tested as one range (R72, R78). -/
theorem badCmdWhen_range {opc : BitVec 5} {f : Format} {start len : Nat} (hf : formatOf opc = some f)
    (hlow : start + len ≤ 27) (hmask : (~~~ f.fieldMask).extractLsb' start len = BitVec.allOnes len) (s : State) :
    BadCmdWhen opc (fun w => w.extractLsb' start len ≠ 0#len) s :=
  badCmdWhen_of_reservedBitSet hf (fun _ => reservedBitSet_of_range hlow hmask) s

/-! ## NOP and CLEAR -/

/-- Settles O25: NOP has no effect, and every bit of [26:0] is reserved in its format. -/
theorem nopDoesNothing : Obligations.NopDoesNothing := fun s => ⟨rfl, badCmdWhen_range rfl (by decide) (by decide) s⟩

/-- Settles O26: the units are cleared one after another, which is the update field by field. -/
theorem clearResetsTheSelectedUnits : Obligations.ClearResetsTheSelectedUnits := fun units s =>
  ⟨execClear_eq units s, badCmdWhen_range rfl (by decide) (by decide) s⟩

/-! ## IRQ_EN and the interrupt line -/

/-- A read of IRQ_EN answers the same number, for the zeros above it (R96). -/
theorem irqEnWord_toNat (s : State) : (s.irqEn.zeroExtend 32).toNat = s.irqEn.toNat :=
  BitVec.toNat_setWidth_of_le (by decide)

/-- Settles O24, with the line by irq_iff. -/
theorem interruptEnableAndLine : Obligations.InterruptEnableAndLine := fun s _ =>
  ⟨rfl, ⟨s.irqEn.zeroExtend 32, rfl, irqEnWord_toNat s⟩, irq_iff s⟩

/-! ## The registers read back as they are -/

/-- Settles O46: each of the four accesses is the one update of its meaning. -/
theorem argRegistersAreReadWrite : Obligations.ArgRegistersAreReadWrite := fun _ _ => ⟨rfl, rfl, rfl, rfl⟩

/-- Settles O47: each of the three reads answers its register, CMD 0. -/
theorem resultErrorAndCommandReads : Obligations.ResultErrorAndCommandReads := fun _ => ⟨rfl, rfl, rfl⟩

end Sys2Proof.Machine
end

section
/-! PROOFS. The commands of the Huffman encoder (41_huffman_encoder.md): CT.INV (R110), CT.LOAD (R111) and HE.SYM (R112,
R113), each by one equation per outcome. -/

namespace Sys2Proof.Machine

/-! ## HE.SYM -/

section HeSym

variable {sym : Sym} {s : State} {e : CtEntry}

/-- No valid entry has the symbol: UNKSYM (R112). -/
theorem execHeSym_unknown (hl : lookup s.ct sym = none) :
    execHeSym sym s = .next (raise .unkSym (encodeCommand (.heSym sym)) s) := by simp [execHeSym, hl]

/-- The code does not fit whole: OVERRUN (R112). -/
theorem execHeSym_overrun (hl : lookup s.ct sym = some e) (hfull : s.params.qCap < s.heQ.length + e.len.toNat) :
    execHeSym sym s = .next (raise .overrun (encodeCommand (.heSym sym)) s) := by simp [execHeSym, hl, hfull]

/-- The code fits: it is appended and counted (R112). -/
theorem execHeSym_appends (hl : lookup s.ct sym = some e) (hfit : s.heQ.length + e.len.toNat ≤ s.params.qCap) :
    execHeSym sym s =
      .next { s with heQ := s.heQ ++ e.bits, heCount := s.heCount + BitVec.ofNat 32 e.len.toNat } := by
  simp [execHeSym, hl, not_lt.2 hfit]

/-- The valid entry of lowest index with the symbol is the one lookup answers (R113). -/
theorem lookup_of_lowest {ct : List CtEntry} {idx : Nat} (hidx : ct[idx]? = some e) (hv : e.v = true)
    (hsym : e.sym = sym) (hlow : ∀ j e', j < idx → ct[j]? = some e' → ¬(e'.v = true ∧ e'.sym = sym)) :
    lookup ct sym = some e := by
  obtain ⟨hlt, hget⟩ := List.getElem?_eq_some_iff.1 hidx
  refine List.find?_eq_some_iff_getElem.2 ⟨by simp [hv, hsym], idx, hlt, hget, fun j hj => ?_⟩
  simpa [imp_iff_not_or] using hlow j _ hj (List.getElem?_eq_getElem (hj.trans hlt))

end HeSym

/-- Settles O29: the outcome is decided by what lookup answers and by the room in the queue. -/
theorem heSymAppendsTheLowestEntrysCode : Obligations.HeSymAppendsTheLowestEntrysCode := by
  intro sym s
  refine ⟨badCmdWhen_range rfl (by decide) (by decide) s, fun hnone => ?_, fun idx e hidx hv hsym hlow => ?_⟩
  · exact execHeSym_unknown ((lookup_eq_none _ _).2 hnone)
  · have hl : lookup s.ct sym = some e := lookup_of_lowest hidx hv hsym hlow
    exact ⟨execHeSym_overrun hl, execHeSym_appends hl⟩

/-! ## CT.INV -/

/-- No entry of an invalidated table is valid (R110). -/
theorem v_of_mem_invalidated {ct : List CtEntry} {e : CtEntry} (he : e ∈ ct.map CtEntry.invalidate) : e.v = false := by
  obtain ⟨e', -, rfl⟩ := List.mem_map.1 he
  rfl

/-- No symbol is found in an invalidated table (R110). -/
theorem lookup_invalidated (ct : List CtEntry) (sym : Sym) : lookup (ct.map CtEntry.invalidate) sym = none :=
  (lookup_eq_none _ _).2 fun e he => by simp [v_of_mem_invalidated he]

/-- Settles O27, with the table whose entries are invalidated one by one. -/
theorem ctInvInvalidatesEveryEntry : Obligations.CtInvInvalidatesEveryEntry := fun s =>
  ⟨badCmdWhen_range rfl (by decide) (by decide) s, s.ct.map CtEntry.invalidate, rfl, List.length_map _,
    fun _ => v_of_mem_invalidated, fun sym => execHeSym_unknown (lookup_invalidated s.ct sym)⟩

/-! ## CT.LOAD -/

section CtLoad

variable {len : BitVec 6} {idx : BitVec 10} {s : State}

/-- An index outside the table, or a length outside 1 to L_MAX: BADARG (R111). -/
theorem execCtLoad_badArg (h : s.params.nSym ≤ idx.toNat ∨ len.toNat = 0 ∨ s.params.lMax < len.toNat) :
    execCtLoad len idx s = .next (raise .badArg (encodeCommand (.ctLoad len idx)) s) := by
  rcases h with hidx | hlen
  · exact if_pos hidx
  · have hbad : len = 0 ∨ s.params.lMax < len.toNat := hlen.imp_left fun h0 => BitVec.eq_of_toNat_eq h0
    exact (congrArg _ (if_pos hbad)).trans (ite_self _)

/-- An index in the table and a legal length: the entry is written (R111). -/
theorem execCtLoad_writes (hidx : idx.toNat < s.params.nSym) (hpos : 1 ≤ len.toNat) (hmax : len.toNat ≤ s.params.lMax) :
    execCtLoad len idx s = .next { s with ct := s.ct.set idx.toNat (loadedEntry len s) } := by
  have hlen : ¬(len = 0 ∨ s.params.lMax < len.toNat) := by
    rintro (rfl | hlong)
    · exact absurd hpos (by decide)
    · exact not_le.2 hlong hmax
  exact (if_neg (not_le.2 hidx)).trans (if_neg hlen)

/-- CT.LOAD's code is the low len bits of ARG0 (R111). -/
theorem argCode_getLsbD {k : Nat} (hk : k < 32) :
    (argCode s len).getLsbD k = (decide (k < len.toNat) && s.arg0.getLsbD k) := by
  rw [argCode, BitVec.getLsbD_and, BitVec.getLsbD_ofNat, Nat.testBit_two_pow_sub_one, decide_eq_true hk, Bool.true_and,
    Bool.and_comm]

end CtLoad

/-- Settles O28: reserved bits are [26:22] and [15:10], the checks of IDX and LEN come next, then the write. -/
theorem ctLoadWritesOneEntry : Obligations.CtLoadWritesOneEntry := by
  intro len idx s
  refine ⟨badCmdWhen_of_reservedBitSet (f := .ct) rfl (fun w hw => ?_) s, execCtLoad_badArg, fun hidx hpos hmax => ?_⟩
  · rcases hw with hhigh | hmiddle
    · exact reservedBitSet_of_range (by decide) (by decide) hhigh
    · exact reservedBitSet_of_range (by decide) (by decide) hmiddle
  · exact ⟨loadedEntry len s, execCtLoad_writes hidx hpos hmax, rfl, rfl, rfl, fun _ => argCode_getLsbD⟩

end Sys2Proof.Machine
end

section
/-! PROOFS. The reads of the queues: LEVEL and the counters (41_huffman_encoder.md R115, R117), and the pop of a bit
queue's DATA (R116, 43_hamming_encoder.md R155, 44_hamming_decoder.md R175, 20_memory.md R56). -/

namespace Sys2Proof.Machine

/-- Settles O44: each read answers its word and changes nothing else. -/
theorem levelAndCounterReads : Obligations.LevelAndCounterReads := fun _ => ⟨rfl, rfl, rfl, rfl, rfl, rfl⟩

/-- UNDERRUN sets its bit and captures nothing (R211, R213). -/
theorem raise_underrun (w : Word) (s : State) : raise .underrun w s = { s with status := s.status ||| 0x40#8 } := by
  simp [raise, setBit, Err.bit]

/-- The popped word holds the queue's first 32 bits from bit 31 down, zeros below the last (R56). -/
theorem popWord_getLsbD (q : Bits) {j : Nat} (hj : j < 32) : (popWord q).getLsbD (31 - j) = (q[j]?).getD false := by
  rw [popWord, pack_getLsbD _ (List.length_take_le _ _) j hj, List.getElem?_take_of_lt hj]

/-- A DATA read of an empty queue, field by field (R56). -/
theorem next_underrun (s : State) : (.next (underrun s) : Result) =
    .next { s with status := s.status ||| 0x40#8, reads := s.reads ++ [0#32] } := by
  rw [underrun_eq, raise_underrun]
  rfl

/-- Settles O42: each of the three reads is one check of its queue, with the underrun or the pop after it. -/
theorem bitQueueReadsPopUpTo32Bits : Obligations.BitQueueReadsPopUpTo32Bits := fun s =>
  ⟨fun hempty => (if_pos hempty).trans (next_underrun s), fun hempty => (if_pos hempty).trans (next_underrun s),
    fun hempty => (if_pos hempty).trans (next_underrun s),
    fun hq => ⟨popWord s.heQ, if_neg hq, fun _ => popWord_getLsbD s.heQ⟩,
    fun hq => ⟨popWord s.ceQ, if_neg hq, fun _ => popWord_getLsbD s.ceQ⟩,
    fun hq => ⟨popWord s.cdQ, if_neg hq, fun _ => popWord_getLsbD s.cdQ⟩⟩

end Sys2Proof.Machine
end

section
/-! PROOFS. What the host of 70_reset_and_hazards.md R246 sees when it feeds one unit and pops its queue: a register
read, a pop of a bit queue, and that an error raised on the way is still in STATUS at the end (10_state.md R24). -/

namespace Sys2Proof.Machine

/-! ## Accesses of the host -/

theorem perform_of_next {a : Access} {s t : State} (h : exec (decode a) s = .next t) : perform s a = t := by
  simp [perform, h]

/-- A command's access runs the command (R26). -/
theorem perform_command {c : Command} {s t : State} (h : runCommand c s = .next t) :
    perform s (.command c) = t := perform_of_next (by rw [decode_command, exec_toInstr, h])

/-- A register read gives the word the bus returned. -/
theorem readReg_of_respond {r : Reg} {v : Word} {s t : State} (h : exec (decodeRead r) s = .next (respond v t)) :
    readReg r s = (v, respond v t) := by
  rw [readReg, perform_of_next ((congrArg (exec · s) (decode_rd r)).trans h)]
  simp

/-- A pop of a queue q, when LEVEL answers its length and DATA its first bits, gives its first 32 bits (R56). -/
theorem popBits_eq_take {level data : Reg} {q : Bits} {s t : State} (hlen : q.length < 2 ^ 32)
    (hlevel : exec (decodeRead level) s = .next (respond (levelWord q) s))
    (hdata : exec (decodeRead data) (respond (levelWord q) s) = .next (respond (popWord q) t)) :
    popBits level data s = (q.take 32, respond (popWord q) t) := by
  have hlv : (levelWord q).toNat = q.length := Nat.mod_eq_of_lt hlen
  have htake : unpack (popWord q) (min 32 q.length) = q.take 32 := by
    rw [popWord, unpack_pack _ (List.length_take_le _ _) _ (List.length_take ▸ le_refl _), List.take_take]
    simp
  simp only [popBits, readReg_of_respond hlevel, readReg_of_respond hdata, hlv, htake]

/-! ## No error raised -/

/-- No error is in STATUS; TRUNC is none (R25). -/
def ErrorFree (s : State) : Prop := s.status &&& 0x7F#8 = 0#8

/-- The errors' bits are 6 to 0 (R211). -/
theorem errorFree_iff (s : State) : ErrorFree s ↔ ∀ k, k < 7 → s.status.getLsbD k = false := by
  have hmask : ∀ k < 8, (0x7F#8).getLsbD k = decide (k < 7) := by decide
  rw [ErrorFree, BitVec.eq_of_getLsbD_eq_iff]
  refine ⟨fun h k hk => ?_, fun h k hk => ?_⟩
  · simpa [hmask k (by omega), hk] using h k (by omega)
  · by_cases hk7 : k < 7
    · simp [h k hk7]
    · simp [hmask k hk, hk7]

/-- A raise leaves an error in STATUS (R212). -/
theorem not_errorFree_raise (e : Err) (w : Word) (s : State) : ¬ErrorFree (raise e w s) := by
  have hbit : e.bit < 7 := by cases e <;> decide
  intro h
  have hclear := (errorFree_iff _).1 h e.bit hbit
  rw [raise_status, setBit_getLsbD _ _ _ (by omega)] at hclear
  simp at hclear

/-- An access that is no write to STATUS removes no error (R24). -/
theorem errorFree_of_perform {a : Access} {s : State} (ha : ∀ v, decode a ≠ .wrStatus v) (h : ErrorFree (perform s a)) :
    ErrorFree s := by
  unfold perform at h
  split at h
  · next t ht =>
    refine (errorFree_iff s).2 fun k hk => Bool.eq_false_iff.2 fun hset => ?_
    rcases statusBitsAreSticky (decode a) s t k (by omega) ht hset with hkept | ⟨v, hv, -⟩
    · exact Bool.eq_false_iff.1 ((errorFree_iff t).1 h k hk) hkept
    · exact ha v hv
  · exact h
  · exact h

theorem errorFree_of_perform_command {c : Command} {s : State} (h : ErrorFree (perform s (.command c))) :
    ErrorFree s := errorFree_of_perform (fun v => decode_command c ▸ toInstr_ne_wrStatus c v) h

theorem decodeRead_ne_wrStatus (r : Reg) (v : Word) : decodeRead r ≠ .wrStatus v := by cases r <;> rintro ⟨⟩

theorem errorFree_of_readReg {r : Reg} {s : State} (h : ErrorFree (readReg r s).2) : ErrorFree s :=
  errorFree_of_perform (fun v => (decode_rd r).symm ▸ decodeRead_ne_wrStatus r v) h

theorem errorFree_of_popBits {level data : Reg} {s : State} (h : ErrorFree (popBits level data s).2) : ErrorFree s :=
  errorFree_of_readReg (errorFree_of_readReg h)

/-- Moves that each remove no error remove none together. -/
theorem errorFree_of_runMoves {α β : Type} {line : α → Line} {pop : State → List β × State}
    (hline : ∀ x s, ErrorFree (performLines [line x] s) → ErrorFree s) (hpop : ∀ s, ErrorFree (pop s).2 → ErrorFree s)
    (ms : List (Move α)) (s : State) (h : ErrorFree (runMoves line pop ms s).2) : ErrorFree s := by
  induction ms generalizing s with
  | nil => exact h
  | cons m ms ih =>
    cases m with
    | push x => exact hline x s (ih _ h)
    | pop => exact hpop s (ih _ h)

end Sys2Proof.Machine
end

section
/-! PROOFS. The Huffman encoder agrees with the source's encode (41_huffman_encoder.md R114): by induction on the host's
moves, what was popped and what is queued is what was queued before and the codes of the symbols pushed since. -/

namespace Sys2Proof.Machine

/-! ## The codes a table gives -/

/-- The codes of the valid entries, in the order of the table (R114). -/
def tableCodes (ct : List CtEntry) : List (Sym × Bits) := (ct.filter fun e => e.v).map fun e => (e.sym, e.bits)

/-- The source's code of a symbol is that of the entry lookup answers (R113). -/
theorem codeOf_tableCodes (ct : List CtEntry) (sym : Sym) :
    codeOf (tableCodes ct) sym = (lookup ct sym).map CtEntry.bits := by
  simp only [codeOf, tableCodes, lookup, List.find?_map, List.find?_filter, Option.map_map, Function.comp_def,
    Bool.decide_and, Bool.decide_eq_true]

/-- One symbol's code, then the others' (R114). -/
theorem sourceEncode_cons {ct : List CtEntry} {sym : Sym} {e : CtEntry} {syms : List Sym} {bits : Bits}
    (hl : lookup ct sym = some e) (h : sourceEncode (tableCodes ct) syms = some bits) :
    sourceEncode (tableCodes ct) (sym :: syms) = some (e.bits ++ bits) := by
  simp [sourceEncode, codeOf_tableCodes, hl, h]

/-! ## The two moves -/

/-- A push to HE is one HE.SYM of the symbol (R84). -/
theorem performLines_heSym (sym : Sym) (s : State) :
    performLines [.heSym sym.toNat] s = perform s (.command (.heSym sym)) := by
  have hfits : operand 21 sym.toNat = some sym := by simp [operand, sym.isLt]
  simp [performLines, assembleAll, assemble, hfits]

/-- A push raises an error, or appends the code of the entry lookup answers and counts it (R112). -/
theorem heSym_cases (sym : Sym) (s : State) :
    ¬ErrorFree (performLines [.heSym sym.toNat] s) ∨
    ∃ e, lookup s.ct sym = some e ∧ s.heQ.length + e.len.toNat ≤ s.params.qCap ∧
      performLines [.heSym sym.toNat] s =
        { s with heQ := s.heQ ++ e.bits, heCount := s.heCount + BitVec.ofNat 32 e.len.toNat } := by
  rw [performLines_heSym]
  cases hl : lookup s.ct sym with
  | none =>
    rw [perform_command (c := .heSym sym) (execHeSym_unknown hl)]
    exact .inl (not_errorFree_raise _ _ _)
  | some e =>
    by_cases hfit : s.heQ.length + e.len.toNat ≤ s.params.qCap
    · exact .inr ⟨e, rfl, hfit, perform_command (c := .heSym sym) (execHeSym_appends hl hfit)⟩
    · rw [perform_command (c := .heSym sym) (execHeSym_overrun hl (not_le.1 hfit))]
      exact .inl (not_errorFree_raise _ _ _)

/-- The block after a read of HE_LEVEL and a pop of HE_DATA (R115, R116). -/
def hePopped (s : State) : State :=
  respond (popWord s.heQ) { respond (levelWord s.heQ) s with heQ := popRest s.heQ }

/-- A pop raises an error, or takes up to 32 bits off the queue (R116). -/
theorem popHe_cases (s : State) (hlen : s.heQ.length < 2 ^ 32) :
    ¬ErrorFree (popBits .heLevel .heData s).2 ∨
    popBits .heLevel .heData s = (s.heQ.take 32, hePopped s) := by
  by_cases hq : s.heQ = []
  · left
    have hdata : exec .rdHeData (respond (levelWord s.heQ) s) = .next (underrun (respond (levelWord s.heQ) s)) :=
      if_pos hq
    rw [popBits, readReg_of_respond (r := .heLevel) rfl, readReg_of_respond (r := .heData) hdata]
    exact not_errorFree_raise .underrun 0 _
  · exact .inr (popBits_eq_take hlen rfl (if_neg hq))

/-! ## All moves -/

theorem heMoves_push (sym : Sym) (ms : List (Move Sym)) (s : State) :
    heMoves (.push sym :: ms) s = heMoves ms (performLines [.heSym sym.toNat] s) := rfl

theorem heMoves_pop (ms : List (Move Sym)) (s : State) :
    heMoves (.pop :: ms) s = ((popBits .heLevel .heData s).1 ++ (heMoves ms (popBits .heLevel .heData s).2).1,
      (heMoves ms (popBits .heLevel .heData s).2).2) := rfl

theorem errorFree_of_heMoves (ms : List (Move Sym)) (s : State) (h : ErrorFree (heMoves ms s).2) : ErrorFree s :=
  errorFree_of_runMoves
    (fun sym s h => errorFree_of_perform_command (performLines_heSym sym s ▸ h)) (fun _ => errorFree_of_popBits) ms s h

/-- What was popped and what is still queued is what was queued in s and then the source's code of syms, and HE_COUNT
has counted the latter (R114, R116, R117). -/
def HeAgrees (syms : List Sym) (s : State) (out : Bits × State) : Prop :=
  ∃ bits, sourceEncode (tableCodes s.ct) syms = some bits ∧ out.1 ++ out.2.heQ = s.heQ ++ bits ∧
    out.2.heCount = s.heCount + BitVec.ofNat 32 bits.length

theorem heAgrees_nil (s : State) : HeAgrees [] s ([], s) :=
  ⟨[], rfl, (List.append_nil _).symm, (BitVec.add_zero _).symm⟩

theorem HeAgrees.push {sym : Sym} {syms : List Sym} {s : State} {e : CtEntry} {out : Bits × State}
    (hl : lookup s.ct sym = some e)
    (h : HeAgrees syms { s with heQ := s.heQ ++ e.bits, heCount := s.heCount + BitVec.ofNat 32 e.len.toNat } out) :
    HeAgrees (sym :: syms) s out := by
  obtain ⟨bits, henc, hout, hcount⟩ := h
  refine ⟨e.bits ++ bits, sourceEncode_cons hl henc, hout.trans (List.append_assoc ..), hcount.trans ?_⟩
  rw [List.length_append, CtEntry.bits_length, BitVec.ofNat_add, BitVec.add_assoc]

theorem HeAgrees.pop {syms : List Sym} {s : State} {out : Bits × State} (h : HeAgrees syms (hePopped s) out) :
    HeAgrees syms s (s.heQ.take 32 ++ out.1, out.2) := by
  obtain ⟨bits, henc, hout, hcount⟩ := h
  have hqueue : s.heQ.take 32 ++ (hePopped s).heQ = s.heQ := List.take_append_drop 32 s.heQ
  exact ⟨bits, henc, by rw [List.append_assoc, hout, ← List.append_assoc, hqueue], hcount⟩

/-- With no error raised, the moves give out the source's code of the symbols pushed (R114). -/
theorem heMoves_agrees (ms : List (Move Sym)) (s : State) (hfree : ErrorFree (heMoves ms s).2)
    (hfits : s.heQ.length ≤ s.params.qCap) (hcap : s.params.qCap < 2 ^ 32) :
    HeAgrees (pushed ms) s (heMoves ms s) := by
  induction ms generalizing s with
  | nil => exact heAgrees_nil s
  | cons m ms ih =>
    cases m with
    | push sym =>
      rw [heMoves_push] at hfree ⊢
      obtain ⟨e, hl, hfit, hstep⟩ := (heSym_cases sym s).resolve_left (not_not_intro (errorFree_of_heMoves ms _ hfree))
      rw [hstep] at hfree ⊢
      exact (ih _ hfree (by simpa using hfit) hcap).push hl
    | pop =>
      rw [heMoves_pop] at hfree ⊢
      have hstep := (popHe_cases s (by omega)).resolve_left (not_not_intro (errorFree_of_heMoves ms _ hfree))
      rw [hstep] at hfree ⊢
      exact (ih (hePopped s) hfree ((List.drop_sublist 32 _).length_le.trans hfits) hcap).pop

/-- With legal parameters a queue holds fewer than 2^32 bits, so LEVEL shows its length (R8, R45). -/
theorem qCap_lt_of_legal {p : Params} (h : p.legal = true) : p.qCap < 2 ^ 32 := by
  obtain ⟨-, -, -, hq, -⟩ := legal_fits h
  exact Nat.pow_lt_pow_right (by decide) (hq.trans (by decide))

/-- Settles O51, from the empty queue and the zero count that CLEAR HE leaves. -/
theorem huffmanEncoderAgreesWithTheSource : Obligations.HuffmanEncoderAgreesWithTheSource := by
  intro ms s s₁ codes hlegal _ hclear _ hfree
  obtain rfl : cleared 1 s = s₁ := next_inj.1 ((execClear_eq 1 s).symm.trans hclear)
  obtain ⟨bits, henc, hout, hcount⟩ := heMoves_agrees ms (cleared 1 s) hfree (Nat.zero_le _) (qCap_lt_of_legal hlegal)
  exact ⟨bits, henc, hout, hcount.trans (BitVec.zero_add _)⟩

end Sys2Proof.Machine
end

section
/-! PROOFS. The commands of the Huffman decoder: HD.ROOT (42_huffman_decoder.md R130), HD.NODE (R131), the walker (R133),
HD.BITS (R132) and HD.END (R134). -/

namespace Sys2Proof.Machine

/-! ## HD.ROOT -/

/-- Settles O30: reserved bits are [26:11], then the one check of the index. -/
theorem hdRootMovesRootAndCursor : Obligations.HdRootMovesRootAndCursor := fun _ s =>
  ⟨badCmdWhen_range rfl (by decide) (by decide) s, fun hidx => if_pos hidx, fun hidx => if_neg (not_le.2 hidx)⟩

/-! ## HD.NODE -/

/-- KIND names a node kind, the illegal value 3 apart (R74). -/
theorem nodeKindOf_cases (v : BitVec 2) :
    (v.toNat = 0 ∧ nodeKindOf v = some .invalid) ∨ (v.toNat = 1 ∧ nodeKindOf v = some .internal) ∨
      (v.toNat = 2 ∧ nodeKindOf v = some .leaf) ∨ (v.toNat = 3 ∧ nodeKindOf v = none) := by
  revert v; decide

theorem nodeKindOf_eq_none_iff (v : BitVec 2) : nodeKindOf v = none ↔ v.toNat = 3 := by
  rcases nodeKindOf_cases v with ⟨hv, hk⟩ | ⟨hv, hk⟩ | ⟨hv, hk⟩ | ⟨hv, hk⟩ <;> simp [hv, hk]

theorem nodeKindOf_eq_some {v : BitVec 2} {k : NodeKind} (h : nodeKindOf v = some k) :
    (k = .invalid ↔ v.toNat = 0) ∧ (k = .internal ↔ v.toNat = 1) ∧ (k = .leaf ↔ v.toNat = 2) := by
  rcases nodeKindOf_cases v with ⟨hv, hk⟩ | ⟨hv, hk⟩ | ⟨hv, hk⟩ | ⟨hv, hk⟩ <;> cases h.symm.trans hk <;> simp [hv]

theorem childOutOfRange_iff (p : Params) (e : NodeEntry) :
    childOutOfRange p e = true ↔ e.kind = .internal ∧
      ((e.lv = true ∧ p.nNode ≤ e.left.toNat) ∨ (e.rv = true ∧ p.nNode ≤ e.right.toNat)) := by
  simp [childOutOfRange]

section HdNode

variable {idx : NodeIdx} {s : State} {k : NodeKind}

/-- An index outside the arena, the illegal kind, or a present child outside the arena: BADARG (R131). -/
theorem execHdNode_badArg (h : s.params.nNode ≤ idx.toNat ∨ argKind s = none ∨
      ∃ k, argKind s = some k ∧ childOutOfRange s.params (argNode s k) = true) :
    execHdNode idx s = .next (raise .badArg (encodeCommand (.hdNode idx)) s) := by
  unfold execHdNode
  split
  · rfl
  · next hidx =>
    rcases h with hout | hnone | ⟨k, hk, hchild⟩
    · exact absurd hout hidx
    · rw [hnone]; rfl
    · rw [hk]; exact if_pos hchild

/-- An index in the arena and a legal descriptor: the node is written (R131). -/
theorem execHdNode_writes (hidx : idx.toNat < s.params.nNode) (hk : argKind s = some k)
    (hchild : childOutOfRange s.params (argNode s k) = false) :
    execHdNode idx s = .next { s with node := s.node.set idx.toNat (argNode s k) } := by
  simp [execHdNode, hidx, hk, hchild]

end HdNode

/-- Settles O31: reserved bits are [26:11]; the checks of IDX, KIND and the children come next, then the write. -/
theorem hdNodeWritesOneNode : Obligations.HdNodeWritesOneNode := by
  intro idx s kind badChild
  have hnone : argKind s = none ↔ kind = 3 := nodeKindOf_eq_none_iff _
  have hchild {k : NodeKind} (hk : argKind s = some k) : childOutOfRange s.params (argNode s k) = true ↔ badChild :=
    (childOutOfRange_iff _ _).trans (and_congr_left' (nodeKindOf_eq_some hk).2.1)
  refine ⟨badCmdWhen_range rfl (by decide) (by decide) s, fun hbad => execHdNode_badArg ?_, fun hidx hkind hgood => ?_⟩
  · cases hk : argKind s with
    | none => exact .inr (.inl rfl)
    | some k =>
      have hlegal : kind ≠ 3 := fun h => by simp [hnone.2 h] at hk
      exact hbad.imp_right fun h => .inr ⟨k, rfl, (hchild hk).2 (h.resolve_left hlegal)⟩
  · obtain ⟨k, hk⟩ := Option.ne_none_iff_exists'.1 (mt hnone.1 hkind)
    obtain ⟨hinvalid, hinternal, hleaf⟩ := nodeKindOf_eq_some hk
    have hfree := Bool.eq_false_iff.2 (mt (hchild hk).1 hgood)
    exact ⟨argNode s k, execHdNode_writes hidx hk hfree, hinvalid, hinternal, hleaf, rfl, rfl, rfl, rfl, rfl⟩

/-! ## The walker -/

theorem nodeAt_of_getElem? {s : State} {i : NodeIdx} {e : NodeEntry} (h : s.node[i.toNat]? = some e) :
    nodeAt s i = e := by simp [nodeAt, h]

/-- A node that is not INTERNAL, or whose child on the bit is absent, has no edge on it (R133). -/
theorem edge_eq_none {e : NodeEntry} {b : Bool} (h : e.kind ≠ .internal ∨ (if b then e.rv else e.lv) = false) :
    edge e b = none := by
  refine Option.eq_none_iff_forall_ne_some.2 fun i hi => ?_
  obtain ⟨hk, hpresent⟩ := (edge_eq_some e b i).1 hi
  rcases hpresent with ⟨rfl, hv, -⟩ | ⟨rfl, hv, -⟩ <;> simp [hk, hv] at h

/-- An INTERNAL node leads to its child on the bit where that is present (R133). -/
theorem edge_of_present {e : NodeEntry} {b : Bool} (hk : e.kind = .internal) (h : (if b then e.rv else e.lv) = true) :
    edge e b = some (if b then e.right else e.left) := by
  refine (edge_eq_some e b _).2 ⟨hk, ?_⟩
  cases b with
  | false => exact .inr ⟨rfl, h, rfl⟩
  | true => exact .inl ⟨rfl, h, rfl⟩

section Walk

variable {b : Bool} {s : State} {i : NodeIdx}

theorem walk_of_no_edge (he : edge (nodeAt s s.cur) b = none) : walk b s = (rewind s, false) := by
  simp [walk, he]

theorem walk_to_leaf (he : edge (nodeAt s s.cur) b = some i) (hk : (nodeAt s i).kind = .leaf) :
    walk b s = (rewind { s with hdQ := s.hdQ ++ [(nodeAt s i).sym] }, true) := by
  simp [walk, he, hk]

theorem walk_to_internal (he : edge (nodeAt s s.cur) b = some i) (hk : (nodeAt s i).kind = .internal) :
    walk b s = ({ s with cur := i, mid := true }, true) := by
  simp [walk, he, hk]

theorem walk_to_invalid (he : edge (nodeAt s s.cur) b = some i) (hk : (nodeAt s i).kind = .invalid) :
    walk b s = (rewind s, false) := by
  simp [walk, he, hk]

end Walk

/-- Settles O32: no edge on the bit, or an edge to a child of each kind. -/
theorem walkerTakesOneEdgePerBit : Obligations.WalkerTakesOneEdgePerBit := by
  intro b s c hc present child failed
  have hcur : nodeAt s s.cur = c := nodeAt_of_getElem? hc
  refine ⟨fun hno => walk_of_no_edge (hcur ▸ edge_eq_none hno), fun t hk hpresent ht => ?_⟩
  have hedge : edge (nodeAt s s.cur) b = some child := hcur ▸ edge_of_present hk hpresent
  obtain rfl : nodeAt s child = t := nodeAt_of_getElem? ht
  exact ⟨walk_to_leaf hedge, walk_to_internal hedge, walk_to_invalid hedge⟩

/-! ## HD.BITS -/

/-- The state after the first j of some bits, each walked from the state the one before it left (R132). -/
def walkedState : Bits → State → Nat → State
  | _, s, 0 => s
  | [], s, _ + 1 => s
  | b :: bs, s, j + 1 => walkedState bs (walk b s).1 j

@[simp] theorem walkedState_zero (bs : Bits) (s : State) : walkedState bs s 0 = s := by cases bs <;> rfl

theorem walkedState_cons {b : Bool} {bs : Bits} {s t : State} {ok : Bool} (h : walk b s = (t, ok)) (j : Nat) :
    walkedState (b :: bs) s (j + 1) = walkedState bs t j := by rw [walkedState, h]

/-- The first k of some bits are walked one after another, none of them failing. -/
def WalkSucceeds (bs : Bits) (s : State) (k : Nat) : Prop :=
  ∀ j b, j < k → bs[j]? = some b → walk b (walkedState bs s j) = (walkedState bs s (j + 1), true)

theorem WalkSucceeds.cons {b : Bool} {bs : Bits} {s t : State} {k : Nat} (hw : walk b s = (t, true))
    (h : WalkSucceeds bs t k) : WalkSucceeds (b :: bs) s (k + 1) := by
  intro j a hj ha
  rw [walkedState_cons hw]
  cases j with
  | zero =>
    obtain rfl : b = a := by simpa using ha
    simpa using hw
  | succ j => exact walkedState_cons hw j ▸ h j a (Nat.lt_of_succ_lt_succ hj) ha

/-- The loop of HD.BITS walks all its bits, or raises TREE in the state the first failing bit left (R132, R218). -/
theorem walkBits_cases (n : BitVec 6) (bs : Bits) (s : State) :
    (WalkSucceeds bs s bs.length ∧ walkBits n bs s = walkedState bs s bs.length) ∨
    ∃ j b u, bs[j]? = some b ∧ WalkSucceeds bs s j ∧ walk b (walkedState bs s j) = (u, false) ∧
      walkBits n bs s = raise .tree (encodeCommand (.hdBits n)) u := by
  induction bs generalizing s with
  | nil => exact .inl ⟨nofun, rfl⟩
  | cons b bs ih =>
    rcases hw : walk b s with ⟨t, ok⟩
    cases ok with
    | false =>
      exact .inr ⟨0, b, t, rfl, nofun, (walkedState_zero _ s).symm ▸ hw, walkBits_cons_fail n b bs s t hw⟩
    | true =>
      rw [walkBits_cons_ok n b bs s t hw]
      rcases ih t with ⟨hall, hend⟩ | ⟨j, a, u, ha, hbefore, hfail, hend⟩
      · exact .inl ⟨hall.cons hw, hend.trans (walkedState_cons hw _).symm⟩
      · exact .inr ⟨j + 1, a, u, ha, hbefore.cons hw, (walkedState_cons hw j).symm ▸ hfail, hend⟩

section HdBits

variable {n : BitVec 6} {s : State}

theorem execHdBits_badArg (h : n.toNat = 0 ∨ 32 < n.toNat) :
    execHdBits n s = .next (raise .badArg (encodeCommand (.hdBits n)) s) :=
  if_pos (h.imp_left fun h0 => BitVec.eq_of_toNat_eq h0)

theorem cnt_legal (hpos : 1 ≤ n.toNat) (hmax : n.toNat ≤ 32) : ¬(n = 0 ∨ 32 < n.toNat) := by
  rintro (rfl | hlong)
  · exact absurd hpos (by decide)
  · exact not_le.2 hlong hmax

theorem execHdBits_overrun (hpos : 1 ≤ n.toNat) (hmax : n.toNat ≤ 32)
    (hfull : s.params.sqCap < s.hdQ.length + n.toNat) :
    execHdBits n s = .next (raise .overrun (encodeCommand (.hdBits n)) s) :=
  (if_neg (cnt_legal hpos hmax)).trans (if_pos hfull)

theorem execHdBits_walks (hpos : 1 ≤ n.toNat) (hmax : n.toNat ≤ 32)
    (hfit : s.hdQ.length + n.toNat ≤ s.params.sqCap) :
    execHdBits n s = .next (walkBits n (argBits s n) s) :=
  (if_neg (cnt_legal hpos hmax)).trans (if_neg (not_lt.2 hfit))

end HdBits

/-- Settles O33: reserved bits are [26:6]; the checks of N and of the room come next, then the loop over ARG0's bits. -/
theorem hdBitsWalksBitAfterBit : Obligations.HdBitsWalksBitAfterBit := by
  intro n s
  refine ⟨badCmdWhen_range rfl (by decide) (by decide) s, execHdBits_badArg,
    fun hpos hmax => ⟨execHdBits_overrun hpos hmax, fun hfit => ?_⟩⟩
  have hbit {j : Nat} (hj : j < n.toNat) : (argBits s n)[j]? = some (s.arg0.getLsbD (31 - j)) :=
    unpack_getElem? s.arg0 n.toNat j hj
  have hlen : (argBits s n).length = n.toNat := unpack_length s.arg0 n.toNat
  have hexec : exec (.hdBits n) s = _ := execHdBits_walks hpos hmax hfit
  refine ⟨walkedState (argBits s n) s, walkedState_zero _ _, ?_⟩
  rcases walkBits_cases n (argBits s n) s with ⟨hall, hend⟩ | ⟨j, b, u, hb, hbefore, hfail, hend⟩
  · rw [hlen] at hall hend
    exact .inl ⟨fun j hj => hall j _ hj (hbit hj), hexec.trans (congrArg _ hend)⟩
  · have hj : j < n.toNat := hlen ▸ (List.getElem?_eq_some_iff.1 hb).1
    obtain rfl : s.arg0.getLsbD (31 - j) = b := Option.some.inj ((hbit hj).symm.trans hb)
    exact .inr ⟨j, u, hj, fun i hi => hbefore i _ hi (hbit (hi.trans hj)), hfail, hexec.trans (congrArg _ hend)⟩

/-! ## HD.END -/

/-- Settles O34: every bit of [26:0] is reserved; TRUNC is bit 7, set in the one case of a path cut off. -/
theorem hdEndDropsADanglingPath : Obligations.HdEndDropsADanglingPath := by
  intro s
  refine ⟨badCmdWhen_range rfl (by decide) (by decide) s, ?_⟩
  cases hmid : s.mid <;> simp [exec, execHdEnd, hmid, rewind, setTrunc, setBit, truncBit]

end Sys2Proof.Machine
end

section
/-! PROOFS. The reads that show the streams: HD_DATA (42_huffman_decoder.md R137), HD_WALK (R138), CE_STATE
(43_hamming_encoder.md R156) and CD_STATE (44_hamming_decoder.md R176). -/

namespace Sys2Proof.Machine

/-! ## HD_DATA -/

/-- The word of a popped symbol: the symbol under zeros, and bit 31 set (R137). -/
theorem hdDataWord_fields (sym : Sym) :
    (hdDataWord sym).extractLsb' 0 21 = sym ∧ (hdDataWord sym).extractLsb' 21 10 = 0#10 ∧
      (hdDataWord sym).getLsbD 31 = true := by
  refine ⟨BitVec.extractLsb'_append_eq_right, ?_, ?_⟩
  · exact (BitVec.extractLsb'_append_eq_of_le (le_refl 21)).trans BitVec.extractLsb'_append_eq_right
  · exact BitVec.getLsbD_append.trans (by simp)

theorem execRdHdData_empty {s : State} (h : s.hdQ = []) : execRdHdData s = .next (underrun s) := by
  simp [execRdHdData, h]

theorem execRdHdData_pops {s : State} {sym : Sym} {rest : List Sym} (h : s.hdQ = sym :: rest) :
    execRdHdData s = .next (respond (hdDataWord sym) { s with hdQ := rest }) := by
  simp [execRdHdData, h]

/-- Settles O43: the underrun of an empty queue, or the pop and the fields of its word. -/
theorem hdDataReadPopsOneSymbol : Obligations.HdDataReadPopsOneSymbol := fun s =>
  ⟨fun hempty => (execRdHdData_empty hempty).trans (next_underrun s),
    fun sym _ hq => ⟨hdDataWord sym, execRdHdData_pops hq, hdDataWord_fields sym⟩⟩

/-! ## The state words -/

/-- A bit of a word is a bit of the field it lies in. -/
theorem getLsbD_of_field {w n : Nat} {v : BitVec w} {x : BitVec n} {start : Nat} (h : v.extractLsb' start n = x)
    {i : Nat} (hi : i < n) : v.getLsbD (start + i) = x.getLsbD i := by
  rw [← h, BitVec.getLsbD_extractLsb', decide_eq_true hi, Bool.true_and]

/-- A sequence left-aligned in a field has its bit j at the field's bit n-1-j (R11). -/
theorem getLsbD_of_packLeft_field {w n : Nat} {v : BitVec w} {start : Nat} {s : Bits}
    (h : v.extractLsb' start n = packLeft n s) (hlen : s.length ≤ n) {j : Nat} (hj : j < n) :
    v.getLsbD (start + (n - 1 - j)) = (s[j]?).getD false :=
  (getLsbD_of_field h (by omega)).trans (packLeft_getLsbD n s hlen j hj)

theorem hdWalkWord_fields (s : State) :
    (hdWalkWord s).extractLsb' 0 11 = s.cur ∧ (hdWalkWord s).extractLsb' 11 4 = 0#4 ∧
      (hdWalkWord s).extractLsb' 15 1 = BitVec.ofBool s.mid ∧ (hdWalkWord s).extractLsb' 16 11 = s.root ∧
      (hdWalkWord s).extractLsb' 27 5 = 0#5 := by
  refine ⟨?_, ?_, ?_, ?_, ?_⟩ <;>
    simp (disch := omega) only [hdWalkWord, BitVec.extractLsb'_append_eq_right, BitVec.extractLsb'_append_eq_of_le,
      Nat.reduceSub, BitVec.extractLsb'_eq_self]

theorem ceStateWord_fields (s : State) :
    (ceStateWord s).extractLsb' 0 2 = s.cePad ∧ (ceStateWord s).extractLsb' 2 2 = 0#2 ∧
      (ceStateWord s).extractLsb' 4 3 = BitVec.ofNat 3 s.ceG.length ∧ (ceStateWord s).extractLsb' 7 1 = 0#1 ∧
      (ceStateWord s).extractLsb' 8 4 = packLeft 4 s.ceG ∧ (ceStateWord s).extractLsb' 12 20 = 0#20 := by
  refine ⟨?_, ?_, ?_, ?_, ?_, ?_⟩ <;>
    simp (disch := omega) only [ceStateWord, BitVec.extractLsb'_append_eq_right, BitVec.extractLsb'_append_eq_of_le,
      Nat.reduceSub, BitVec.extractLsb'_eq_self]

theorem cdStateWord_fields (s : State) :
    (cdStateWord s).extractLsb' 0 3 = s.cdSyn ∧ (cdStateWord s).extractLsb' 3 1 = 0#1 ∧
      (cdStateWord s).extractLsb' 4 3 = BitVec.ofNat 3 s.cdB.length ∧ (cdStateWord s).extractLsb' 7 1 = 0#1 ∧
      (cdStateWord s).extractLsb' 8 1 = BitVec.ofBool s.cdHold.isSome ∧ (cdStateWord s).extractLsb' 9 3 = 0#3 ∧
      (cdStateWord s).extractLsb' 12 4 = holdField s.cdHold ∧ (cdStateWord s).extractLsb' 16 7 = packLeft 7 s.cdB ∧
      (cdStateWord s).extractLsb' 23 9 = 0#9 := by
  refine ⟨?_, ?_, ?_, ?_, ?_, ?_, ?_, ?_, ?_⟩ <;>
    simp (disch := omega) only [cdStateWord, BitVec.extractLsb'_append_eq_right, BitVec.extractLsb'_append_eq_of_le,
      Nat.reduceSub, BitVec.extractLsb'_eq_self]

/-- d1 is the most significant bit of a nibble's field (R176). -/
theorem toField_getLsbD (d : Nibble) :
    d.toField.getLsbD 3 = d.d1 ∧ d.toField.getLsbD 2 = d.d2 ∧ d.toField.getLsbD 1 = d.d3 ∧ d.toField.getLsbD 0 = d.d4 := by
  obtain ⟨d1, d2, d3, d4⟩ := d
  revert d1 d2 d3 d4
  decide

/-- A flag's field of one bit is the flag. -/
theorem getLsbD_of_flag {w : Nat} {v : BitVec w} {b : Bool} {start : Nat} (h : v.extractLsb' start 1 = BitVec.ofBool b) :
    v.getLsbD start = b := (getLsbD_of_field h one_pos).trans (by simp)

/-- A length below 8 is shown whole in its field of three bits (R156, R176). -/
theorem toNat_of_length_field {w k : Nat} {v : BitVec w} {start : Nat} (h : v.extractLsb' start 3 = BitVec.ofNat 3 k)
    (hk : k < 2 ^ 3) : (v.extractLsb' start 3).toNat = k := (congrArg _ h).trans (Nat.mod_eq_of_lt hk)

/-- Settles O45: each word field by field; a flag is its field's one bit, a partial sequence its field's bits from the top. -/
theorem stateWordsShowTheStreamState : Obligations.StateWordsShowTheStreamState := by
  intro s
  refine ⟨?_, fun hceG => ?_, fun hcdB => ?_⟩
  · obtain ⟨hcur, hzero4, hmid, hroot, hzero5⟩ := hdWalkWord_fields s
    exact ⟨hdWalkWord s, rfl, hcur, hzero4, getLsbD_of_flag hmid, hroot, hzero5⟩
  · obtain ⟨hpad, hzero2, hlen, hzero1, hgroup, hzero20⟩ := ceStateWord_fields s
    refine ⟨ceStateWord s, rfl, hpad, hzero2, toNat_of_length_field hlen (by omega), getLsbD_of_field hzero1 one_pos,
      fun j hj => ?_, hzero20⟩
    rw [show 11 - j = 8 + (4 - 1 - j) by omega]
    exact getLsbD_of_packLeft_field hgroup (by omega) hj
  · obtain ⟨hsyn, hzero1, hlen, hzero1', hsome, hzero3, hhold, hblock, hzero9⟩ := cdStateWord_fields s
    refine ⟨cdStateWord s, rfl, hsyn, getLsbD_of_field hzero1 one_pos, toNat_of_length_field hlen (by omega),
      getLsbD_of_field hzero1' one_pos, getLsbD_of_flag hsome, hzero3, fun hnone => ?_, fun d hd => ?_,
      fun j hj => ?_, hzero9⟩
    · rw [hhold, hnone]; rfl
    · obtain ⟨h1, h2, h3, h4⟩ := toField_getLsbD d
      have hfield : (cdStateWord s).extractLsb' 12 4 = d.toField := by rw [hhold, hd]; rfl
      have hbit {i : Nat} (hi : i < 4) := getLsbD_of_field hfield hi
      exact ⟨(hbit (i := 3) (by decide)).trans h1, (hbit (i := 2) (by decide)).trans h2,
        (hbit (i := 1) (by decide)).trans h3, (hbit (i := 0) (by decide)).trans h4⟩
    · rw [show 22 - j = 16 + (7 - 1 - j) by omega]
      exact getLsbD_of_packLeft_field hblock (by omega) hj

end Sys2Proof.Machine
end

section
/-! PROOFS. The Huffman decoder agrees with the source's decode (42_huffman_decoder.md R135): by induction on the host's
moves, the symbols queued and those the stream still to come decodes to are what the host will still be given. -/

namespace Sys2Proof.Machine

/-! ## A tree in the arena -/

/-- Whether the arena holds a tree depends on the nodes only (R32). -/
theorem treeAt_of_node_eq {s s' : State} {t : CodeTree} {i : NodeIdx} (h : treeAt s t i) (hnode : s'.node = s.node) :
    treeAt s' t i := by
  have hat (i : NodeIdx) : nodeAt s' i = nodeAt s i := by rw [nodeAt, nodeAt, hnode]
  induction t generalizing i with
  | absent => trivial
  | leaf sym w => rwa [treeAt, hat]
  | internal w l r ihl ihr =>
    obtain ⟨hk, hlv, hrv, hleft, hright⟩ := h
    rw [treeAt, hat]
    exact ⟨hk, hlv, hrv, ihl hleft, ihr hright⟩

/-- The node of an INTERNAL tree leads to the child the tree has on the bit (R33, R135). -/
theorem edge_of_treeAt {s : State} {w : Nat} {l r t : CodeTree} {i : NodeIdx} (h : treeAt s (.internal w l r) i)
    {b : Bool} (hchild : (if b then r else l) = t) (hpresent : t ≠ .absent) :
    ∃ j, edge (nodeAt s i) b = some j ∧ treeAt s t j := by
  obtain ⟨hk, hlv, hrv, hleft, hright⟩ := h
  subst hchild
  cases b with
  | false => exact ⟨_, edge_of_present hk (hlv.2 hpresent), hleft⟩
  | true => exact ⟨_, edge_of_present hk (hrv.2 hpresent), hright⟩

/-! ## What the host will be given -/

/-- Nothing is in STATUS, the arena holds the tree at root, and the walker of s stands at a node from which the bits still
to come decode to symbols that complete the queue to out, the stream ending mid-path or not (R133, R135). -/
structure HdYields (tree : CodeTree) (s : State) (bits : Bits) (out : List Sym) (mid : Bool) : Prop where
  status_clear : s.status = 0
  at_root : treeAt s tree s.root
  decodes : ∃ node syms, treeAt s node s.cur ∧ sourceDecodeFrom tree node s.mid bits = some (syms, mid) ∧
    s.hdQ ++ syms = out

section Yields

variable {tree : CodeTree} {s : State} {bits : Bits} {out : List Sym} {mid : Bool}

/-- A bit of a stream that decodes never fails, and takes the walker where the source goes (R133). -/
theorem HdYields.after_walk {b : Bool} (h : HdYields tree s (b :: bits) out mid) :
    ∃ t, walk b s = (t, true) ∧ HdYields tree t bits out mid := by
  obtain ⟨hstatus, hroot, node, syms, hcur, hdec, hout⟩ := h
  cases node with
  | absent => cases hdec
  | leaf sym w => cases hdec
  | internal w l r =>
    rw [sourceDecodeFrom] at hdec
    cases hchild : (if b then r else l) with
    | absent => simp [hchild] at hdec
    | leaf sym w' =>
      obtain ⟨j, hedge, hk, hsym⟩ := edge_of_treeAt hcur hchild nofun
      simp only [hchild, Option.map_eq_some_iff, Prod.mk.injEq] at hdec
      obtain ⟨⟨syms', mid'⟩, hdec', rfl, rfl⟩ := hdec
      refine ⟨_, walk_to_leaf hedge hk, hstatus, treeAt_of_node_eq hroot rfl, tree, syms',
        treeAt_of_node_eq hroot rfl, hdec', ?_⟩
      simpa [hsym] using hout
    | internal w' l' r' =>
      obtain ⟨j, hedge, hj⟩ := edge_of_treeAt hcur hchild nofun
      exact ⟨_, walk_to_internal hedge hj.1, hstatus, treeAt_of_node_eq hroot rfl, _, syms, treeAt_of_node_eq hj rfl,
        by simpa only [hchild] using hdec, hout⟩

/-- The loop of HD.BITS consumes the next bits of a stream that decodes (R132). -/
theorem HdYields.after_walkBits (n : BitVec 6) {bs : Bits} (h : HdYields tree s (bs ++ bits) out mid) :
    HdYields tree (walkBits n bs s) bits out mid := by
  induction bs generalizing s with
  | nil => exact h
  | cons b bs ih =>
    obtain ⟨t, hw, ht⟩ := h.after_walk
    exact (walkBits_cons_ok n b bs s t hw).symm ▸ ih ht

/-- The operand register takes no part in it (R27). -/
theorem HdYields.after_wrArg0 (v : Word) (h : HdYields tree s bits out mid) :
    HdYields tree { s with arg0 := v } bits out mid := by
  obtain ⟨hstatus, hroot, node, syms, hcur, hdec, hout⟩ := h
  exact ⟨hstatus, treeAt_of_node_eq hroot rfl, node, syms, treeAt_of_node_eq hcur rfl, hdec, hout⟩

/-- A pop gives the host the first symbol of what it will be given (R137). -/
theorem HdYields.after_pop {sym : Sym} {rest : List Sym} (v : Word) (h : HdYields tree s bits out mid)
    (hq : s.hdQ = sym :: rest) :
    ∃ out', out = sym :: out' ∧ HdYields tree (respond v { s with hdQ := rest }) bits out' mid := by
  obtain ⟨hstatus, hroot, node, syms, hcur, hdec, rfl⟩ := h
  exact ⟨rest ++ syms, by rw [hq]; rfl, hstatus, treeAt_of_node_eq hroot rfl, node, syms, treeAt_of_node_eq hcur rfl,
    hdec, rfl⟩

/-- At the end of the stream the queue holds all that is left to give (R134, R135). -/
theorem HdYields.at_end (h : HdYields tree s [] out mid) : s.hdQ = out ∧ s.mid = mid := by
  obtain ⟨-, -, node, syms, -, hdec, hout⟩ := h
  rw [sourceDecodeFrom] at hdec
  obtain ⟨rfl, hmid⟩ := Prod.mk.inj (Option.some.inj hdec)
  exact ⟨(List.append_nil _).symm.trans hout, hmid⟩

end Yields

/-! ## The two moves -/

/-- A push to HD writes ARG0 and runs HD.BITS for the bits in it; one of no bits or of more than 32 does not assemble
(R85). -/
theorem performLines_hdPush (bits : Bits) (s : State) :
    performLines [.hdPush bits] s =
      if 1 ≤ bits.length ∧ bits.length ≤ 32 then
        perform { s with arg0 := pack bits } (.command (.hdBits (BitVec.ofNat 6 bits.length)))
      else s := by
  have hwr : perform s (.wr .arg0 (pack bits)) = { s with arg0 := pack bits } :=
    perform_of_next (congrArg (exec · s) (decode_wr .arg0 (pack bits)))
  by_cases hlen : 1 ≤ bits.length ∧ bits.length ≤ 32 <;>
    simp [performLines, assembleAll, assemble, asmPush, hlen, hwr]

/-- A push raises an error, or walks its bits (R132). -/
theorem hdPush_cases {bits : Bits} (hpos : 1 ≤ bits.length) (hmax : bits.length ≤ 32) (s : State) :
    ¬ErrorFree (performLines [.hdPush bits] s) ∨
    performLines [.hdPush bits] s = walkBits (BitVec.ofNat 6 bits.length) bits { s with arg0 := pack bits } := by
  have hn : (BitVec.ofNat 6 bits.length).toNat = bits.length := Nat.mod_eq_of_lt (by omega)
  have hbits : argBits { s with arg0 := pack bits } (BitVec.ofNat 6 bits.length) = bits := by
    rw [argBits, hn, unpack_pack bits hmax _ (le_refl _), List.take_length]
  rw [performLines_hdPush, if_pos ⟨hpos, hmax⟩]
  by_cases hfit : s.hdQ.length + bits.length ≤ s.params.sqCap
  · right
    rw [perform_command (c := .hdBits _) (execHdBits_walks (by omega) (by omega) (by rwa [hn])), hbits]
  · left
    rw [perform_command (c := .hdBits _) (execHdBits_overrun (by omega) (by omega) (by rw [hn]; exact not_le.1 hfit))]
    exact not_errorFree_raise _ _ _

theorem errorFree_of_hdPush (bits : Bits) (s : State) (h : ErrorFree (performLines [.hdPush bits] s)) : ErrorFree s := by
  rw [performLines_hdPush] at h
  split at h
  · exact errorFree_of_perform_command (s := { s with arg0 := pack bits }) h
  · exact h

/-- A pop raises an error, or takes the oldest symbol off the queue (R137). -/
theorem popSym_cases (s : State) :
    ¬ErrorFree (popSym s).2 ∨ ∃ sym rest, s.hdQ = sym :: rest ∧
      popSym s = ([sym], respond (hdDataWord sym) { s with hdQ := rest }) := by
  cases hq : s.hdQ with
  | nil =>
    left
    rw [popSym, readReg_of_respond (r := .hdData) (execRdHdData_empty hq)]
    exact not_errorFree_raise .underrun 0 _
  | cons sym rest =>
    obtain ⟨hsym, -, hvalid⟩ := hdDataWord_fields sym
    refine .inr ⟨sym, rest, rfl, ?_⟩
    simp only [popSym, readReg_of_respond (r := .hdData) (execRdHdData_pops hq), hsym, hvalid, if_true]

/-! ## All moves -/

theorem hdMoves_push (bits : Bits) (ms : List (Move Bits)) (s : State) :
    hdMoves (.push bits :: ms) s = hdMoves ms (performLines [.hdPush bits] s) := rfl

theorem hdMoves_pop (ms : List (Move Bits)) (s : State) :
    hdMoves (.pop :: ms) s = ((popSym s).1 ++ (hdMoves ms (popSym s).2).1, (hdMoves ms (popSym s).2).2) := rfl

theorem errorFree_of_hdMoves (ms : List (Move Bits)) (s : State) (h : ErrorFree (hdMoves ms s).2) : ErrorFree s :=
  errorFree_of_runMoves errorFree_of_hdPush (fun _ => errorFree_of_readReg) ms s h

/-- With no error raised, the moves give out and still hold what the host was to be given, the stream consumed (R135). -/
theorem hdMoves_yield {tree : CodeTree} {out : List Sym} {mid : Bool} (ms : List (Move Bits)) (s : State)
    (hfit : pushesFit ms) (hfree : ErrorFree (hdMoves ms s).2) (h : HdYields tree s (pushed ms).flatten out mid) :
    ∃ out', out = (hdMoves ms s).1 ++ out' ∧ HdYields tree (hdMoves ms s).2 [] out' mid := by
  induction ms generalizing s out with
  | nil => exact ⟨out, rfl, h⟩
  | cons m ms ih =>
    cases m with
    | push bits =>
      rw [hdMoves_push] at hfree ⊢
      obtain ⟨⟨hpos, hmax⟩, hfit'⟩ := List.forall_mem_cons.1 hfit
      have hstep := (hdPush_cases hpos hmax s).resolve_left (not_not_intro (errorFree_of_hdMoves ms _ hfree))
      rw [hstep] at hfree ⊢
      exact ih _ hfit' hfree ((h.after_wrArg0 (pack bits)).after_walkBits _)
    | pop =>
      rw [hdMoves_pop] at hfree ⊢
      obtain ⟨sym, rest, hq, hstep⟩ :=
        (popSym_cases s).resolve_left (not_not_intro (errorFree_of_hdMoves ms _ hfree))
      rw [hstep] at hfree ⊢
      obtain ⟨out', rfl, hrest⟩ := h.after_pop (hdDataWord sym) hq
      obtain ⟨out'', rfl, hend⟩ := ih _ hfit hfree hrest
      exact ⟨out'', rfl, hend⟩

/-- Settles O52, from the empty queue and the walker at root that CLEAR HD leaves; HD.END is O34's. -/
theorem huffmanDecoderAgreesWithTheSource : Obligations.HuffmanDecoderAgreesWithTheSource := by
  intro w l r ms s s₁ syms mid tree htree hstatus hclear hfit hfree hdec
  obtain rfl : cleared 2#4 s = s₁ := next_inj.1 ((execClear_eq 2#4 s).symm.trans hclear)
  have hroot : treeAt (cleared 2#4 s) tree s.root := treeAt_of_node_eq htree rfl
  obtain ⟨out, rfl, hend⟩ := hdMoves_yield ms _ hfit hfree ⟨hstatus, hroot, tree, syms, hroot, hdec, rfl⟩
  obtain ⟨rfl, rfl⟩ := hend.at_end
  refine ⟨rfl, _, (hdEndDropsADanglingPath _).2, rfl, ?_⟩
  simp [hend.status_clear]

end Sys2Proof.Machine
end

section
/-! PROOFS. The commands of the Hamming encoder (43_hamming_encoder.md): CE.ENC4 (R150, R153), CE.BITS (R151) and CE.END
(R152). -/

namespace Sys2Proof.Machine

/-! ## CE.ENC4 -/

/-- b1 is the most significant bit of a block's field (R150). -/
theorem Block.toField_getLsbD (b : Block) :
    b.toField.getLsbD 6 = b.b1 ∧ b.toField.getLsbD 5 = b.b2 ∧ b.toField.getLsbD 4 = b.b3 ∧ b.toField.getLsbD 3 = b.b4 ∧
      b.toField.getLsbD 2 = b.b5 ∧ b.toField.getLsbD 1 = b.b6 ∧ b.toField.getLsbD 0 = b.b7 := by
  obtain ⟨b1, b2, b3, b4, b5, b6, b7⟩ := b
  revert b1 b2 b3 b4 b5 b6 b7
  decide

/-- Settles O35: reserved bits are [26:4]; RES is the block's field under zeros, bit by bit the block. -/
theorem ceEnc4PutsTheBlockInRes : Obligations.CeEnc4PutsTheBlockInRes := by
  intro d s d1 d2 d3 d4
  have hbits := Block.toField_getLsbD (henc (Nibble.ofField d))
  refine ⟨badCmdWhen_range rfl (by decide) (by decide) s, 0#25 ++ (henc (Nibble.ofField d)).toField, rfl, ?_, ?_⟩
  · have hnat : (0#25 ++ (henc (Nibble.ofField d)).toField).toNat = (henc (Nibble.ofField d)).toField.toNat :=
      (BitVec.toNat_append ..).trans (by simp)
    exact hnat ▸ (henc (Nibble.ofField d)).toField.isLt
  · simp only [BitVec.getLsbD_append, Nat.reduceLT, if_true]
    exact hbits

/-! ## CE.BITS -/

/-- The bits after a stream's complete groups of four. -/
def ungrouped (bits : Bits) : Bits := bits.drop (4 * (bits.length / 4))

@[simp] theorem ungrouped_length (bits : Bits) : (ungrouped bits).length = bits.length % 4 := by
  rw [ungrouped, List.length_drop]
  omega

/-- The encoder after it has taken some bits: the blocks of the groups completed are queued, the rest is the group
(R151). -/
def ceFed (bits : Bits) (s : State) : State :=
  { s with ceQ := s.ceQ ++ encodeGroups (s.ceG ++ bits), ceG := ungrouped (s.ceG ++ bits) }

/-- The loop of CE.BITS feeds it the bits. -/
theorem foldl_cePush_eq_ceFed (bits : Bits) {s : State} (hshort : s.ceG.length ≤ 3) :
    bits.foldl cePush s = ceFed bits s := by
  rw [foldl_cePush bits s hshort, ceFed, ungrouped, List.length_append]

section CeBits

variable {n : BitVec 6} {s : State}

theorem execCeBits_badArg (h : n.toNat = 0 ∨ 32 < n.toNat) :
    execCeBits n s = .next (raise .badArg (encodeCommand (.ceBits n)) s) :=
  if_pos (h.imp_left fun h0 => BitVec.eq_of_toNat_eq h0)

theorem execCeBits_overrun (hpos : 1 ≤ n.toNat) (hmax : n.toNat ≤ 32)
    (hfull : s.params.qCap < s.ceQ.length + ceBound n s) :
    execCeBits n s = .next (raise .overrun (encodeCommand (.ceBits n)) s) :=
  (if_neg (cnt_legal hpos hmax)).trans (if_pos hfull)

theorem execCeBits_feeds (hpos : 1 ≤ n.toNat) (hmax : n.toNat ≤ 32) (hshort : s.ceG.length ≤ 3)
    (hfit : s.ceQ.length + ceBound n s ≤ s.params.qCap) :
    execCeBits n s = .next (ceFed (argBits s n) s) := by
  rw [← foldl_cePush_eq_ceFed _ hshort]
  exact (if_neg (cnt_legal hpos hmax)).trans (if_neg (not_lt.2 hfit))

end CeBits

/-- Settles O36: reserved bits are [26:6]; the checks of N and of the room come next, then the bits are fed. -/
theorem ceBitsEncodesCompleteGroups : Obligations.CeBitsEncodesCompleteGroups := by
  intro n s hshort bits groups
  refine ⟨badCmdWhen_range rfl (by decide) (by decide) s, execCeBits_badArg,
    fun hpos hmax => ⟨execCeBits_overrun hpos hmax, fun hfit => ?_⟩⟩
  have hgroups : bits.length / 4 = groups := by rw [List.length_append, unpack_length]
  rw [← hgroups]
  exact execCeBits_feeds hpos hmax hshort hfit

/-! ## CE.END -/

/-- The padded group's block is that of the group with zero bits appended (R152). -/
theorem henc_padded_bits : ∀ g : Bits, 1 ≤ g.length → g.length ≤ 3 →
    (henc (padded g)).bits = encodeGroups (g ++ List.replicate (4 - g.length) false)
  | [_], _, _ => rfl
  | [_, _], _, _ => rfl
  | [_, _, _], _, _ => rfl
  | [], hpos, _ => absurd hpos (by simp)
  | _ :: _ :: _ :: _ :: _, _, hmax => absurd hmax (by simp)

section CeEnd

variable {s : State}

theorem execCeEnd_empty (h : s.ceG = []) : execCeEnd s = .next { s with cePad := 0 } := if_pos h

theorem execCeEnd_overrun (h : s.ceG ≠ []) (hfull : s.params.qCap < s.ceQ.length + 7) :
    execCeEnd s = .next (raise .overrun (encodeCommand .ceEnd) s) := (if_neg h).trans (if_pos hfull)

theorem execCeEnd_pads (h : s.ceG ≠ []) (hshort : s.ceG.length ≤ 3) (hfit : s.ceQ.length + 7 ≤ s.params.qCap) :
    execCeEnd s = .next { s with
      ceQ := s.ceQ ++ encodeGroups (s.ceG ++ List.replicate (4 - s.ceG.length) false)
      cePad := BitVec.ofNat 2 (4 - s.ceG.length)
      ceG := [] } := by
  rw [← henc_padded_bits _ (List.length_pos_of_ne_nil h) hshort]
  exact (if_neg h).trans (if_neg (not_lt.2 hfit))

end CeEnd

/-- Settles O37: every bit of [26:0] is reserved; then the empty group, the check of the room, or the padded group. -/
theorem ceEndPadsTheLastGroup : Obligations.CeEndPadsTheLastGroup := by
  intro s
  refine ⟨badCmdWhen_range rfl (by decide) (by decide) s, execCeEnd_empty, fun hpos hshort => ?_⟩
  have hne : s.ceG ≠ [] := List.ne_nil_of_length_pos hpos
  refine ⟨execCeEnd_overrun hne, fun hfit => ⟨BitVec.ofNat 2 (4 - s.ceG.length), ?_, execCeEnd_pads hne hshort hfit⟩⟩
  exact Nat.mod_eq_of_lt (by omega)

end Sys2Proof.Machine
end

section
/-! PROOFS. The Hamming encoder agrees with the source's encode (43_hamming_encoder.md R157): by induction on the host's
moves, what was popped, what is queued and the group are what feeding the whole stream at once gives. -/

namespace Sys2Proof.Machine

/-! ## A stream cut in two -/

theorem ungrouped_group (d1 d2 d3 d4 : Bool) (rest : Bits) :
    ungrouped (d1 :: d2 :: d3 :: d4 :: rest) = ungrouped rest := by
  have hgroups : (rest.length + 4) / 4 = rest.length / 4 + 1 := Nat.add_div_right _ (by decide)
  simp [ungrouped, hgroups, Nat.mul_add]

theorem ungrouped_short {bits : Bits} (h : bits.length < 4) : ungrouped bits = bits := by
  rw [ungrouped, Nat.div_eq_of_lt h]
  rfl

/-- The complete groups of a stream, then those its leftover bits complete with what follows (R151). -/
theorem grouping_append : ∀ xs ys : Bits,
    encodeGroups (xs ++ ys) = encodeGroups xs ++ encodeGroups (ungrouped xs ++ ys) ∧
      ungrouped (xs ++ ys) = ungrouped (ungrouped xs ++ ys)
  | d1 :: d2 :: d3 :: d4 :: rest, ys => by
    obtain ⟨hencode, hleft⟩ := grouping_append rest ys
    simp only [List.cons_append, encodeGroups_group, ungrouped_group, List.append_assoc, hencode, hleft, and_self]
  | [], _ | [_], _ | [_, _], _ | [_, _, _], _ => by simp [encodeGroups_short, ungrouped_short]

/-- Feeding two streams one after the other is feeding the one they make (R157). -/
theorem ceFed_append (xs ys : Bits) (s : State) : ceFed ys (ceFed xs s) = ceFed (xs ++ ys) s := by
  obtain ⟨hencode, hleft⟩ := grouping_append (s.ceG ++ xs) ys
  simp only [ceFed, ← List.append_assoc, hencode, hleft]

/-- The source's encode, when the complete groups are cut off first: the leftover bits alone are padded (R152, R157). -/
theorem hammingEncode_eq (bits : Bits) :
    hammingEncode bits = encodeGroups bits ++ hammingEncode (ungrouped bits) := by
  simp only [hammingEncode, padCount, ungrouped_length, Nat.mod_mod]
  exact (grouping_append bits _).1

theorem padCount_ungrouped (bits : Bits) : padCount (ungrouped bits) = padCount bits := by
  simp only [padCount, ungrouped_length, Nat.mod_mod]

theorem hammingEncode_length (bits : Bits) : (hammingEncode bits).length = 7 * ((bits.length + 3) / 4) := by
  rw [hammingEncode, encodeGroups_length, List.length_append, List.length_replicate, padCount]
  omega

/-! ## The two moves -/

/-- A push writes ARG0 and runs its command for the bits in it; one of no bits or of more than 32 does not assemble
(R85). -/
theorem performLines_push {l : Line} {c : BitVec 6 → Command} {bits : Bits} (h : assemble l = asmPush c bits)
    (s : State) : performLines [l] s =
      if 1 ≤ bits.length ∧ bits.length ≤ 32 then
        perform { s with arg0 := pack bits } (.command (c (BitVec.ofNat 6 bits.length)))
      else s := by
  have hwr : perform s (.wr .arg0 (pack bits)) = { s with arg0 := pack bits } :=
    perform_of_next (congrArg (exec · s) (decode_wr .arg0 (pack bits)))
  by_cases hlen : 1 ≤ bits.length ∧ bits.length ≤ 32 <;>
    simp [performLines, assembleAll, h, asmPush, hlen, hwr]

theorem errorFree_of_push {l : Line} {c : BitVec 6 → Command} {bits : Bits} (hl : assemble l = asmPush c bits)
    (s : State) (h : ErrorFree (performLines [l] s)) : ErrorFree s := by
  rw [performLines_push hl] at h
  split at h
  · exact errorFree_of_perform_command (s := { s with arg0 := pack bits }) h
  · exact h

/-- A command that takes as many bits as a pushed stream has takes the stream (R11, R74). -/
theorem argBits_pack {bits : Bits} (hmax : bits.length ≤ 32) (s : State) :
    argBits { s with arg0 := pack bits } (BitVec.ofNat 6 bits.length) = bits := by
  have hn : (BitVec.ofNat 6 bits.length).toNat = bits.length := Nat.mod_eq_of_lt (by omega)
  rw [argBits, hn, unpack_pack bits hmax _ (le_refl _), List.take_length]

/-- A push raises an error, or feeds its bits, for which there is room (R151). -/
theorem cePush_cases {bits : Bits} (hpos : 1 ≤ bits.length) (hmax : bits.length ≤ 32) {s : State}
    (hshort : s.ceG.length ≤ 3) :
    ¬ErrorFree (performLines [.cePush bits] s) ∨
    s.ceQ.length + 7 * ((s.ceG.length + bits.length) / 4) ≤ s.params.qCap ∧
      performLines [.cePush bits] s = ceFed bits { s with arg0 := pack bits } := by
  have hn : (BitVec.ofNat 6 bits.length).toNat = bits.length := Nat.mod_eq_of_lt (by omega)
  rw [performLines_push (c := .ceBits) rfl, if_pos ⟨hpos, hmax⟩]
  by_cases hfit : s.ceQ.length + 7 * ((s.ceG.length + bits.length) / 4) ≤ s.params.qCap
  · refine .inr ⟨hfit, ?_⟩
    rw [perform_command (c := .ceBits _) (execCeBits_feeds (s := { s with arg0 := pack bits }) (by omega) (by omega)
      hshort (by rwa [ceBound, hn])), argBits_pack hmax]
  · left
    rw [perform_command (c := .ceBits _)
      (execCeBits_overrun (by omega) (by omega) (by rw [ceBound, hn]; exact not_le.1 hfit))]
    exact not_errorFree_raise _ _ _

/-- A pop of a queue q, where DATA is an underrun of the empty queue, raises an error or takes up to 32 bits (R56). -/
theorem popBits_cases {level data : Reg} {q : Bits} {s t : State} (hlen : q.length < 2 ^ 32)
    (hlevel : exec (decodeRead level) s = .next (respond (levelWord q) s))
    (hdata : exec (decodeRead data) (respond (levelWord q) s) =
      if q = [] then .next (underrun (respond (levelWord q) s)) else .next (respond (popWord q) t)) :
    ¬ErrorFree (popBits level data s).2 ∨ popBits level data s = (q.take 32, respond (popWord q) t) := by
  by_cases hq : q = []
  · left
    rw [popBits, readReg_of_respond hlevel, readReg_of_respond (hdata.trans (if_pos hq))]
    exact not_errorFree_raise .underrun 0 _
  · exact .inr (popBits_eq_take hlen hlevel (hdata.trans (if_neg hq)))

/-- The block after a read of CE_LEVEL and a pop of CE_DATA (R154, R155). -/
def cePopped (s : State) : State :=
  respond (popWord s.ceQ) { respond (levelWord s.ceQ) s with ceQ := popRest s.ceQ }

theorem popCe_cases {s : State} (hlen : s.ceQ.length < 2 ^ 32) :
    ¬ErrorFree (popBits .ceLevel .ceData s).2 ∨ popBits .ceLevel .ceData s = (s.ceQ.take 32, cePopped s) :=
  popBits_cases hlen rfl rfl

/-! ## All moves -/

theorem ceMoves_push (bits : Bits) (ms : List (Move Bits)) (s : State) :
    ceMoves (.push bits :: ms) s = ceMoves ms (performLines [.cePush bits] s) := rfl

theorem ceMoves_pop (ms : List (Move Bits)) (s : State) :
    ceMoves (.pop :: ms) s = ((popBits .ceLevel .ceData s).1 ++ (ceMoves ms (popBits .ceLevel .ceData s).2).1,
      (ceMoves ms (popBits .ceLevel .ceData s).2).2) := rfl

theorem errorFree_of_ceMoves (ms : List (Move Bits)) (s : State) (h : ErrorFree (ceMoves ms s).2) : ErrorFree s :=
  errorFree_of_runMoves (fun _ => errorFree_of_push (c := .ceBits) rfl) (fun _ => errorFree_of_popBits) ms s h

/-- What was popped and what is still queued, and the group, are those of s fed the bits all at once (R157). -/
def CeAgrees (bits : Bits) (s : State) (out : Bits × State) : Prop :=
  out.1 ++ out.2.ceQ = (ceFed bits s).ceQ ∧ out.2.ceG = (ceFed bits s).ceG

theorem ceAgrees_nil {s : State} (hshort : s.ceG.length ≤ 3) : CeAgrees [] s ([], s) := by
  have hlt : s.ceG.length < 4 := by omega
  simp [CeAgrees, ceFed, encodeGroups_short _ hlt, ungrouped_short hlt]

theorem CeAgrees.push {xs ys : Bits} {s : State} {v : Word} {out : Bits × State}
    (h : CeAgrees ys (ceFed xs { s with arg0 := v }) out) : CeAgrees (xs ++ ys) s out := by
  rw [CeAgrees, ceFed_append] at h
  exact h

theorem CeAgrees.pop {bits : Bits} {s : State} {out : Bits × State} (h : CeAgrees bits (cePopped s) out) :
    CeAgrees bits s (s.ceQ.take 32 ++ out.1, out.2) := by
  obtain ⟨hout, hgroup⟩ := h
  have hqueue : s.ceQ.take 32 ++ (ceFed bits (cePopped s)).ceQ = (ceFed bits s).ceQ := by
    rw [ceFed, ← List.append_assoc]
    exact congrArg (· ++ _) (List.take_append_drop 32 s.ceQ)
  exact ⟨by rw [List.append_assoc, hout, hqueue], hgroup⟩

/-- With no error raised, the moves give out and leave what the pushed stream gives when it is fed at once (R157). -/
theorem ceMoves_agrees (ms : List (Move Bits)) (s : State) (hpushes : pushesFit ms)
    (hfree : ErrorFree (ceMoves ms s).2) (hshort : s.ceG.length ≤ 3) (hfits : s.ceQ.length ≤ s.params.qCap)
    (hcap : s.params.qCap < 2 ^ 32) : CeAgrees (pushed ms).flatten s (ceMoves ms s) := by
  induction ms generalizing s with
  | nil => exact ceAgrees_nil hshort
  | cons m ms ih =>
    cases m with
    | push bits =>
      rw [ceMoves_push] at hfree ⊢
      obtain ⟨⟨hpos, hmax⟩, hpushes'⟩ := List.forall_mem_cons.1 hpushes
      obtain ⟨hroom, hstep⟩ :=
        (cePush_cases hpos hmax hshort).resolve_left (not_not_intro (errorFree_of_ceMoves ms _ hfree))
      rw [hstep] at hfree ⊢
      refine (ih _ hpushes' hfree ?_ ?_ hcap).push
      · rw [ceFed, ungrouped_length]
        omega
      · simpa [ceFed, encodeGroups_length] using hroom
    | pop =>
      rw [ceMoves_pop] at hfree ⊢
      have hstep := (popCe_cases (by omega)).resolve_left (not_not_intro (errorFree_of_ceMoves ms _ hfree))
      rw [hstep] at hfree ⊢
      exact (ih (cePopped s) hpushes hfree hshort ((List.drop_sublist 32 _).length_le.trans hfits) hcap).pop

/-! ## CE.END -/

/-- With no error raised, CE.END queues the source's code of the group and sets its pad count (R152). -/
theorem ceEnd_encodes_group {s t : State} (hshort : s.ceG.length ≤ 3) (h : execCeEnd s = .next t) (hfree : ErrorFree t) :
    t.ceQ = s.ceQ ++ hammingEncode s.ceG ∧ t.cePad = BitVec.ofNat 2 (padCount s.ceG) := by
  by_cases hempty : s.ceG = []
  · obtain rfl := next_inj.1 ((execCeEnd_empty hempty).symm.trans h)
    rw [hempty]
    exact ⟨(List.append_nil _).symm, rfl⟩
  · by_cases hfit : s.ceQ.length + 7 ≤ s.params.qCap
    · obtain rfl := next_inj.1 ((execCeEnd_pads hempty hshort hfit).symm.trans h)
      have hpos : 0 < s.ceG.length := List.length_pos_of_ne_nil hempty
      have hpad : padCount s.ceG = 4 - s.ceG.length := by
        rw [padCount]
        omega
      rw [hammingEncode, hpad]
      exact ⟨rfl, rfl⟩
    · obtain rfl := next_inj.1 ((execCeEnd_overrun hempty (not_le.1 hfit)).symm.trans h)
      exact absurd hfree (not_errorFree_raise _ _ _)

/-- Settles O53, from the empty queue and the empty group that CLEAR CE leaves. -/
theorem hammingEncoderAgreesWithTheSource : Obligations.HammingEncoderAgreesWithTheSource := by
  intro ms s s₁ t hlegal _ hclear hpushes hend hfree
  obtain rfl : cleared 4#4 s = s₁ := next_inj.1 ((execClear_eq 4#4 s).symm.trans hclear)
  have hperform : perform (ceMoves ms (cleared 4#4 s)).2 (.command .ceEnd) = t := perform_command (c := .ceEnd) hend
  have hfree' : ErrorFree (ceMoves ms (cleared 4#4 s)).2 := errorFree_of_perform_command (hperform ▸ hfree)
  obtain ⟨hqueue, hgroup⟩ :=
    ceMoves_agrees ms _ hpushes hfree' (Nat.zero_le _) (Nat.zero_le _) (qCap_lt_of_legal hlegal)
  have hgroup' : (ceMoves ms (cleared 4#4 s)).2.ceG = ungrouped (pushed ms).flatten := hgroup
  obtain ⟨hcode, hpad⟩ := ceEnd_encodes_group (by rw [hgroup', ungrouped_length]; omega) hend hfree
  have hout : (ceMoves ms (cleared 4#4 s)).1 ++ t.ceQ = hammingEncode (pushed ms).flatten := by
    rw [hcode, ← List.append_assoc, hqueue, hgroup', hammingEncode_eq (pushed ms).flatten]
    rfl
  exact ⟨hout, by rw [hpad, hgroup', padCount_ungrouped], by rw [hout, hammingEncode_length]⟩

end Sys2Proof.Machine
end

section
/-! PROOFS. The commands of the Hamming decoder (44_hamming_decoder.md): CD.DEC7 (R170, R173), what it does with the
blocks of CE.ENC4 (R179), CD.BITS (R171) and CD.END (R172). -/

namespace Sys2Proof.Machine

/-! ## Blocks as fields -/

/-- Position k of a block is bit 7-k of its field (R170). -/
theorem toField_getLsbD_of_position (b : Block) {k : Nat} (hpos : 1 ≤ k) (hmax : k ≤ 7) :
    b.toField.getLsbD (7 - k) = (b.bits[k - 1]?).getD false := by
  obtain ⟨h1, h2, h3, h4, h5, h6, h7⟩ := Block.toField_getLsbD b
  interval_cases k
  exacts [h1, h2, h3, h4, h5, h6, h7]

/-- A flip changes the bit at its position and no other; position 0 stands for no flip (R173). -/
theorem flip_toField_getLsbD (b : Block) (p : BitVec 3) {k : Nat} (hpos : 1 ≤ k) (hmax : k ≤ 7) :
    (b.flip p).toField.getLsbD (7 - k) = (b.toField.getLsbD (7 - k) ^^ decide (p.toNat = k)) := by
  by_cases hp : p = 0#3
  · have hk : p.toNat ≠ k := by
      rw [hp]
      exact (Nat.pos_iff_ne_zero.1 hpos).symm
    rw [decide_eq_false hk, Bool.xor_false, hp]
    rfl
  · have hpn : 1 ≤ p.toNat := Nat.pos_of_ne_zero fun h0 => hp (BitVec.eq_of_toNat_eq h0)
    have hbits : (b.flip p).bits = flipAt (p.toNat - 1) b.bits := by
      rw [← flip_bits b (p.toNat - 1) (by omega), Nat.sub_add_cancel hpn, BitVec.ofNat_toNat, BitVec.setWidth_eq]
    have hin : k - 1 < b.bits.length := by
      rw [Block.bits_length]
      omega
    rw [toField_getLsbD_of_position _ hpos hmax, toField_getLsbD_of_position _ hpos hmax, hbits, flipAt_getElem?,
      List.getElem?_eq_getElem hin]
    by_cases hk : p.toNat = k
    · simp [hk]
    · simp [hk, show p.toNat - 1 ≠ k - 1 by omega]

/-- Flipping a position is an exclusive or with its bit of the field. -/
theorem flip_toField (b : Block) {i : Nat} (hpos : 1 ≤ i) (hmax : i ≤ 7) :
    (b.flip (BitVec.ofNat 3 i)).toField = b.toField ^^^ BitVec.ofNat 7 (2 ^ (7 - i)) := by
  apply BitVec.eq_of_getLsbD_eq
  intro j hj
  have hflip := flip_toField_getLsbD b (BitVec.ofNat 3 i) (k := 7 - j) (by omega) (by omega)
  have hin : (BitVec.ofNat 3 i).toNat = i := Nat.mod_eq_of_lt (by omega)
  rw [show 7 - (7 - j) = j by omega, hin] at hflip
  rw [hflip, BitVec.getLsbD_xor, BitVec.getLsbD_ofNat, Nat.testBit_two_pow, decide_eq_true hj, Bool.true_and]
  exact congrArg _ (decide_eq_decide.2 (by omega))

theorem Block.toField_ofField (b : BitVec 7) : (Block.ofField b).toField = b := by
  obtain ⟨h6, h5, h4, h3, h2, h1, h0⟩ := Block.toField_getLsbD (Block.ofField b)
  apply BitVec.eq_of_getLsbD_eq
  intro j hj
  interval_cases j
  exacts [h0, h1, h2, h3, h4, h5, h6]

theorem Nibble.toField_ofField (d : BitVec 4) : (Nibble.ofField d).toField = d := by
  obtain ⟨h3, h2, h1, h0⟩ := toField_getLsbD (Nibble.ofField d)
  apply BitVec.eq_of_getLsbD_eq
  intro j hj
  interval_cases j
  exacts [h0, h1, h2, h3]

/-! ## CD.DEC7 -/

theorem decodedWord_fields (r : Decoded) :
    (decodedWord r).extractLsb' 0 4 = r.data.toField ∧ (decodedWord r).extractLsb' 4 7 = r.block.toField ∧
      (decodedWord r).extractLsb' 11 1 = 0#1 ∧ (decodedWord r).extractLsb' 12 3 = r.pos ∧
      (decodedWord r).extractLsb' 15 17 = 0#17 := by
  refine ⟨?_, ?_, ?_, ?_, ?_⟩ <;>
    simp (disch := omega) only [decodedWord, BitVec.extractLsb'_append_eq_right, BitVec.extractLsb'_append_eq_of_le,
      Nat.reduceSub, BitVec.extractLsb'_eq_self]

/-- The syndrome's three bits make a number below 8, so none is lost (R173). -/
theorem errorPos_toNat (b : Block) : (errorPos b).toNat =
    (b.b1 ^^ b.b3 ^^ b.b5 ^^ b.b7).toNat + 2 * (b.b2 ^^ b.b3 ^^ b.b6 ^^ b.b7).toNat +
      4 * (b.b4 ^^ b.b5 ^^ b.b6 ^^ b.b7).toNat := by
  have h1 := Bool.toNat_le (b.b1 ^^ b.b3 ^^ b.b5 ^^ b.b7)
  have h2 := Bool.toNat_le (b.b2 ^^ b.b3 ^^ b.b6 ^^ b.b7)
  have h4 := Bool.toNat_le (b.b4 ^^ b.b5 ^^ b.b6 ^^ b.b7)
  exact Nat.mod_eq_of_lt (by omega)

/-- The data bits of a block are its positions 3, 5, 6 and 7 (R173). -/
theorem data_toField_getLsbD (b : Block) :
    b.data.toField.getLsbD 3 = b.toField.getLsbD 4 ∧ b.data.toField.getLsbD 2 = b.toField.getLsbD 2 ∧
      b.data.toField.getLsbD 1 = b.toField.getLsbD 1 ∧ b.data.toField.getLsbD 0 = b.toField.getLsbD 0 := by
  obtain ⟨hd1, hd2, hd3, hd4⟩ := toField_getLsbD b.data
  obtain ⟨-, -, h3, -, h5, h6, h7⟩ := Block.toField_getLsbD b
  exact ⟨hd1.trans h3.symm, hd2.trans h5.symm, hd3.trans h6.symm, hd4.trans h7.symm⟩

/-- Settles O38: reserved bits are [26:7]; RES is hdec's three fields, and each bit asked for is a bit of its field. -/
theorem cdDec7PutsTheDecodedBlockInRes : Obligations.CdDec7PutsTheDecodedBlockInRes := by
  intro b s p
  obtain ⟨hdata, hblock, hzero, hpos, hzero17⟩ := decodedWord_fields (hdec (Block.ofField b))
  have hdataBit {i : Nat} (hi : i < 4) := getLsbD_of_field hdata hi
  have hblockBit {i : Nat} (hi : i < 7) := getLsbD_of_field hblock hi
  obtain ⟨hd1, hd2, hd3, hd4⟩ := data_toField_getLsbD (hdec (Block.ofField b)).block
  refine ⟨badCmdWhen_range rfl (by decide) (by decide) s, decodedWord (hdec (Block.ofField b)), rfl,
    (congrArg _ hpos).trans (errorPos_toNat _), fun k hk1 hk7 => ?_, ?_, ?_, ?_, ?_,
    getLsbD_of_field hzero one_pos, hzero17⟩
  · have hflip := flip_toField_getLsbD (Block.ofField b) (errorPos (Block.ofField b)) hk1 hk7
    rw [Block.toField_ofField] at hflip
    rw [show 11 - k = 4 + (7 - k) by omega, hblockBit (by omega), hpos]
    exact hflip
  · exact (hdataBit (i := 3) (by decide)).trans (hd1.trans (hblockBit (i := 4) (by decide)).symm)
  · exact (hdataBit (i := 2) (by decide)).trans (hd2.trans (hblockBit (i := 2) (by decide)).symm)
  · exact (hdataBit (i := 1) (by decide)).trans (hd3.trans (hblockBit (i := 1) (by decide)).symm)
  · exact (hdataBit (i := 0) (by decide)).trans (hd4.trans (hblockBit (i := 0) (by decide)).symm)

/-! ## CD.DEC7 after CE.ENC4 -/

/-- CD.DEC7 of a block's field leaves the fields of what hdec returns in RES (R170). -/
theorem execCdDec7_toField (b : Block) (u : State) : ∃ v : Word,
    exec (.cdDec7 b.toField) u = .next { u with res := v } ∧ v.extractLsb' 12 3 = (hdec b).pos ∧
      v.extractLsb' 4 7 = (hdec b).block.toField ∧ v.extractLsb' 0 4 = (hdec b).data.toField := by
  obtain ⟨hdata, hblock, -, hpos, -⟩ := decodedWord_fields (hdec b)
  refine ⟨decodedWord (hdec b), ?_, hpos, hblock, hdata⟩
  simp only [exec, execCdDec7, Block.ofField_toField]

/-- CE.ENC4 leaves the field of the nibble's block in RES[6:0] (R150). -/
theorem block_of_execCeEnc4 {d : BitVec 4} {s t : State} (h : exec (.ceEnc4 d) s = .next t) :
    t.res.extractLsb' 0 7 = (henc (Nibble.ofField d)).toField := by
  obtain rfl := next_inj.1 h
  exact BitVec.extractLsb'_append_eq_right

/-- CD.DEC7 of a nibble's block with one position flipped, or none, locates the flip and undoes it (R179). -/
theorem execCdDec7_flip (d : BitVec 4) (p : BitVec 3) (u : State) : ∃ v : Word,
    exec (.cdDec7 ((henc (Nibble.ofField d)).flip p).toField) u = .next { u with res := v } ∧ v.extractLsb' 12 3 = p ∧
      v.extractLsb' 4 7 = (henc (Nibble.ofField d)).toField ∧ v.extractLsb' 0 4 = d := by
  have h := execCdDec7_toField ((henc (Nibble.ofField d)).flip p) u
  rw [singleFlipCorrected_all (Nibble.ofField d) p, Nibble.toField_ofField] at h
  exact h

/-- Two positions as 3-bit numbers: their exclusive or is that of the numbers. -/
theorem xor_ofNat_toNat {i j : Nat} (hi : i ≤ 7) (hj : j ≤ 7) :
    (BitVec.ofNat 3 i ^^^ BitVec.ofNat 3 j).toNat = i ^^^ j := by
  rw [BitVec.toNat_xor, BitVec.toNat_ofNat, BitVec.toNat_ofNat, Nat.mod_eq_of_lt (by omega),
    Nat.mod_eq_of_lt (by omega)]

/-- Settles O41: no flip is the flip at position 0, one flip is undone, and two flips have the syndrome of a third. -/
theorem hammingCorrectsOneFlip : Obligations.HammingCorrectsOneFlip := by
  intro d s t u henc4 block flip
  have hblock : block = (henc (Nibble.ofField d)).toField := block_of_execCeEnc4 henc4
  rw [hblock]
  refine ⟨execCdDec7_flip d 0 u, fun i hi1 hi7 => ?_, fun i j hi1 hi7 hj1 hj7 hij => ?_⟩
  · obtain ⟨v, hexec, hpos, hfields⟩ := execCdDec7_flip d (BitVec.ofNat 3 i) u
    rw [flip_toField _ hi1 hi7] at hexec
    exact ⟨v, hexec, by rw [hpos]; exact Nat.mod_eq_of_lt (by omega), hfields⟩
  · obtain ⟨v, hexec, hpos, -⟩ :=
      execCdDec7_toField (doubleFlipped (Nibble.ofField d) (BitVec.ofNat 3 i) (BitVec.ofNat 3 j)) u
    rw [doubleFlipped, flip_toField _ hj1 hj7, flip_toField _ hi1 hi7] at hexec
    refine ⟨v, hexec, ?_, fun h0 => hij (Nat.eq_of_xor_eq_zero h0), fun hi => ?_, fun hj => ?_⟩
    · rw [hpos]
      exact (congrArg _ (doubleFlip_pos _ _ _)).trans (xor_ofNat_toNat hi7 hj7)
    · have := xor_left_eq_self_iff.1 hi
      omega
    · have := xor_right_eq_self_iff.1 hj
      omega

/-! ## CD.BITS -/

/-- The nibbles in CD that are not released when some blocks complete: the one held, then one per block (R171). -/
def pendingNibbles (hold : Option Nibble) (blocks : List Block) : List Nibble :=
  hold.toList ++ blocks.map fun b => (hdec b).data

theorem pendingNibbles_concat (hold : Option Nibble) (blocks : List Block) (b : Block) :
    pendingNibbles hold (blocks ++ [b]) = pendingNibbles hold blocks ++ [(hdec b).data] := by
  rw [pendingNibbles, List.map_append, ← List.append_assoc]
  rfl

/-- The bits of the nibbles are the hold's and the blocks' data. -/
theorem pendingNibbles_bits (hold : Option Nibble) (blocks : List Block) :
    (pendingNibbles hold blocks).flatMap Nibble.bits = holdBits hold ++ blockData blocks := by
  rw [pendingNibbles, List.flatMap_append, List.flatMap_map, blockData]
  cases hold <;> simp [holdBits]

/-- A hold of the last of some nibbles, released after the others, completes them. -/
theorem flatMap_dropLast_append_holdBits (ds : List Nibble) :
    ds.dropLast.flatMap Nibble.bits ++ holdBits ds.getLast? = ds.flatMap Nibble.bits := by
  cases ds using List.reverseRecOn with
  | nil => rfl
  | append_singleton ds d => simp [holdBits]

/-- The decoder after it has decoded some blocks, with p its partial block: of the nibbles pending all but the last are
released, the syndrome is the last block's, and the corrected blocks are counted (R171). -/
def cdDecoded (blocks : List Block) (p : Bits) (s : State) : State :=
  { s with
    cdQ := s.cdQ ++ (pendingNibbles s.cdHold blocks).dropLast.flatMap Nibble.bits
    cdHold := (pendingNibbles s.cdHold blocks).getLast?
    cdSyn := (blocks.getLast?.map fun b => (hdec b).pos).getD s.cdSyn
    cdNcorr := s.cdNcorr + BitVec.ofNat 32 (blocks.countP fun b => decide ((hdec b).pos ≠ 0))
    cdB := p }

theorem cdDecoded_nil (p : Bits) (s : State) : cdDecoded [] p s = { s with cdB := p } := by
  cases hhold : s.cdHold <;> simp [cdDecoded, pendingNibbles, hhold]

/-- One block more releases the nibble held before it and holds its own (R171). -/
theorem cdDecoded_concat (blocks : List Block) (b : Block) (p r : Bits) (s : State) :
    cdDecoded (blocks ++ [b]) p s = { cdBlock b (cdDecoded blocks r s) with cdB := p } := by
  have hcount : s.cdNcorr + BitVec.ofNat 32 ((blocks ++ [b]).countP fun b => decide ((hdec b).pos ≠ 0)) =
      (cdBlock b (cdDecoded blocks r s)).cdNcorr := by
    by_cases hb : (hdec b).pos = 0#3 <;> simp [cdDecoded, hb, BitVec.ofNat_add, BitVec.add_assoc]
  rw [cdDecoded, hcount, pendingNibbles_concat, List.dropLast_concat, List.getLast?_concat, List.getLast?_concat,
    ← flatMap_dropLast_append_holdBits, ← List.append_assoc]
  rfl

theorem foldl_cdBlock_eq_cdDecoded (blocks : List Block) (p : Bits) (s : State) :
    { blocks.foldl (fun s b => cdBlock b s) s with cdB := p } = cdDecoded blocks p s := by
  induction blocks using List.reverseRecOn generalizing p with
  | nil => exact (cdDecoded_nil p s).symm
  | append_singleton blocks b ih =>
    rw [cdDecoded_concat blocks b p p, ← ih p, List.foldl_concat]
    rfl

/-- The bits after a stream's complete blocks. -/
def unblocked (bits : Bits) : Bits := bits.drop (7 * (bits.length / 7))

@[simp] theorem unblocked_length (bits : Bits) : (unblocked bits).length = bits.length % 7 := by
  rw [unblocked, List.length_drop]
  omega

/-- The decoder after it has taken some bits: the blocks completed are decoded, the rest is the partial block (R171). -/
def cdFed (bits : Bits) (s : State) : State := cdDecoded (blocksOf (s.cdB ++ bits)) (unblocked (s.cdB ++ bits)) s

/-- The loop of CD.BITS feeds it the bits. -/
theorem foldl_cdPush_eq_cdFed (bits : Bits) {s : State} (hshort : s.cdB.length ≤ 6) :
    bits.foldl cdPush s = cdFed bits s := by
  rw [foldl_cdPush bits s hshort, foldl_cdBlock_eq_cdDecoded, cdFed, unblocked, List.length_append]

section CdBits

variable {n : BitVec 6} {s : State}

theorem execCdBits_badArg (h : n.toNat = 0 ∨ 32 < n.toNat) :
    execCdBits n s = .next (raise .badArg (encodeCommand (.cdBits n)) s) :=
  if_pos (h.imp_left fun h0 => BitVec.eq_of_toNat_eq h0)

theorem execCdBits_overrun (hpos : 1 ≤ n.toNat) (hmax : n.toNat ≤ 32)
    (hfull : s.params.qCap < s.cdQ.length + cdBound n s) :
    execCdBits n s = .next (raise .overrun (encodeCommand (.cdBits n)) s) :=
  (if_neg (cnt_legal hpos hmax)).trans (if_pos hfull)

theorem execCdBits_feeds (hpos : 1 ≤ n.toNat) (hmax : n.toNat ≤ 32) (hshort : s.cdB.length ≤ 6)
    (hfit : s.cdQ.length + cdBound n s ≤ s.params.qCap) :
    execCdBits n s = .next (cdFed (argBits s n) s) := by
  rw [← foldl_cdPush_eq_cdFed _ hshort]
  exact (if_neg (cnt_legal hpos hmax)).trans (if_neg (not_lt.2 hfit))

end CdBits

/-- Bits that complete no block join the partial block (R171). -/
theorem cdFed_of_noBlock {bits : Bits} {s : State} (h : blocksOf (s.cdB ++ bits) = []) :
    cdFed bits s = { s with cdB := s.cdB ++ bits } := by
  have hzero : (s.cdB ++ bits).length / 7 = 0 := (blocksOf_length _).symm.trans (congrArg List.length h)
  rw [cdFed, h, cdDecoded_nil, unblocked, hzero]
  rfl

/-- Of the nibbles of a hold and of some blocks, all but the last block's are released (R171). -/
theorem dropLast_pendingNibbles_bits (hold : Option Nibble) (init : List Block) (last : Block) :
    (pendingNibbles hold (init ++ [last])).dropLast.flatMap Nibble.bits = holdBits hold ++ blockData init := by
  rw [pendingNibbles_concat, List.dropLast_concat, pendingNibbles_bits]

/-- Bits that complete blocks leave the last one's data held (R171). -/
theorem cdFed_of_blocks {bits : Bits} {s : State} {init : List Block} {last : Block}
    (h : blocksOf (s.cdB ++ bits) = init ++ [last]) : cdFed bits s = { s with
      cdQ := s.cdQ ++ holdBits s.cdHold ++ blockData init
      cdHold := some (hdec last).data
      cdSyn := (hdec last).pos
      cdNcorr := s.cdNcorr + BitVec.ofNat 32 ((init ++ [last]).countP fun b => decide ((hdec b).pos ≠ 0))
      cdB := unblocked (s.cdB ++ bits) } := by
  rw [cdFed, h, cdDecoded, dropLast_pendingNibbles_bits, pendingNibbles_concat, List.getLast?_concat,
    List.getLast?_concat, List.append_assoc]
  rfl

/-- Settles O39: reserved bits are [26:6]; the checks of N and of the room come next, then the bits are fed. -/
theorem cdBitsDecodesCompleteBlocks : Obligations.CdBitsDecodesCompleteBlocks := by
  intro n s hshort bits m
  refine ⟨badCmdWhen_range rfl (by decide) (by decide) s, execCdBits_badArg,
    fun hpos hmax => ⟨execCdBits_overrun hpos hmax, fun hfit => ?_⟩⟩
  have hfeeds : exec (.cdBits n) s = .next (cdFed (unpack s.arg0 n.toNat) s) := execCdBits_feeds hpos hmax hshort hfit
  have hm : bits.length / 7 = m := by rw [List.length_append, unpack_length]
  refine ⟨fun hnone => by rw [hfeeds, cdFed_of_noBlock hnone], fun init last hblocks => ?_⟩
  rw [hfeeds, cdFed_of_blocks hblocks, ← hm]
  rfl

/-! ## CD.END -/

section CdEnd

variable {pad : BitVec 2} {s : State}

theorem execCdEnd_partial (h : s.cdB ≠ []) : execCdEnd pad s =
    .next (raise .length (encodeCommand (.cdEnd pad)) { s with cdB := [], cdHold := none }) := if_pos h

theorem execCdEnd_noHold (hb : s.cdB = []) (hhold : s.cdHold = none) : execCdEnd pad s = .next s := by
  simp [execCdEnd, hb, hhold]

theorem execCdEnd_overrun {d : Nibble} (hb : s.cdB = []) (hhold : s.cdHold = some d)
    (hfull : s.params.qCap < s.cdQ.length + (4 - pad.toNat)) :
    execCdEnd pad s = .next (raise .overrun (encodeCommand (.cdEnd pad)) s) := by
  simp [execCdEnd, hb, hhold, hfull]

theorem execCdEnd_releases {d : Nibble} (hb : s.cdB = []) (hhold : s.cdHold = some d)
    (hfit : s.cdQ.length + (4 - pad.toNat) ≤ s.params.qCap) :
    execCdEnd pad s = .next { s with cdQ := s.cdQ ++ d.bits.take (4 - pad.toNat), cdHold := none } := by
  simp [execCdEnd, hb, hhold, not_lt.2 hfit]

end CdEnd

/-- Settles O40: reserved bits are [26:2]; then the partial block, no hold, the check of the room, or the release. -/
theorem cdEndReleasesTheHold : Obligations.CdEndReleasesTheHold := fun _ s =>
  ⟨badCmdWhen_range rfl (by decide) (by decide) s, execCdEnd_partial, execCdEnd_noHold,
    fun _ hb hhold => ⟨execCdEnd_overrun hb hhold, execCdEnd_releases hb hhold⟩⟩

end Sys2Proof.Machine
end

section
/-! PROOFS. The Hamming decoder agrees with the source's decode (44_hamming_decoder.md R178): by induction on the host's
moves, what was popped, what is queued, the hold and the partial block are what feeding the whole stream at once gives. -/

namespace Sys2Proof.Machine

/-! ## A stream cut in two -/

/-- A decoder that was fed is left with a partial block, and with at most a nibble more queued per block completed
(R171). -/
theorem cdFed_lengths (bits : Bits) {s : State} (hshort : s.cdB.length ≤ 6) :
    (cdFed bits s).cdQ.length ≤ s.cdQ.length + 4 * ((s.cdB.length + bits.length) / 7) ∧ (cdFed bits s).cdB.length ≤ 6 :=
  foldl_cdPush_eq_cdFed bits hshort ▸ cdPush_lengths bits s hshort

/-- Feeding two streams one after the other is feeding the one they make (R178). -/
theorem cdFed_append (xs ys : Bits) {s : State} (hshort : s.cdB.length ≤ 6) :
    cdFed ys (cdFed xs s) = cdFed (xs ++ ys) s := by
  rw [← foldl_cdPush_eq_cdFed ys (cdFed_lengths xs hshort).2, ← foldl_cdPush_eq_cdFed xs hshort,
    ← foldl_cdPush_eq_cdFed _ hshort, List.foldl_append]

/-! ## The two moves -/

/-- A push raises an error, or feeds its bits, for which there is room by the bound (R171). -/
theorem cdPush_cases {bits : Bits} (hpos : 1 ≤ bits.length) (hmax : bits.length ≤ 32) {s : State}
    (hshort : s.cdB.length ≤ 6) :
    ¬ErrorFree (performLines [.cdPush bits] s) ∨
    s.cdQ.length + 4 * ((s.cdB.length + bits.length) / 7) ≤ s.params.qCap ∧
      performLines [.cdPush bits] s = cdFed bits { s with arg0 := pack bits } := by
  have hn : (BitVec.ofNat 6 bits.length).toNat = bits.length := Nat.mod_eq_of_lt (by omega)
  rw [performLines_push (c := .cdBits) rfl, if_pos ⟨hpos, hmax⟩]
  by_cases hfit : s.cdQ.length + 4 * ((s.cdB.length + bits.length) / 7) ≤ s.params.qCap
  · refine .inr ⟨hfit, ?_⟩
    rw [perform_command (c := .cdBits _) (execCdBits_feeds (s := { s with arg0 := pack bits }) (by omega) (by omega)
      hshort (by rwa [cdBound, hn])), argBits_pack hmax]
  · left
    rw [perform_command (c := .cdBits _)
      (execCdBits_overrun (by omega) (by omega) (by rw [cdBound, hn]; exact not_le.1 hfit))]
    exact not_errorFree_raise _ _ _

/-- The block after a read of CD_LEVEL and a pop of CD_DATA (R174, R175). -/
def cdPopped (s : State) : State :=
  respond (popWord s.cdQ) { respond (levelWord s.cdQ) s with cdQ := popRest s.cdQ }

theorem popCd_cases {s : State} (hlen : s.cdQ.length < 2 ^ 32) :
    ¬ErrorFree (popBits .cdLevel .cdData s).2 ∨ popBits .cdLevel .cdData s = (s.cdQ.take 32, cdPopped s) :=
  popBits_cases hlen rfl rfl

/-! ## All moves -/

theorem cdMoves_push (bits : Bits) (ms : List (Move Bits)) (s : State) :
    cdMoves (.push bits :: ms) s = cdMoves ms (performLines [.cdPush bits] s) := rfl

theorem cdMoves_pop (ms : List (Move Bits)) (s : State) :
    cdMoves (.pop :: ms) s = ((popBits .cdLevel .cdData s).1 ++ (cdMoves ms (popBits .cdLevel .cdData s).2).1,
      (cdMoves ms (popBits .cdLevel .cdData s).2).2) := rfl

theorem errorFree_of_cdMoves (ms : List (Move Bits)) (s : State) (h : ErrorFree (cdMoves ms s).2) : ErrorFree s :=
  errorFree_of_runMoves (fun _ => errorFree_of_push (c := .cdBits) rfl) (fun _ => errorFree_of_popBits) ms s h

/-- What was popped and what is still queued, the hold and the partial block are those of s fed the bits all at once
(R178). -/
def CdAgrees (bits : Bits) (s : State) (out : Bits × State) : Prop :=
  out.1 ++ out.2.cdQ = (cdFed bits s).cdQ ∧ out.2.cdHold = (cdFed bits s).cdHold ∧ out.2.cdB = (cdFed bits s).cdB

theorem cdAgrees_nil {s : State} (hshort : s.cdB.length ≤ 6) : CdAgrees [] s ([], s) := by
  rw [CdAgrees, ← foldl_cdPush_eq_cdFed [] hshort]
  exact ⟨rfl, rfl, rfl⟩

theorem CdAgrees.push {xs ys : Bits} {s : State} {v : Word} {out : Bits × State} (hshort : s.cdB.length ≤ 6)
    (h : CdAgrees ys (cdFed xs { s with arg0 := v }) out) : CdAgrees (xs ++ ys) s out := by
  rw [CdAgrees, cdFed_append xs ys (s := { s with arg0 := v }) hshort] at h
  exact h

theorem CdAgrees.pop {bits : Bits} {s : State} {out : Bits × State} (h : CdAgrees bits (cdPopped s) out) :
    CdAgrees bits s (s.cdQ.take 32 ++ out.1, out.2) := by
  obtain ⟨hout, hrest⟩ := h
  have hqueue : s.cdQ.take 32 ++ (cdFed bits (cdPopped s)).cdQ = (cdFed bits s).cdQ := by
    rw [cdFed, cdDecoded, ← List.append_assoc]
    exact congrArg (· ++ _) (List.take_append_drop 32 s.cdQ)
  exact ⟨by rw [List.append_assoc, hout, hqueue], hrest⟩

/-- With no error raised, the moves give out and leave what the pushed stream gives when it is fed at once (R178). -/
theorem cdMoves_agrees (ms : List (Move Bits)) (s : State) (hpushes : pushesFit ms)
    (hfree : ErrorFree (cdMoves ms s).2) (hshort : s.cdB.length ≤ 6) (hfits : s.cdQ.length ≤ s.params.qCap)
    (hcap : s.params.qCap < 2 ^ 32) : CdAgrees (pushed ms).flatten s (cdMoves ms s) := by
  induction ms generalizing s with
  | nil => exact cdAgrees_nil hshort
  | cons m ms ih =>
    cases m with
    | push bits =>
      rw [cdMoves_push] at hfree ⊢
      obtain ⟨⟨hpos, hmax⟩, hpushes'⟩ := List.forall_mem_cons.1 hpushes
      obtain ⟨hroom, hstep⟩ :=
        (cdPush_cases hpos hmax hshort).resolve_left (not_not_intro (errorFree_of_cdMoves ms _ hfree))
      rw [hstep] at hfree ⊢
      obtain ⟨hqueue, hshort'⟩ := cdFed_lengths bits (s := { s with arg0 := pack bits }) hshort
      exact (ih _ hpushes' hfree hshort' (hqueue.trans hroom) hcap).push hshort
    | pop =>
      rw [cdMoves_pop] at hfree ⊢
      have hstep := (popCd_cases (by omega)).resolve_left (not_not_intro (errorFree_of_cdMoves ms _ hfree))
      rw [hstep] at hfree ⊢
      exact (ih (cdPopped s) hpushes hfree hshort ((List.drop_sublist 32 _).length_le.trans hfits) hcap).pop

/-! ## CD.END -/

/-- With no partial block and no error raised, CD.END queues the held bits without the last pad of them (R172). -/
theorem cdEnd_releases_hold {pad : BitVec 2} {s t : State} (hb : s.cdB = []) (h : execCdEnd pad s = .next t)
    (hfree : ErrorFree t) : t.cdQ = s.cdQ ++ (holdBits s.cdHold).rdrop pad.toNat := by
  cases hhold : s.cdHold with
  | none =>
    obtain rfl := next_inj.1 ((execCdEnd_noHold hb hhold).symm.trans h)
    exact (List.append_nil _).symm.trans (congrArg _ (List.rdrop_nil _).symm)
  | some d =>
    by_cases hfit : s.cdQ.length + (4 - pad.toNat) ≤ s.params.qCap
    · obtain rfl := next_inj.1 ((execCdEnd_releases hb hhold hfit).symm.trans h)
      rfl
    · obtain rfl := next_inj.1 ((execCdEnd_overrun hb hhold (not_le.1 hfit)).symm.trans h)
      exact absurd hfree (not_errorFree_raise _ _ _)

/-- The pad, of at most three bits, lies in the last nibble (R172). -/
theorem rdrop_flatMap_bits (ds : List Nibble) (pad : BitVec 2) :
    (ds.flatMap Nibble.bits).rdrop pad.toNat =
      ds.dropLast.flatMap Nibble.bits ++ (holdBits ds.getLast?).rdrop pad.toNat := by
  cases ds using List.reverseRecOn with
  | nil => rfl
  | append_singleton ds d =>
    have hpad : pad.toNat ≤ d.bits.length := pad.isLt.le
    rw [← flatMap_dropLast_append_holdBits, List.getLast?_concat]
    exact List.rdrop_append_of_le_length _ hpad

/-- With nothing held before, the bits released are the data of all blocks but the last (R178). -/
theorem dropLast_pendingNibbles_none_bits (blocks : List Block) :
    (pendingNibbles none blocks).dropLast.flatMap Nibble.bits = blockData blocks.dropLast := by
  cases blocks using List.reverseRecOn with
  | nil => rfl
  | append_singleton blocks b => rw [dropLast_pendingNibbles_bits, List.dropLast_concat]; rfl

/-- The source's decode of whole blocks is what they make CD release, then its hold without the pad (R178). -/
theorem hammingDecode_eq {coded : Bits} (h : coded.length % 7 = 0) (pad : BitVec 2) :
    hammingDecode coded pad.toNat = some ((pendingNibbles none (blocksOf coded)).dropLast.flatMap Nibble.bits ++
      (holdBits (pendingNibbles none (blocksOf coded)).getLast?).rdrop pad.toNat) := by
  rw [← rdrop_flatMap_bits, pendingNibbles_bits, hammingDecode, if_pos h]
  rfl

/-- A raise of LENGTH when no error was set leaves it alone set (R211). -/
theorem raise_length_errors {w : Word} {s : State} (h : ErrorFree s) :
    (raise .length w s).status &&& 0x7F#8 = 0x08#8 := by
  have hor : (s.status ||| 0x08#8) &&& 0x7F#8 = (s.status &&& 0x7F#8) ||| (0x08#8 &&& 0x7F#8) :=
    BitVec.and_or_distrib_right
  rw [h] at hor
  exact hor

/-- Settles O54, from the empty queue, the empty hold and the empty partial block that CLEAR CD leaves. -/
theorem hammingDecoderAgreesWithTheSource : Obligations.HammingDecoderAgreesWithTheSource := by
  intro ms pad s s₁ t hlegal _ hclear hpushes hfree hend
  obtain rfl : cleared 8#4 s = s₁ := next_inj.1 ((execClear_eq 8#4 s).symm.trans hclear)
  obtain ⟨hqueue, hhold, hpartial⟩ :=
    cdMoves_agrees ms _ hpushes hfree (Nat.zero_le _) (Nat.zero_le _) (qCap_lt_of_legal hlegal)
  replace hqueue : (cdMoves ms (cleared 8#4 s)).1 ++ (cdMoves ms (cleared 8#4 s)).2.cdQ =
    (pendingNibbles none (blocksOf (pushed ms).flatten)).dropLast.flatMap Nibble.bits := hqueue
  replace hhold : (cdMoves ms (cleared 8#4 s)).2.cdHold =
    (pendingNibbles none (blocksOf (pushed ms).flatten)).getLast? := hhold
  have hlen : (cdMoves ms (cleared 8#4 s)).2.cdB.length = (pushed ms).flatten.length % 7 :=
    (congrArg List.length hpartial).trans (unblocked_length _)
  refine ⟨fun hwhole hfree' => ?_, fun hrest => ?_⟩
  · have hrelease := cdEnd_releases_hold (List.length_eq_zero_iff.1 (hlen.trans hwhole)) hend hfree'
    rw [hammingDecode_eq hwhole, hrelease, hhold, ← List.append_assoc, hqueue]
  · have hne : (cdMoves ms (cleared 8#4 s)).2.cdB ≠ [] := fun h0 => hrest (hlen.symm.trans (congrArg List.length h0))
    obtain rfl := next_inj.1 ((execCdEnd_partial hne).symm.trans hend)
    exact ⟨raise_length_errors (s := { (cdMoves ms (cleared 8#4 s)).2 with cdB := [], cdHold := none }) hfree,
      hqueue.trans (dropLast_pendingNibbles_none_bits _)⟩

end Sys2Proof.Machine
end

section
/-! PROOFS. The reference host's Huffman tables (48_host_reference.md R192, R193): no code of a tree starts another, a
code leads from the root to its leaf, and a source's tree has a leaf for each of its symbols; and its injector (R198). -/

namespace Sys2Proof.Machine

/-! ## Codes are paths to leaves -/

/-- A code starts with the path to the node it was derived from (R193). -/
theorem prefix_of_mem_codesFrom {t : CodeTree} {path c : Bits} {sym : Sym} (h : (sym, c) ∈ t.codesFrom path) :
    path <+: c := by
  induction t generalizing path with
  | absent => cases h
  | leaf sym' w =>
    obtain ⟨-, rfl⟩ := Prod.mk.inj (List.mem_singleton.1 h)
    exact List.prefix_refl _
  | internal w l r ihl ihr =>
    rcases List.mem_append.1 h with hl | hr
    · exact (List.prefix_append _ _).trans (ihl hl)
    · exact (List.prefix_append _ _).trans (ihr hr)

/-- Two codes on different sides of a node part at that node. -/
theorem not_prefix_of_sides {path ca cb : Bits} {x y : Bool} (hxy : x ≠ y) (ha : path ++ [x] <+: ca)
    (hb : path ++ [y] <+: cb) : ¬ca <+: cb := fun h => by
  have heq := List.prefix_of_prefix_length_le (ha.trans h) hb (by simp)
  exact hxy (by simpa using heq)

/-- No leaf lies on another leaf's path (R193). -/
theorem codesFrom_prefixFree {t : CodeTree} {path ca cb : Bits} {a b : Sym} (hab : a ≠ b)
    (ha : (a, ca) ∈ t.codesFrom path) (hb : (b, cb) ∈ t.codesFrom path) : ¬ca <+: cb := by
  induction t generalizing path with
  | absent => cases ha
  | leaf sym w =>
    obtain ⟨rfl, -⟩ := Prod.mk.inj (List.mem_singleton.1 ha)
    obtain ⟨rfl, -⟩ := Prod.mk.inj (List.mem_singleton.1 hb)
    exact absurd rfl hab
  | internal w l r ihl ihr =>
    rcases List.mem_append.1 ha with hal | har <;> rcases List.mem_append.1 hb with hbl | hbr
    · exact ihl hal hbl
    · exact not_prefix_of_sides Bool.false_ne_true (prefix_of_mem_codesFrom hal) (prefix_of_mem_codesFrom hbr)
    · exact not_prefix_of_sides Bool.false_ne_true.symm (prefix_of_mem_codesFrom har) (prefix_of_mem_codesFrom hbl)
    · exact ihr har hbr

/-- A code derived below a node leads the source's decode from that node to the code's symbol, and back to the root
(R135, R193). -/
theorem sourceDecodeFrom_code {t : CodeTree} {path c : Bits} {sym : Sym} {w : Nat} {l r : CodeTree}
    (ht : t = .internal w l r) (h : (sym, c) ∈ t.codesFrom path) :
    ∃ suffix, c = path ++ suffix ∧ ∀ (root : CodeTree) (mid : Bool) (rest : Bits),
      sourceDecodeFrom root t mid (suffix ++ rest) =
        (sourceDecodeFrom root root false rest).map fun d => (sym :: d.1, d.2) := by
  induction t generalizing path w l r with
  | absent => cases ht
  | leaf sym' w' => cases ht
  | internal w' l' r' ihl ihr =>
    obtain ⟨b, child, hchild, hmem, ih⟩ : ∃ (b : Bool) (child : CodeTree), (if b then r' else l') = child ∧
        (sym, c) ∈ child.codesFrom (path ++ [b]) ∧ ∀ {w l r}, child = .internal w l r →
          ∃ suffix, c = path ++ [b] ++ suffix ∧ ∀ (root : CodeTree) (mid : Bool) (rest : Bits),
            sourceDecodeFrom root child mid (suffix ++ rest) =
              (sourceDecodeFrom root root false rest).map fun d => (sym :: d.1, d.2) := by
      rcases List.mem_append.1 h with hl | hr
      · exact ⟨false, l', rfl, hl, fun hi => ihl hi hl⟩
      · exact ⟨true, r', rfl, hr, fun hi => ihr hi hr⟩
    cases child with
    | absent => cases hmem
    | leaf sym' w'' =>
      obtain ⟨rfl, rfl⟩ := Prod.mk.inj (List.mem_singleton.1 hmem)
      exact ⟨[b], rfl, fun root mid rest => by simp only [List.singleton_append, sourceDecodeFrom, hchild]⟩
    | internal w'' l'' r'' =>
      obtain ⟨suffix, rfl, hdec⟩ := ih rfl
      refine ⟨b :: suffix, by simp, fun root mid rest => ?_⟩
      simp only [List.cons_append, sourceDecodeFrom, hchild, hdec]

/-! ## The tree of a source -/

/-- The symbols at a tree's leaves, from left to right. -/
def CodeTree.syms : CodeTree → List Sym
  | absent => []
  | leaf sym _ => [sym]
  | internal _ l r => l.syms ++ r.syms

/-- The table derived from a tree has an entry per leaf (R193). -/
theorem codesFrom_syms (t : CodeTree) (path : Bits) : (t.codesFrom path).map Prod.fst = t.syms := by
  induction t generalizing path with
  | absent | leaf => rfl
  | internal w l r ihl ihr => rw [CodeTree.codesFrom, List.map_append, ihl, ihr, CodeTree.syms]

theorem enqueue_perm (x : Queued) (q : List Queued) : (enqueue x q).Perm (x :: q) := by
  induction q with
  | nil => exact .refl _
  | cons y q ih =>
    rw [enqueue]
    split
    · exact .refl _
    · exact (ih.cons y).trans (.swap x y q)

/-- The symbols at the leaves of some queued trees. -/
def queuedSyms (q : List Queued) : List Sym := q.flatMap fun x => x.tree.syms

theorem queuedSyms_enqueue (x : Queued) (q : List Queued) : (queuedSyms (enqueue x q)).Perm (x.tree.syms ++ queuedSyms q) :=
  (enqueue_perm x q).flatMap_right _

/-- The queue starts with the counted symbols (R192). -/
theorem queuedSyms_leafQueue (w : List (Sym × Nat)) (seq : Nat) : (queuedSyms (leafQueue w seq)).Perm (w.map Prod.fst) := by
  induction w generalizing seq with
  | nil => exact .refl _
  | cons c w ih => exact (queuedSyms_enqueue _ _).trans ((ih (seq + 1)).cons c.1)

theorem leafQueue_length (w : List (Sym × Nat)) (seq : Nat) : (leafQueue w seq).length = w.length := by
  induction w generalizing seq with
  | nil => rfl
  | cons c w ih => rw [leafQueue, (enqueue_perm _ _).length_eq, List.length_cons, List.length_cons, ih]

/-- The tree a merge queues: the second one removed is its left child (R192). -/
def Queued.merge (x y : Queued) (seq : Nat) : Queued :=
  { seq := seq, tree := .internal (x.tree.weight + y.tree.weight) y.tree x.tree }

theorem mergeAll_merge (fuel seq : Nat) (x y : Queued) (q : List Queued) :
    mergeAll (fuel + 1) seq (x :: y :: q) = mergeAll fuel (seq + 1) (enqueue (x.merge y seq) q) := by
  rw [mergeAll, Queued.merge]

theorem mergeAll_singleton (fuel seq : Nat) (x : Queued) : mergeAll fuel seq [x] = x.tree := by simp [mergeAll]

/-- A merge keeps the leaves of the queued trees (R192). -/
theorem queuedSyms_merge (x y : Queued) (q : List Queued) (seq : Nat) :
    (queuedSyms (enqueue (x.merge y seq) q)).Perm (queuedSyms (x :: y :: q)) := by
  refine (queuedSyms_enqueue _ _).trans ?_
  simp only [queuedSyms, List.flatMap_cons, Queued.merge, CodeTree.syms, ← List.append_assoc]
  exact List.perm_append_comm.append_right _

/-- With enough merges, two or more trees become one INTERNAL tree with all their leaves (R192). -/
theorem mergeAll_spec (fuel seq : Nat) (q : List Queued) (htwo : 2 ≤ q.length) (hfuel : q.length ≤ fuel + 1) :
    (mergeAll fuel seq q).syms.Perm (queuedSyms q) ∧ ∃ w l r, mergeAll fuel seq q = .internal w l r := by
  induction fuel generalizing seq q with
  | zero => omega
  | succ fuel ih =>
    match q, htwo with
    | [x, y], _ =>
      rw [mergeAll_merge, enqueue, mergeAll_singleton]
      exact ⟨by simpa [queuedSyms, enqueue] using queuedSyms_merge x y [] seq, _, _, _, rfl⟩
    | x :: y :: z :: q, _ =>
      have hlen : (enqueue (x.merge y seq) (z :: q)).length = q.length + 2 := (enqueue_perm _ _).length_eq
      simp only [List.length_cons] at hfuel
      rw [mergeAll_merge]
      obtain ⟨hsyms, hroot⟩ := ih (seq + 1) (enqueue (x.merge y seq) (z :: q)) (by omega) (by omega)
      exact ⟨hsyms.trans (queuedSyms_merge x y (z :: q) seq), hroot⟩

/-- The tree has a leaf per counted symbol, and an INTERNAL root unless there is none (R192). -/
theorem buildTree_spec (w : List (Sym × Nat)) :
    (buildTree w).syms.Perm (w.map Prod.fst) ∧ (w ≠ [] → ∃ n l r, buildTree w = .internal n l r) := by
  match w with
  | [] => exact ⟨.refl _, fun h => absurd rfl h⟩
  | [c] => exact ⟨.refl _, fun _ => ⟨_, _, _, rfl⟩⟩
  | c₁ :: c₂ :: w =>
    have hlen := leafQueue_length (c₁ :: c₂ :: w) 0
    obtain ⟨hsyms, hroot⟩ := mergeAll_spec (c₁ :: c₂ :: w).length (c₁ :: c₂ :: w).length (leafQueue (c₁ :: c₂ :: w) 0)
      (by rw [hlen]; simp) (by omega)
    exact ⟨hsyms.trans (queuedSyms_leafQueue _ 0), fun _ => hroot⟩

theorem mem_distinct (sym : Sym) (T : List Sym) : sym ∈ distinct T ↔ sym ∈ T := by
  induction T with
  | nil => rfl
  | cons t T ih => by_cases h : sym = t <;> simp [distinct, ih, h]

theorem counts_fst (T : List Sym) : (counts T).map Prod.fst = distinct T := by
  simp [counts, Function.comp_def]

/-- A source's tree has an INTERNAL root, unless the source is empty (R192). -/
theorem treeOf_internal {T : List Sym} (hT : T ≠ []) : ∃ w l r, treeOf T = .internal w l r := by
  obtain ⟨t, T, rfl⟩ := List.exists_cons_of_ne_nil hT
  exact (buildTree_spec _).2 (List.cons_ne_nil _ _)

/-- A code of the table codeOf answers is an entry of it. -/
theorem mem_of_codeOf {codes : List (Sym × Bits)} {sym : Sym} {c : Bits} (h : codeOf codes sym = some c) :
    (sym, c) ∈ codes := by
  obtain ⟨entry, hfind, rfl⟩ := Option.map_eq_some_iff.1 h
  have hsym : entry.1 = sym := by simpa using List.find?_some hfind
  exact hsym ▸ List.mem_of_find?_eq_some hfind

/-- Every symbol of a source has a code (R192, R193). -/
theorem exists_code {T : List Sym} {sym : Sym} (h : sym ∈ T) :
    ∃ c, codeOf (deriveCodes (treeOf T)) sym = some c ∧ (sym, c) ∈ deriveCodes (treeOf T) := by
  have hleaf : sym ∈ (deriveCodes (treeOf T)).map Prod.fst := by
    rw [deriveCodes, codesFrom_syms, treeOf, (buildTree_spec _).1.mem_iff, counts_fst, mem_distinct]
    exact h
  obtain ⟨entry, hentry, rfl⟩ := List.mem_map.1 hleaf
  obtain ⟨found, hfound⟩ := Option.isSome_iff_exists.1
    (List.find?_isSome.2 ⟨entry, hentry, beq_self_eq_true _⟩ :
      ((deriveCodes (treeOf T)).find? fun c => c.1 == entry.1).isSome)
  have hcode : codeOf (deriveCodes (treeOf T)) entry.1 = some found.2 := by rw [codeOf, hfound]; rfl
  exact ⟨_, hcode, mem_of_codeOf hcode⟩

/-- A source's codes are nonempty: its tree's root is no leaf (R193). -/
theorem length_pos_of_mem_deriveCodes {T : List Sym} {sym : Sym} {c : Bits} (h : (sym, c) ∈ deriveCodes (treeOf T)) :
    1 ≤ c.length := by
  by_cases hT : T = []
  · subst hT
    cases h
  · obtain ⟨w, l, r, htree⟩ := treeOf_internal hT
    rw [deriveCodes, htree] at h
    rcases List.mem_append.1 h with hl | hr
    · exact (prefix_of_mem_codesFrom hl).length_le
    · exact (prefix_of_mem_codesFrom hr).length_le

/-- Settles O55: codes are paths to leaves of a tree whose root is no leaf. -/
theorem derivedCodesArePrefixFree : Obligations.DerivedCodesArePrefixFree := fun _ _ _ _ _ ha hb =>
  ⟨length_pos_of_mem_deriveCodes ha, fun hab => codesFrom_prefixFree hab ha hb⟩

/-! ## Encoding and decoding a source -/

/-- Symbols that have codes in a tree's table decode back from them, the stream ending at the root (R114, R135). -/
theorem sourceEncode_decode {tree : CodeTree} {w : Nat} {l r : CodeTree} (htree : tree = .internal w l r)
    (syms : List Sym) (h : ∀ sym ∈ syms, ∃ c, codeOf (deriveCodes tree) sym = some c) :
    ∃ bits, sourceEncode (deriveCodes tree) syms = some bits ∧
      sourceDecodeFrom tree tree false bits = some (syms, false) := by
  induction syms with
  | nil => exact ⟨[], rfl, by rw [sourceDecodeFrom]⟩
  | cons sym syms ih =>
    obtain ⟨⟨c, hcode⟩, hrest⟩ := List.forall_mem_cons.1 h
    obtain ⟨bits, henc, hdec⟩ := ih hrest
    obtain ⟨path, hpath, hsym⟩ := sourceDecodeFrom_code htree (mem_of_codeOf hcode)
    obtain rfl : c = path := hpath
    exact ⟨c ++ bits, by simp [sourceEncode, hcode, henc], by rw [hsym, hdec]; rfl⟩

/-- A source's encoding exists and decodes to the source, the empty one's included (R204 (1), R202). -/
theorem treeOf_roundTrip (T : List Sym) :
    ∃ bits, sourceEncode (deriveCodes (treeOf T)) T = some bits ∧
      sourceDecodeFrom (treeOf T) (treeOf T) false bits = some (T, false) := by
  by_cases hT : T = []
  · subst hT
    exact ⟨[], rfl, rfl⟩
  · obtain ⟨w, l, r, htree⟩ := treeOf_internal hT
    exact sourceEncode_decode htree T fun sym hsym => (exists_code hsym).imp fun _ => And.left

/-- Settles O56, the dangling-path flag of the decode dropped. (The model has a `huffmanRoundTrip` of its own, R204 (1) at the
block.) -/
theorem huffmanRoundTripOfSource : Obligations.HuffmanRoundTrip := fun T _ => by
  obtain ⟨bits, henc, hdec⟩ := treeOf_roundTrip T
  exact ⟨bits, henc, by rw [sourceDecode, hdec]; rfl⟩

/-! ## The injector -/

/-- The flips are at the distances from the start that the interval divides (R198). -/
theorem flipEvery_getElem? {start interval i : Nat} {bits : Bits} {b : Bool} (h : bits[i]? = some b) :
    (flipEvery start interval bits)[i]? =
      some (if start ≤ i ∧ (interval : Int) ∣ (i : Int) - start then !b else b) := by
  have hcond : (start ≤ i ∧ (i - start) % interval = 0) ↔ (start ≤ i ∧ (interval : Int) ∣ (i : Int) - start) := by
    refine and_congr_right fun hle => ?_
    rw [← Nat.dvd_iff_mod_eq_zero, ← Int.natCast_dvd_natCast, Nat.cast_sub hle]
  simp only [flipEvery, List.getElem?_mapIdx, h, Option.map_some, hcond]

/-- A positive interval flips from INJ_START, which is 0 for interval 1 (R198). -/
theorem injectErrors_eq_flipEvery {interval : Nat} (hpos : 0 < interval) (seed : Nat) (bits : Bits) :
    injectErrors bits interval seed = flipEvery (Config.injStart seed interval) interval bits := by
  unfold injectErrors
  split
  · next h =>
    obtain rfl : bits = [] := h.resolve_right (by omega)
    rfl
  · split
    · next h =>
      obtain rfl : interval = 1 := by exact_mod_cast h
      rw [Config.injStart, Nat.mod_one]
    · rw [Int.toNat_natCast]

/-- Settles O58: the start is INJ_START, below the interval by its reduction modulo the interval. -/
theorem injectorFlipsEveryInterval : Obligations.InjectorFlipsEveryInterval := by
  intro interval seed
  refine ⟨fun bits h => if_pos h, fun hpos => ?_⟩
  lift interval to Nat using hpos.le
  have hpos' : 0 < interval := by exact_mod_cast hpos
  refine ⟨Config.injStart seed interval, by exact_mod_cast Nat.mod_lt _ hpos', fun bits => ?_⟩
  rw [injectErrors_eq_flipEvery hpos']
  exact ⟨List.length_mapIdx, fun i b => flipEvery_getElem?⟩

end Sys2Proof.Machine
end

section
/-! PROOFS. The table loads of a run (70_reset_and_hazards.md R243 step 5, 48_host_reference.md R195, R196): each line writes
one entry or one node, the lines of an image or of a tree write them all, and what they leave is a clean run start (R253). -/

namespace Sys2Proof.Machine

/-! ## Lines one after another -/

/-- The lines assemble, and their accesses take the block from s to t. -/
def Runs (ls : List Line) (s t : State) : Prop := ∃ as, assembleAll ls = some as ∧ as.foldl perform s = t

theorem Runs.performLines_eq {ls : List Line} {s t : State} (h : Runs ls s t) : performLines ls s = t := by
  obtain ⟨as, has, hrun⟩ := h
  rw [performLines, has]
  exact hrun

theorem runs_nil (s : State) : Runs [] s s := ⟨[], rfl, rfl⟩

theorem runs_line {l : Line} {as : List Access} (h : assemble l = some as) (s : State) :
    Runs [l] s (as.foldl perform s) := ⟨as, by simp [assembleAll, h], rfl⟩

theorem Runs.cons {l : Line} {ls : List Line} {s t u : State} (h : Runs [l] s t) (hrest : Runs ls t u) :
    Runs (l :: ls) s u := by
  obtain ⟨as, has, rfl⟩ := h
  obtain ⟨bs, hbs, rfl⟩ := hrest
  obtain ⟨as', has', rfl⟩ : ∃ as', assemble l = some as' ∧ as' = as := by simpa [assembleAll] using has
  exact ⟨as' ++ bs, by simp [assembleAll, has', hbs], List.foldl_append⟩

theorem Runs.append {ls ls' : List Line} {s t u : State} (h : Runs ls s t) (hrest : Runs ls' t u) :
    Runs (ls ++ ls') s u := by
  induction ls generalizing s with
  | nil =>
    obtain ⟨as, has, rfl⟩ := h
    obtain rfl : [] = as := Option.some.inj has
    exact hrest
  | cons l ls ih =>
    obtain ⟨as, has, rfl⟩ := h
    simp only [assembleAll, Option.bind_eq_bind, Option.bind_eq_some_iff, Option.pure_def, Option.some.injEq] at has
    obtain ⟨as, hl, bs, hls, rfl⟩ := has
    exact (runs_line hl s).cons (ih ⟨bs, hls, List.foldl_append.symm⟩)

theorem operand_of_lt {width n : Nat} (h : n < 2 ^ width) : operand width n = some (BitVec.ofNat width n) := if_pos h

theorem asmWr_of_lt {r : Reg} {v : Nat} (h : v < 2 ^ 32) : asmWr r v = some (.wr r (BitVec.ofNat 32 v)) := by
  rw [asmWr, operand_of_lt h]
  rfl

theorem perform_wrArg0 (s : State) (v : Word) : perform s (.wr .arg0 v) = { s with arg0 := v } :=
  perform_of_next (congrArg (exec · s) (decode_wr .arg0 v))

theorem perform_wrArg1 (s : State) (v : Word) : perform s (.wr .arg1 v) = { s with arg1 := v } :=
  perform_of_next (congrArg (exec · s) (decode_wr .arg1 v))

theorem perform_wrStatus (s : State) (v : Word) : perform s (.wr .status v) = acknowledge v s :=
  perform_of_next (congrArg (exec · s) (decode_wr .status v))

/-- What the ranges of R8 make of an HHC's capacities: indices and lengths fit their fields, and each queue takes the output
of any one command. -/
theorem legal_bounds {p : Params} (h : p.legal = true) : p.nSym ≤ 2 ^ 10 ∧ 0 < p.nNode ∧ p.nNode ≤ 2 ^ 11 ∧ p.lMax ≤ 32 ∧
    64 ≤ p.qCap ∧ p.qCap < 2 ^ 32 ∧ 32 ≤ p.sqCap ∧ p.sqCap < 2 ^ 32 := by
  obtain ⟨-, -, -, -, hsq⟩ := legal_fits h
  have hqCap := qCap_lt_of_legal h
  simp only [Params.legal, Bool.and_eq_true, decide_eq_true_eq] at h
  obtain ⟨⟨⟨⟨⟨⟨⟨⟨⟨-, hsym⟩, -⟩, hnode⟩, -⟩, hlen⟩, hq⟩, -⟩, hsq'⟩, -⟩ := h
  exact ⟨Nat.pow_le_pow_right two_pos hsym, Nat.two_pow_pos _, Nat.pow_le_pow_right two_pos hnode, hlen,
    Nat.pow_le_pow_right two_pos hq, hqCap, Nat.pow_le_pow_right two_pos hsq',
    Nat.pow_lt_pow_right (by decide) (hsq.trans (by decide))⟩

/-! ## The code table -/

/-- The entry of a symbol and its code (R195). -/
def CtEntry.ofCode (c : Sym × Bits) : CtEntry :=
  { v := true, sym := c.1, len := BitVec.ofNat 6 c.2.length, code := BitVec.ofNat 32 (bitsToNat c.2) }

/-- The entry's bits are the code (R30). -/
theorem CtEntry.ofCode_bits {c : Sym × Bits} (hmax : c.2.length ≤ 32) : (CtEntry.ofCode c).bits = c.2 := by
  have hlen : (CtEntry.ofCode c).len.toNat = c.2.length := Nat.mod_eq_of_lt (by omega)
  refine List.ext_getElem (by rw [CtEntry.bits_length, hlen]) fun j hj hj' => ?_
  have hlt : c.2.length - 1 - j < 32 := by omega
  have hrev : c.2.length - 1 - (c.2.length - 1 - j) = j := by omega
  have hrange : c.2.length - 1 - j < c.2.length := by omega
  simp only [CtEntry.bits, hlen, List.getElem_map, List.getElem_range]
  rw [CtEntry.ofCode, BitVec.getLsbD_ofNat, decide_eq_true hlt, Bool.true_and, bitsToNat_testBit,
    List.getElem?_reverse hrange, hrev, List.getElem?_eq_getElem hj', Option.getD_some]

/-- ARG1 written with a symbol holds the symbol in its low 21 bits (R75). -/
theorem extractLsb'_ofNat_sym (sym : Sym) : (BitVec.ofNat 32 sym.toNat).extractLsb' 0 21 = sym := by
  have := sym.isLt
  refine BitVec.eq_of_toNat_eq ?_
  rw [BitVec.extractLsb'_toNat, BitVec.toNat_ofNat, Nat.shiftRight_zero]
  omega

/-- CT.LOAD after the writes of a code and its symbol makes their entry (R85, R111). -/
theorem loadedEntry_eq_ofCode {c : Sym × Bits} (hmax : c.2.length ≤ 32) (s : State) :
    loadedEntry (BitVec.ofNat 6 c.2.length)
      { s with arg0 := BitVec.ofNat 32 (bitsToNat c.2), arg1 := BitVec.ofNat 32 c.1.toNat } = .ofCode c := by
  have hlen : (BitVec.ofNat 6 c.2.length).toNat = c.2.length := Nat.mod_eq_of_lt (by omega)
  have hcode : BitVec.ofNat 32 (bitsToNat c.2) &&& BitVec.ofNat 32 (2 ^ c.2.length - 1) =
      BitVec.ofNat 32 (bitsToNat c.2) := by
    have hbits := bitsToNat_lt c.2
    have hpow : 2 ^ c.2.length ≤ 2 ^ 32 := Nat.pow_le_pow_right two_pos hmax
    refine BitVec.eq_of_toNat_eq ?_
    rw [BitVec.toNat_and, BitVec.toNat_ofNat, BitVec.toNat_ofNat, Nat.mod_eq_of_lt (by omega), Nat.mod_eq_of_lt (by omega),
      Nat.and_two_pow_sub_one_eq_mod, Nat.mod_eq_of_lt hbits]
  simp only [loadedEntry, argSym, argCode, hlen, extractLsb'_ofNat_sym, hcode, CtEntry.ofCode]

/-- A ct.entry line for an entry of the table and a code of legal length writes the entry (R85, R111). -/
theorem runs_ctEntry {c : Sym × Bits} {i : Nat} {s : State} (hlegal : s.params.legal = true) (hi : i < s.params.nSym)
    (hpos : 1 ≤ c.2.length) (hmax : c.2.length ≤ s.params.lMax) :
    ∃ v w, Runs [.ctEntry i c.1.toNat c.2] s { s with arg0 := v, arg1 := w, ct := s.ct.set i (.ofCode c) } := by
  obtain ⟨hsyms, -, -, hlMax, -⟩ := legal_bounds hlegal
  have hcode : bitsToNat c.2 < 2 ^ 32 := (bitsToNat_lt c.2).trans_le (Nat.pow_le_pow_right two_pos (by omega))
  have hsym : c.1.toNat < 2 ^ 32 := c.1.isLt.trans (by decide)
  have hline : assemble (.ctEntry i c.1.toNat c.2) = some [.wr .arg0 (BitVec.ofNat 32 (bitsToNat c.2)),
      .wr .arg1 (BitVec.ofNat 32 c.1.toNat), .command (.ctLoad (BitVec.ofNat 6 c.2.length) (BitVec.ofNat 10 i))] := by
    simp [assemble, asmWr_of_lt hcode, asmWr_of_lt hsym, operand_of_lt (show c.2.length < 2 ^ 6 by omega),
      operand_of_lt (show i < 2 ^ 10 by omega)]
  have hidx : (BitVec.ofNat 10 i).toNat = i := Nat.mod_eq_of_lt (by omega)
  have hlen : (BitVec.ofNat 6 c.2.length).toNat = c.2.length := Nat.mod_eq_of_lt (by omega)
  have hload := execCtLoad_writes (len := BitVec.ofNat 6 c.2.length) (idx := BitVec.ofNat 10 i)
    (s := { s with arg0 := BitVec.ofNat 32 (bitsToNat c.2), arg1 := BitVec.ofNat 32 c.1.toNat })
    (by rwa [hidx]) (by rwa [hlen]) (by rwa [hlen])
  rw [loadedEntry_eq_ofCode (by omega), hidx] at hload
  have hrun := runs_line hline s
  rw [List.foldl_cons, List.foldl_cons, List.foldl_cons, perform_wrArg0, perform_wrArg1,
    perform_command (c := .ctLoad _ _) hload] at hrun
  exact ⟨_, _, hrun⟩

/-- The code table with an image written from entry i on. -/
def ctWithImage (ct : List CtEntry) (image : List (Sym × Bits)) (i : Nat) : List CtEntry :=
  ct.take i ++ image.map .ofCode ++ ct.drop (i + image.length)

/-- Writing an image's first entry and then the others is writing the image. -/
theorem ctWithImage_set {ct : List CtEntry} (c : Sym × Bits) (image : List (Sym × Bits)) {i : Nat} (hi : i < ct.length) :
    ctWithImage (ct.set i (.ofCode c)) image (i + 1) = ctWithImage ct (c :: image) i := by
  have htake : (ct.set i (.ofCode c)).take (i + 1) = ct.take i ++ [.ofCode c] := by
    rw [List.take_add_one, List.take_set_of_le (le_refl i), List.getElem?_set_self hi]
    rfl
  rw [ctWithImage, htake, List.drop_set_of_lt (by omega), ctWithImage, List.map_cons, List.length_cons,
    List.append_assoc (ct.take i), List.singleton_append, Nat.add_right_comm, Nat.add_assoc]

/-- The lines of an image that fits the table write it (R195). -/
theorem runs_ctLines {image : List (Sym × Bits)} {i : Nat} {s : State} (hlegal : s.params.legal = true)
    (hsize : s.ct.length = s.params.nSym) (hroom : i + image.length ≤ s.params.nSym)
    (hcodes : ∀ c ∈ image, 1 ≤ c.2.length ∧ c.2.length ≤ s.params.lMax) :
    ∃ v w, Runs (ctLines image i) s { s with arg0 := v, arg1 := w, ct := ctWithImage s.ct image i } := by
  induction image generalizing i s with
  | nil => exact ⟨s.arg0, s.arg1, by simpa [ctWithImage, ctLines] using runs_nil s⟩
  | cons c image ih =>
    obtain ⟨⟨hpos, hmax⟩, hcodes'⟩ := List.forall_mem_cons.1 hcodes
    rw [List.length_cons] at hroom
    obtain ⟨v, w, hline⟩ := runs_ctEntry (c := c) (i := i) hlegal (by omega) hpos hmax
    obtain ⟨v', w', hrest⟩ := ih (i := i + 1) (s := { s with arg0 := v, arg1 := w, ct := s.ct.set i (.ofCode c) }) hlegal
      (by simpa using hsize) (by simp only; omega) hcodes'
    have hi : i < s.ct.length := by omega
    exact ⟨v', w', hline.cons (ctWithImage_set c image hi ▸ hrest)⟩

/-- A table with an image at its start and no other valid entry holds the image (R253). -/
theorem holdsCodes_ctWithImage {ct : List CtEntry} {image : List (Sym × Bits)} (hinv : ∀ e ∈ ct, e.v = false)
    (hmax : ∀ c ∈ image, c.2.length ≤ 32) : holdsCodes (ctWithImage ct image 0) image = true := by
  rw [ctWithImage, List.take_zero, List.nil_append, Nat.zero_add]
  have hrest : ∀ e ∈ ct.drop image.length, e.v = false := fun e he => hinv e (List.mem_of_mem_drop he)
  generalize ct.drop image.length = rest at hrest
  induction image with
  | nil => simpa [holdsCodes] using hrest
  | cons c image ih =>
    obtain ⟨hc, hmax'⟩ := List.forall_mem_cons.1 hmax
    simp [holdsCodes, CtEntry.ofCode_bits hc, ih hmax']
    simp [CtEntry.ofCode]

/-! ## The node arena -/

theorem nodeAt_ofNat {s : State} {k : Nat} (hk : k < 2 ^ 11) :
    nodeAt s (BitVec.ofNat 11 k) = (s.node[k]?).getD NodeEntry.atReset := by
  rw [nodeAt, BitVec.toNat_ofNat, Nat.mod_eq_of_lt hk]

/-- Whether the arena holds a tree depends on the nodes with the tree's indices only (R196). -/
theorem holdsTree_of_node_eq {s s' : State} {t : CodeTree} {base : Nat} (h : holdsTree s t base = true)
    (hroom : base + t.size ≤ 2 ^ 11) (hnode : ∀ k, base ≤ k → k < base + t.size → s'.node[k]? = s.node[k]?) :
    holdsTree s' t base = true := by
  induction t generalizing base with
  | absent => rfl
  | leaf sym w =>
    rw [CodeTree.size] at hroom hnode
    rw [holdsTree, nodeAt_ofNat (by omega), hnode base (by omega) (by omega), ← nodeAt_ofNat (by omega)]
    exact h
  | internal w l r ihl ihr =>
    rw [CodeTree.size] at hroom hnode
    rw [holdsTree, Bool.and_eq_true, Bool.and_eq_true] at h ⊢
    obtain ⟨⟨hhere, hl⟩, hr⟩ := h
    refine ⟨⟨?_, ihl hl (by omega) fun k _ _ => hnode k (by omega) (by omega)⟩,
      ihr hr (by omega) fun k _ _ => hnode k (by omega) (by omega)⟩
    rw [nodeAt_ofNat (by omega), hnode base (by omega) (by omega), ← nodeAt_ofNat (by omega)]
    exact hhere

/-- The word of an hd.internal line: kind 1, and for each child that is present its bit and its index (R74, R85). -/
def internalWord (l r : Option Nat) : Word :=
  1#2 ++ BitVec.ofBool l.isSome ++ BitVec.ofBool r.isSome ++ 0#6 ++ BitVec.ofNat 11 (l.getD 0) ++ BitVec.ofNat 11 (r.getD 0)

/-- The node of that word, with a symbol that nothing reads (R31). -/
def internalNode (l r : Option Nat) (sym : Sym) : NodeEntry :=
  { kind := .internal, lv := l.isSome, rv := r.isSome, left := BitVec.ofNat 11 (l.getD 0),
    right := BitVec.ofNat 11 (r.getD 0), sym := sym }

theorem childField_eq {c : Option Nat} (hc : ∀ i ∈ c, i < 2 ^ 11) (p k : Nat) :
    childField p k c = some (2 ^ p * c.isSome.toNat + c.getD 0 * 2 ^ k) := by
  cases c with
  | none => simp [childField]
  | some i =>
    have hi : i < 2 ^ 11 := hc i rfl
    simpa [childField, operand_of_lt hi] using hi

theorem toNat_append_eq_add {n m : Nat} (x : BitVec n) (y : BitVec m) :
    (x ++ y).toNat = x.toNat * 2 ^ m + y.toNat := by
  rw [BitVec.toNat_append, ← Nat.shiftLeft_add_eq_or_of_lt y.isLt, Nat.shiftLeft_eq]

/-- The assembler's sum is the word field by field (R85). -/
theorem internalArg_eq {l r : Option Nat} (hl : ∀ i ∈ l, i < 2 ^ 11) (hr : ∀ i ∈ r, i < 2 ^ 11) :
    internalArg l r = some (internalWord l r).toNat := by
  have hl' : l.getD 0 < 2 ^ 11 := by cases l <;> simp_all
  have hr' : r.getD 0 < 2 ^ 11 := by cases r <;> simp_all
  have hfields : (internalWord l r).toNat =
      2 ^ 30 + (2 ^ 29 * l.isSome.toNat + l.getD 0 * 2 ^ 11) + (2 ^ 28 * r.isSome.toNat + r.getD 0 * 2 ^ 0) := by
    simp only [internalWord, toNat_append_eq_add, BitVec.toNat_ofBool, BitVec.toNat_ofNat, Nat.mod_eq_of_lt hl',
      Nat.mod_eq_of_lt hr']
    omega
  simp [internalArg, childField_eq hl, childField_eq hr, hfields]

theorem internalWord_fields (l r : Option Nat) :
    (internalWord l r).extractLsb' 30 2 = 1#2 ∧ (internalWord l r).extractLsb' 29 1 = BitVec.ofBool l.isSome ∧
      (internalWord l r).extractLsb' 28 1 = BitVec.ofBool r.isSome ∧
      (internalWord l r).extractLsb' 11 11 = BitVec.ofNat 11 (l.getD 0) ∧
      (internalWord l r).extractLsb' 0 11 = BitVec.ofNat 11 (r.getD 0) := by
  refine ⟨?_, ?_, ?_, ?_, ?_⟩ <;>
    simp (disch := omega) only [internalWord, BitVec.extractLsb'_append_eq_right, BitVec.extractLsb'_append_eq_of_le,
      Nat.reduceSub, BitVec.extractLsb'_eq_self]

/-- HD.NODE reads the word of an hd.internal line as its node (R74). -/
theorem argNode_internalWord (l r : Option Nat) (s : State) :
    argKind { s with arg0 := internalWord l r } = some .internal ∧
      argNode { s with arg0 := internalWord l r } .internal = internalNode l r (argSym s) := by
  obtain ⟨hkind, hlv, hrv, hleft, hright⟩ := internalWord_fields l r
  refine ⟨(congrArg nodeKindOf hkind).trans rfl, ?_⟩
  rw [argNode, getLsbD_of_flag hlv, getLsbD_of_flag hrv, hleft, hright]
  rfl

/-- The node of an hd.leaf line (R85, R196). -/
def leafNode (sym : Sym) : NodeEntry := { kind := .leaf, lv := false, rv := false, left := 0, right := 0, sym := sym }

/-- HD.NODE reads the words of an hd.leaf line as its node (R74, R75). -/
theorem argNode_leaf (sym : Sym) (s : State) :
    argKind { s with arg0 := 0x80000000#32, arg1 := BitVec.ofNat 32 sym.toNat } = some .leaf ∧
      argNode { s with arg0 := 0x80000000#32, arg1 := BitVec.ofNat 32 sym.toNat } .leaf = leafNode sym := by
  have hword : (0x80000000#32).extractLsb' 30 2 = 2#2 ∧ (0x80000000#32).getLsbD 29 = false ∧
      (0x80000000#32).getLsbD 28 = false ∧ (0x80000000#32).extractLsb' 11 11 = 0#11 ∧
      (0x80000000#32).extractLsb' 0 11 = 0#11 := by decide
  obtain ⟨hkind, hlv, hrv, hleft, hright⟩ := hword
  refine ⟨(congrArg nodeKindOf hkind).trans rfl, ?_⟩
  rw [argNode, argSym, hlv, hrv, hleft, hright, extractLsb'_ofNat_sym]
  rfl

section NodeLines

variable {s : State} {base : Nat}

/-- An hd.internal line whose node and present children lie in the arena writes the node (R85, R131). -/
theorem runs_hdInternal {l r : Option Nat} (hlegal : s.params.legal = true) (hbase : base < s.params.nNode)
    (hl : ∀ i ∈ l, i < s.params.nNode) (hr : ∀ i ∈ r, i < s.params.nNode) :
    ∃ v sym, Runs [.hdInternal base l r] s { s with arg0 := v, node := s.node.set base (internalNode l r sym) } := by
  obtain ⟨-, -, hnodes, -⟩ := legal_bounds hlegal
  have hl' : ∀ i ∈ l, i < 2 ^ 11 := fun i hi => (hl i hi).trans_le hnodes
  have hr' : ∀ i ∈ r, i < 2 ^ 11 := fun i hi => (hr i hi).trans_le hnodes
  have hline : assemble (.hdInternal base l r) =
      some [.wr .arg0 (internalWord l r), .command (.hdNode (BitVec.ofNat 11 base))] := by
    simp [assemble, internalArg_eq hl' hr', asmWr_of_lt (internalWord l r).isLt,
      operand_of_lt (show base < 2 ^ 11 by omega)]
  have hidx : (BitVec.ofNat 11 base).toNat = base := Nat.mod_eq_of_lt (by omega)
  obtain ⟨hkind, hnode⟩ := argNode_internalWord l r s
  have hchild {c : Option Nat} (hc : ∀ i ∈ c, i < s.params.nNode) (hp : c.isSome = true) :
      (BitVec.ofNat 11 (c.getD 0)).toNat < s.params.nNode := by
    obtain ⟨i, rfl⟩ := Option.isSome_iff_exists.1 hp
    exact (Nat.mod_le _ _).trans_lt (hc i rfl)
  have hinside : childOutOfRange s.params (internalNode l r (argSym s)) = false :=
    Bool.eq_false_iff.2 fun hout => by
      rcases ((childOutOfRange_iff _ _).1 hout).2 with ⟨hp, hfar⟩ | ⟨hp, hfar⟩
      · exact absurd (hchild hl hp) (not_lt.2 hfar)
      · exact absurd (hchild hr hp) (not_lt.2 hfar)
  have hwrite := execHdNode_writes (idx := BitVec.ofNat 11 base) (s := { s with arg0 := internalWord l r })
    (by rwa [hidx]) hkind (by rwa [hnode])
  rw [hnode, hidx] at hwrite
  have hrun := runs_line hline s
  rw [List.foldl_cons, List.foldl_cons, perform_wrArg0, perform_command (c := .hdNode _) hwrite] at hrun
  exact ⟨_, _, hrun⟩

/-- An hd.leaf line whose node lies in the arena writes the node (R85, R131). -/
theorem runs_hdLeaf (sym : Sym) (hlegal : s.params.legal = true) (hbase : base < s.params.nNode) :
    ∃ v w, Runs [.hdLeaf base sym.toNat] s { s with arg0 := v, arg1 := w, node := s.node.set base (leafNode sym) } := by
  obtain ⟨-, -, hnodes, -⟩ := legal_bounds hlegal
  have hsym : sym.toNat < 2 ^ 32 := sym.isLt.trans (by decide)
  have hline : assemble (.hdLeaf base sym.toNat) = some [.wr .arg0 0x80000000#32,
      .wr .arg1 (BitVec.ofNat 32 sym.toNat), .command (.hdNode (BitVec.ofNat 11 base))] := by
    simp [assemble, asmWr_of_lt (show 0x80000000 < 2 ^ 32 by decide), asmWr_of_lt hsym,
      operand_of_lt (show base < 2 ^ 11 by omega)]
  have hidx : (BitVec.ofNat 11 base).toNat = base := Nat.mod_eq_of_lt (by omega)
  obtain ⟨hkind, hnode⟩ := argNode_leaf sym s
  have hwrite := execHdNode_writes (idx := BitVec.ofNat 11 base)
    (s := { s with arg0 := 0x80000000#32, arg1 := BitVec.ofNat 32 sym.toNat }) (by rwa [hidx]) hkind (by rw [hnode]; rfl)
  rw [hnode, hidx] at hwrite
  have hrun := runs_line hline s
  rw [List.foldl_cons, List.foldl_cons, List.foldl_cons, perform_wrArg0, perform_wrArg1,
    perform_command (c := .hdNode _) hwrite] at hrun
  exact ⟨_, _, hrun⟩

/-- A node's child field agrees with the child it was written for (R196). -/
theorem holdsChild_childIndex {t : CodeTree} {i : Nat} (hi : ∀ k ∈ childIndex t i, k < 2 ^ 11) :
    holdsChild (childIndex t i).isSome (BitVec.ofNat 11 ((childIndex t i).getD 0)) t i = true := by
  cases t with
  | absent => rfl
  | leaf | internal => simpa [holdsChild, childIndex] using hi i rfl

/-- A child has an index only where the tree has it, and then it has a node (R196). -/
theorem size_pos_of_childIndex {t : CodeTree} {i k : Nat} (h : k ∈ childIndex t i) : k = i ∧ 1 ≤ t.size := by
  cases t with
  | absent => cases h
  | leaf sym w => exact ⟨(Option.some.inj h).symm, le_refl 1⟩
  | internal w l r => exact ⟨(Option.some.inj h).symm, by rw [CodeTree.size]; omega⟩

/-- The lines of a tree that fits the arena write it at its indices, and leave the other nodes (R196). -/
theorem runs_nodeLines (t : CodeTree) (hlegal : s.params.legal = true) (hsize : s.node.length = s.params.nNode)
    (hroom : base + t.size ≤ s.params.nNode) :
    ∃ v w node, Runs (nodeLines t base) s { s with arg0 := v, arg1 := w, node := node } ∧
      node.length = s.node.length ∧ (∀ k, k < base ∨ base + t.size ≤ k → node[k]? = s.node[k]?) ∧
      holdsTree { s with node := node } t base = true := by
  obtain ⟨-, -, hnodes, -⟩ := legal_bounds hlegal
  induction t generalizing s base with
  | absent => exact ⟨s.arg0, s.arg1, s.node, runs_nil s, rfl, fun _ _ => rfl, rfl⟩
  | leaf sym w =>
    rw [CodeTree.size] at hroom
    obtain ⟨v, w, hrun⟩ := runs_hdLeaf sym hlegal (base := base) (by omega)
    refine ⟨v, w, _, hrun, List.length_set, fun k hk => List.getElem?_set_ne ?_, ?_⟩
    · rw [CodeTree.size] at hk
      omega
    · rw [holdsTree, nodeAt_ofNat (by omega), List.getElem?_set_self (by omega)]
      simp [leafNode]
  | internal n l r ihl ihr =>
    rw [CodeTree.size] at hroom
    have hchild {t : CodeTree} {i : Nat} (hi : i + t.size ≤ s.params.nNode) :
        ∀ k ∈ childIndex t i, k < s.params.nNode := fun k hk => by
      obtain ⟨rfl, hpos⟩ := size_pos_of_childIndex hk
      omega
    have hchildl := hchild (t := l) (i := base + 1) (by omega)
    have hchildr := hchild (t := r) (i := base + 1 + l.size) (by omega)
    obtain ⟨v, sym, hhere⟩ := runs_hdInternal (base := base) hlegal (by omega) hchildl hchildr
    obtain ⟨vl, wl, nodel, hrunl, hlenl, hkeptl, hholdsl⟩ := ihl (base := base + 1) (s := { s with
      arg0 := v, node := s.node.set base (internalNode (childIndex l (base + 1)) (childIndex r (base + 1 + l.size)) sym) })
      hlegal (List.length_set.trans hsize) (by simp only; omega) hnodes
    obtain ⟨vr, wr, noder, hrunr, hlenr, hkeptr, hholdsr⟩ := ihr (base := base + 1 + l.size)
      (s := { s with arg0 := vl, arg1 := wl, node := nodel })
      hlegal ((hlenl.trans List.length_set).trans hsize) (by simp only; omega) hnodes
    refine ⟨vr, wr, noder, hhere.cons (hrunl.append hrunr), (hlenr.trans hlenl).trans List.length_set, fun k hk => ?_, ?_⟩
    · rw [CodeTree.size] at hk
      rw [hkeptr k (by omega), hkeptl k (by omega), List.getElem?_set_ne (by omega)]
    · have hroot : noder[base]? =
          some (internalNode (childIndex l (base + 1)) (childIndex r (base + 1 + l.size)) sym) := by
        rw [hkeptr base (by omega), hkeptl base (by omega), List.getElem?_set_self (by omega)]
      have hleft : holdsTree { s with node := noder } l (base + 1) = true :=
        holdsTree_of_node_eq hholdsl (by omega) fun k _ hk => hkeptr k (.inl hk)
      have hright : holdsTree { s with node := noder } r (base + 1 + l.size) = true :=
        holdsTree_of_node_eq hholdsr (by omega) fun _ _ _ => rfl
      rw [holdsTree, nodeAt_ofNat (by omega), hroot, hleft, hright]
      have hl := holdsChild_childIndex fun k hk => (hchildl k hk).trans_le hnodes
      have hr := holdsChild_childIndex fun k hk => (hchildr k hk).trans_le hnodes
      simp [internalNode, hl, hr]

end NodeLines

/-! ## The run start -/

/-- A line that is one command runs it (R84). -/
theorem runs_command {l : Line} {c : Command} {s t : State} (hl : assemble l = some [.command c])
    (h : runCommand c s = .next t) : Runs [l] s t := perform_command h ▸ runs_line hl s

/-- The acknowledgement of every bit leaves nothing in STATUS (R94). -/
theorem runs_ack (s : State) : Runs [.ack 0xFF] s { s with status := 0 } := by
  have hack : acknowledge 0xFF#32 s = { s with status := 0 } := by simp [acknowledge, ackBits]
  have hrun := runs_line (l := .ack 0xFF) rfl s
  rwa [List.foldl_cons, List.foldl_nil, perform_wrStatus, hack] at hrun

/-- The codes of a source's image are those of its derived table (R195). -/
theorem mem_ctImage {T : List Sym} {c : Sym × Bits} (h : c ∈ ctImage T) : c ∈ deriveCodes (treeOf T) := by
  obtain ⟨sym, hsym, rfl⟩ := List.mem_map.1 h
  obtain ⟨code, hcode, hmem⟩ := exists_code ((mem_distinct sym T).1 hsym)
  rw [hcode]
  exact hmem

/-- The codes of a source that fits are of legal lengths (R111, R194). -/
theorem length_of_mem_ctImage {p : Params} {T : List Sym} {c : Sym × Bits} (hfits : fits p T = true)
    (h : c ∈ ctImage T) : 1 ≤ c.2.length ∧ c.2.length ≤ p.lMax := by
  have hmem := mem_ctImage h
  simp only [fits, Bool.and_eq_true, List.all_eq_true, decide_eq_true_eq] at hfits
  exact ⟨length_pos_of_mem_deriveCodes hmem, hfits.2 c hmem⟩

/-- The table loads of a source that fits leave its image in CT and its tree in the arena, with the root at node 0 (R195,
R196). -/
theorem runs_loadLines {T : List Sym} {s : State} (h : s.Inv) (hfits : fits s.params T = true) :
    ∃ t, Runs (loadLines T) s t ∧ t.root = 0 ∧ holdsCodes t.ct (ctImage T) = true ∧ holdsTree t (treeOf T) 0 = true := by
  have hcodes (c) (hc : c ∈ ctImage T) := length_of_mem_ctImage hfits hc
  have hlegal := h.params_legal
  obtain ⟨-, hnode, hnode', hlMax, -⟩ := legal_bounds hlegal
  simp only [fits, Bool.and_eq_true, decide_eq_true_eq] at hfits
  obtain ⟨⟨hsyms, hnodes⟩, -⟩ := hfits
  have himage : (ctImage T).length = (distinct T).length := List.length_map _
  have hinv : Runs [.ctInv] s { s with ct := s.ct.map CtEntry.invalidate } := runs_command (c := .ctInv) rfl rfl
  obtain ⟨v, w, hct⟩ := runs_ctLines (image := ctImage T) (i := 0) (s := { s with ct := s.ct.map CtEntry.invalidate })
    hlegal ((List.length_map _).trans h.ct_size) (by simp only; omega) hcodes
  obtain ⟨v', w', node, hrun, -, -, htree⟩ := runs_nodeLines (base := 0) (s := { s with
    arg0 := v, arg1 := w, ct := ctWithImage (s.ct.map CtEntry.invalidate) (ctImage T) 0 })
    (treeOf T) hlegal h.node_size (by simp only; omega)
  have hroot := runs_command (l := .hdRoot 0) (c := .hdRoot 0) (s := { s with
    arg0 := v', arg1 := w', ct := ctWithImage (s.ct.map CtEntry.invalidate) (ctImage T) 0, node := node })
    rfl (if_neg (not_le.2 hnode))
  exact ⟨_, hinv.cons ((hct.append hrun).append hroot), rfl,
    holdsCodes_ctWithImage (fun _ => v_of_mem_invalidated) fun c hc => (hcodes c hc).2.trans hlMax,
    holdsTree_of_node_eq htree (by omega) fun _ _ _ => rfl⟩

/-- Settles O59: the loads leave the source's tables, CLEAR empties the streams, and the acknowledgement empties STATUS. -/
theorem runStartIsClean : Obligations.RunStartIsClean := by
  intro T s h hfits
  obtain ⟨t, hload, hroot, hcodes, htree⟩ := runs_loadLines h hfits
  have hclear := runs_command (l := .clear 0xF) (c := .clear 0xF) (s := t) rfl (execClear_eq _ _)
  have hfit : 0 + (treeOf T).size ≤ 2 ^ 11 := by
    simp only [fits, Bool.and_eq_true, decide_eq_true_eq] at hfits
    have := legal_bounds h.params_legal
    omega
  have htree' : holdsTree { cleared 0xF t with status := 0 } (treeOf T) 0 = true :=
    holdsTree_of_node_eq htree hfit fun _ _ _ => rfl
  rw [runStartLines, (hload.append (hclear.cons (runs_ack _))).performLines_eq]
  simp only [cleanRunStart, htree']
  simp [cleanStreams, cleared, hcodes, hroot]

end Sys2Proof.Machine
end

section
/-! PROOFS. How the reference host reads a queue (48_host_reference.md R199): a drain takes bits or symbols off the front of
its queue until the level is one that the host asked for, and changes nothing else that the block keeps. -/

namespace Sys2Proof.Machine

/-! ## What every host access keeps -/

theorem perform_cases (s : State) (a : Access) : perform s a = s ∨ exec (decode a) s = .next (perform s a) := by
  unfold perform
  split
  · next t ht => exact .inr ht
  · exact .inl rfl
  · exact .inl rfl

/-- An access of the host keeps the invariant (R46) and the parameters (R8). -/
theorem perform_keeps {s : State} (h : s.Inv) (a : Access) : (perform s a).Inv ∧ (perform s a).params = s.params := by
  rcases perform_cases s a with hs | ht
  · rw [hs]
    exact ⟨h, rfl⟩
  · obtain ⟨j, he, -⟩ := exists_effect ht
    exact ⟨he.inv h, he.params_kept⟩

theorem performLines_keeps {s : State} (h : s.Inv) (ls : List Line) :
    (performLines ls s).Inv ∧ (performLines ls s).params = s.params := by
  rw [performLines]
  induction (assembleAll ls).getD [] generalizing s with
  | nil => exact ⟨h, rfl⟩
  | cons a as ih =>
    obtain ⟨hinv, hparams⟩ := perform_keeps h a
    exact (ih hinv).imp_right fun hrest => hrest.trans hparams

/-! ## Draining a bit queue -/

/-- The three queues of bits. -/
inductive BitQueue where
  | he
  | ce
  | cd

namespace BitQueue

/-- The register that shows the queue's level (R45). -/
def level : BitQueue → Reg
  | he => .heLevel
  | ce => .ceLevel
  | cd => .cdLevel

/-- The register that pops the queue (R56). -/
def data : BitQueue → Reg
  | he => .heData
  | ce => .ceData
  | cd => .cdData

/-- The bits queued. -/
def bits : BitQueue → State → Bits
  | he, s => s.heQ
  | ce, s => s.ceQ
  | cd, s => s.cdQ

/-- The block with k bits taken off the queue, and with other words returned so far. -/
def popped (k : Nat) (words : List Word) : BitQueue → State → State
  | he, s => { s with heQ := s.heQ.drop k, reads := words }
  | ce, s => { s with ceQ := s.ceQ.drop k, reads := words }
  | cd, s => { s with cdQ := s.cdQ.drop k, reads := words }

variable {u : BitQueue}

theorem bits_popped (k : Nat) (words : List Word) (s : State) : u.bits (u.popped k words s) = (u.bits s).drop k := by
  cases u <;> rfl

theorem popped_zero (s : State) : u.popped 0 s.reads s = s := by cases u <;> rfl

theorem popped_popped (k j : Nat) (words words' : List Word) (s : State) :
    u.popped j words' (u.popped k words s) = u.popped (k + j) words' s := by
  cases u <;> simp [popped]

theorem respond_popped (v : Word) (k : Nat) (words : List Word) (s : State) :
    respond v (u.popped k words s) = u.popped k (words ++ [v]) s := by
  cases u <;> rfl

/-- A read of LEVEL (R45). -/
theorem exec_level (s : State) : exec (decodeRead u.level) s = .next (respond (levelWord (u.bits s)) s) := by
  cases u <;> rfl

/-- A read of DATA after it (R56). -/
theorem exec_data (s : State) : exec (decodeRead u.data) (respond (levelWord (u.bits s)) s) =
    if u.bits s = [] then .next (underrun (respond (levelWord (u.bits s)) s))
    else .next (respond (popWord (u.bits s)) (u.popped 32 (s.reads ++ [levelWord (u.bits s)]) s)) := by
  cases u <;> rfl

theorem readReg_level (s : State) :
    readReg u.level s = (levelWord (u.bits s), u.popped 0 (s.reads ++ [levelWord (u.bits s)]) s) := by
  rw [readReg_of_respond (exec_level s), ← respond_popped, popped_zero]

/-- LEVEL and DATA give the first 32 bits of a queue that is not empty (R56). -/
theorem popBits_eq {s : State} (hlen : (u.bits s).length < 2 ^ 32) (hne : u.bits s ≠ []) :
    ∃ words, popBits u.level u.data s = ((u.bits s).take 32, u.popped 32 words s) :=
  ⟨_, by rw [popBits_eq_take hlen (exec_level s) ((exec_data s).trans (if_neg hne)), respond_popped]⟩

/-- A drain takes bits off the front, until the level is one at which the host stops (R199). -/
theorem drainBits_eq {more : Nat → Bool} (hstop : more 0 = false) (fuel : Nat) (s : State)
    (hfuel : (u.bits s).length ≤ 32 * fuel) (hlen : (u.bits s).length < 2 ^ 32) :
    ∃ k words, drainBits u.level u.data more fuel s = ((u.bits s).take k, u.popped k words s) ∧
      more ((u.bits s).length - k) = false := by
  induction fuel generalizing s with
  | zero =>
    have hempty : (u.bits s).length = 0 := by omega
    exact ⟨0, s.reads, by rw [drainBits, List.take_zero, popped_zero], by rwa [hempty]⟩
  | succ fuel ih =>
    have hlevel : (levelWord (u.bits s)).toNat = (u.bits s).length := Nat.mod_eq_of_lt hlen
    cases hmore : more (u.bits s).length with
    | false =>
      refine ⟨0, s.reads ++ [levelWord (u.bits s)], ?_, hmore⟩
      simp only [drainBits, readReg_level, hlevel, hmore, Bool.false_eq_true, if_false, List.take_zero]
    | true =>
      have hne : u.bits s ≠ [] := by
        rintro hnil
        rw [hnil] at hmore
        exact Bool.false_ne_true (hstop.symm.trans hmore)
      obtain ⟨words, hpop⟩ := popBits_eq hlen hne
      have hrest : (u.bits (u.popped 32 words s)).length = (u.bits s).length - 32 := by rw [bits_popped, List.length_drop]
      obtain ⟨k, words', hdrain, hend⟩ := ih (u.popped 32 words s) (by omega) (by omega)
      refine ⟨32 + k, words', ?_, by rwa [hrest, Nat.sub_sub] at hend⟩
      have hstep : drainBits u.level u.data more (fuel + 1) s =
          ((popBits u.level u.data s).1 ++ (drainBits u.level u.data more fuel (popBits u.level u.data s).2).1,
            (drainBits u.level u.data more fuel (popBits u.level u.data s).2).2) := by
        simp only [drainBits, popBits, readReg_level, hlevel, hmore, if_true]
      rw [hstep, hpop, hdrain, bits_popped, popped_popped, List.take_add]

end BitQueue

section Drains

variable {s s₀ : State} {more : Nat → Bool}

/-- The host's reads are enough to empty a queue that is within its capacity (R46, R199). -/
theorem bitFuel_suffices {q : Bits} (h : s.Inv) (hp : s.params = s₀.params) (hq : q.length ≤ s.params.qCap) :
    q.length ≤ 32 * bitFuel s₀ ∧ q.length < 2 ^ 32 := by
  have hcap := qCap_lt_of_legal h.params_legal
  rw [bitFuel, ← hp]
  omega

theorem drain_heQ (h : s.Inv) (hp : s.params = s₀.params) (hstop : more 0 = false) : ∃ k words,
    drainBits .heLevel .heData more (bitFuel s₀) s = (s.heQ.take k, { s with heQ := s.heQ.drop k, reads := words }) ∧
      more (s.heQ.length - k) = false :=
  (bitFuel_suffices h hp h.heQ_fits).elim (BitQueue.drainBits_eq (u := .he) hstop (bitFuel s₀) s)

theorem drain_ceQ (h : s.Inv) (hp : s.params = s₀.params) (hstop : more 0 = false) : ∃ k words,
    drainBits .ceLevel .ceData more (bitFuel s₀) s = (s.ceQ.take k, { s with ceQ := s.ceQ.drop k, reads := words }) ∧
      more (s.ceQ.length - k) = false :=
  (bitFuel_suffices h hp h.ceQ_fits).elim (BitQueue.drainBits_eq (u := .ce) hstop (bitFuel s₀) s)

theorem drain_cdQ (h : s.Inv) (hp : s.params = s₀.params) (hstop : more 0 = false) : ∃ k words,
    drainBits .cdLevel .cdData more (bitFuel s₀) s = (s.cdQ.take k, { s with cdQ := s.cdQ.drop k, reads := words }) ∧
      more (s.cdQ.length - k) = false :=
  (bitFuel_suffices h hp h.cdQ_fits).elim (BitQueue.drainBits_eq (u := .cd) hstop (bitFuel s₀) s)

/-- A drain that stops at level 0 alone has taken the whole queue. -/
theorem taken_all {α : Type} {q : List α} {k : Nat} (h : nonEmpty (q.length - k) = false) :
    q.take k = q ∧ q.drop k = [] := by
  have hle : q.length ≤ k := by simpa [nonEmpty, Nat.sub_eq_zero_iff_le] using h
  exact ⟨List.take_of_length_le hle, List.drop_of_length_le hle⟩

end Drains

/-! ## Draining the symbol queue -/

/-- A drain takes symbols off the front, until the level is one at which the host stops (R199). -/
theorem drainSyms_eq {more : Nat → Bool} (hstop : more 0 = false) (fuel : Nat) (s : State) (hfuel : s.hdQ.length ≤ fuel)
    (hlen : s.hdQ.length < 2 ^ 32) :
    ∃ k words, drainSyms more fuel s = (s.hdQ.take k, { s with hdQ := s.hdQ.drop k, reads := words }) ∧
      more (s.hdQ.length - k) = false := by
  induction fuel generalizing s with
  | zero =>
    obtain hempty : s.hdQ.length = 0 := Nat.le_zero.1 hfuel
    exact ⟨0, s.reads, rfl, by rwa [hempty]⟩
  | succ fuel ih =>
    have hread : readReg .hdLevel s = (levelWord s.hdQ, respond (levelWord s.hdQ) s) := readReg_of_respond rfl
    have hlevel : (levelWord s.hdQ).toNat = s.hdQ.length := Nat.mod_eq_of_lt hlen
    cases hmore : more s.hdQ.length with
    | false =>
      refine ⟨0, s.reads ++ [levelWord s.hdQ], ?_, hmore⟩
      simp only [drainSyms, hread, hlevel, hmore, Bool.false_eq_true, if_false, List.take_zero]
      rfl
    | true =>
      cases hq : s.hdQ with
      | nil =>
        rw [hq] at hmore
        exact absurd (hstop.symm.trans hmore) Bool.false_ne_true
      | cons sym rest =>
        have hpop : readReg .hdData (respond (levelWord s.hdQ) s) = (hdDataWord sym,
            respond (hdDataWord sym) { respond (levelWord s.hdQ) s with hdQ := rest }) :=
          readReg_of_respond (r := .hdData) (execRdHdData_pops hq)
        rw [hq, List.length_cons] at hfuel hlen
        obtain ⟨k, words, hdrain, hend⟩ := ih (respond (hdDataWord sym) { respond (levelWord s.hdQ) s with hdQ := rest })
          (Nat.le_of_succ_le_succ hfuel) (Nat.lt_of_succ_lt hlen)
        refine ⟨k + 1, words, ?_, by rw [List.length_cons, Nat.succ_sub_succ]; exact hend⟩
        simp only [drainSyms, hread, hlevel, hmore, if_true, hpop, hdrain, (hdDataWord_fields sym).1, List.take_succ_cons,
          List.drop_succ_cons]
        rfl

theorem drain_hdQ {s s₀ : State} {more : Nat → Bool} (h : s.Inv) (hp : s.params = s₀.params) (hstop : more 0 = false) :
    ∃ k words, drainSyms more (s₀.params.sqCap + 1) s = (s.hdQ.take k, { s with hdQ := s.hdQ.drop k, reads := words }) ∧
      more (s.hdQ.length - k) = false := by
  obtain ⟨-, -, -, -, -, -, -, hcap⟩ := legal_bounds h.params_legal
  have hfits := h.hdQ_fits
  rw [← hp]
  exact drainSyms_eq hstop _ s (by omega) (by omega)

end Sys2Proof.Machine
end

section
/-! PROOFS. The stages of a reference run (48_host_reference.md R197, R199): each gives out what the source's function gives
for its input, raises no error, and changes its own unit's stream state only. -/

namespace Sys2Proof.Machine

/-! ## Stage 3: HE -/

/-- HE.SYM of a symbol whose code fits (R112). -/
theorem performLines_heSym_appends {sym : Sym} {s : State} {e : CtEntry} (hl : lookup s.ct sym = some e)
    (hfit : s.heQ.length + e.len.toNat ≤ s.params.qCap) : performLines [.heSym sym.toNat] s =
      { s with heQ := s.heQ ++ e.bits, heCount := s.heCount + BitVec.ofNat 32 e.len.toNat } := by
  rw [performLines_heSym, perform_command (c := .heSym sym) (execHeSym_appends hl hfit)]

/-- An entry that lookup answers has a code of at most 32 bits (R30, R46). -/
theorem len_of_lookup {s : State} (h : s.Inv) {sym : Sym} {e : CtEntry} (hl : lookup s.ct sym = some e) :
    e.len.toNat ≤ 32 := by
  obtain ⟨⟨hv, -⟩, as, bs, hct, -⟩ := (lookup_eq_some _ _ _).1 hl
  obtain ⟨-, hmax, -⟩ := h.ct_codes e (by rw [hct]; simp) hv
  obtain ⟨-, -, -, hlMax, -⟩ := legal_bounds h.params_legal
  exact hmax.trans hlMax

/-- The block outside HE's stream state, the words returned apart. -/
def beyondHe (s : State) : State := { s with heQ := [], heCount := 0, reads := [] }

/-- The end of the stage takes the whole queue (R199). -/
theorem drainAll_heQ {s : State} (h : s.Inv) : ∃ t,
    drainBits .heLevel .heData nonEmpty (bitFuel s) s = (s.heQ, t) ∧ t.Inv ∧ beyondHe t = beyondHe s := by
  obtain ⟨k, words, hdrain, hend⟩ := drain_heQ (more := nonEmpty) h rfl rfl
  obtain ⟨htake, hdrop⟩ := taken_all hend
  rw [htake, hdrop] at hdrain
  exact ⟨_, hdrain, { h with heQ_fits := Nat.zero_le _ }, rfl⟩

/-- With the source's codes in the table, the stage gives out the source's encoding (R197, R199). -/
theorem heStage_eq {codes : List (Sym × Bits)} {syms : List Sym} {s : State} {bits : Bits} (h : s.Inv)
    (htable : ∀ sym ∈ syms, (lookup s.ct sym).map CtEntry.bits = codeOf codes sym)
    (henc : sourceEncode codes syms = some bits) :
    ∃ t, heStage codes syms s = (s.heQ ++ bits, t) ∧ t.Inv ∧ beyondHe t = beyondHe s := by
  induction syms generalizing s bits with
  | nil =>
    obtain rfl : [] = bits := Option.some.inj henc
    obtain ⟨t, hdrain, hend⟩ := drainAll_heQ h
    exact ⟨t, by rw [heStage, hdrain, List.append_nil], hend⟩
  | cons sym syms ih =>
    obtain ⟨hsym, htable'⟩ := List.forall_mem_cons.1 htable
    simp only [sourceEncode, Option.bind_eq_bind, Option.bind_eq_some_iff, Option.pure_def, Option.some.injEq] at henc
    obtain ⟨code, hcode, bits, henc, rfl⟩ := henc
    obtain ⟨e, hl, rfl⟩ := Option.map_eq_some_iff.1 (hsym.trans hcode)
    have hlen := len_of_lookup h hl
    obtain ⟨-, -, -, -, hcap, -⟩ := legal_bounds h.params_legal
    obtain ⟨k, words, hdrain, hroom⟩ := drain_heQ (more := fun lv => decide (s.params.qCap < lv + e.bits.length)) h rfl
      (by simp only [CtEntry.bits_length, decide_eq_false_iff_not]; omega)
    have hpush := performLines_heSym_appends (s := { s with heQ := s.heQ.drop k, reads := words }) hl
      (by simpa using hroom)
    have hinv := (performLines_keeps (s := { s with heQ := s.heQ.drop k, reads := words })
      { h with heQ_fits := (List.drop_sublist k _).length_le.trans h.heQ_fits } [.heSym sym.toNat]).1
    rw [hpush] at hinv
    obtain ⟨t, hrest, hinv', hframe⟩ := ih hinv htable' henc
    refine ⟨t, ?_, hinv', hframe⟩
    simp only [heStage, hcode, Option.getD_some, hdrain, hpush, hrest]
    simp [← List.append_assoc]

/-! ## A stream in chunks -/

theorem chunks_spec (fuel : Nat) (bits : Bits) (hfuel : bits.length ≤ fuel) :
    (chunks fuel bits).flatten = bits ∧ ∀ c ∈ chunks fuel bits, 1 ≤ c.length ∧ c.length ≤ 32 := by
  induction fuel generalizing bits with
  | zero =>
    obtain rfl := List.length_eq_zero_iff.1 (Nat.le_zero.1 hfuel)
    exact ⟨rfl, nofun⟩
  | succ fuel ih =>
    rw [chunks]
    split
    · next hempty => exact ⟨hempty.symm, nofun⟩
    · next hne =>
      have hpos := List.length_pos_of_ne_nil hne
      obtain ⟨hflat, hsizes⟩ := ih (bits.drop 32) (by rw [List.length_drop]; omega)
      refine ⟨by rw [List.flatten_cons, hflat, List.take_append_drop], List.forall_mem_cons.2 ⟨?_, hsizes⟩⟩
      rw [List.length_take]
      omega

theorem chunksOf_flatten (bits : Bits) : (chunksOf bits).flatten = bits := (chunks_spec _ bits (le_refl _)).1

theorem chunksOf_lengths (bits : Bits) : ∀ c ∈ chunksOf bits, 1 ≤ c.length ∧ c.length ≤ 32 :=
  (chunks_spec _ bits (le_refl _)).2

/-! ## Stage 4: CE -/

theorem readReg_ceState (s : State) : readReg .ceState s = (ceStateWord s, respond (ceStateWord s) s) :=
  readReg_of_respond rfl

/-- CE_STATE shows the length of the group and the pad count (R156). -/
theorem ceStateWord_reads {s : State} (hshort : s.ceG.length ≤ 3) :
    ((ceStateWord s).extractLsb' 4 3).toNat = s.ceG.length ∧ (ceStateWord s).extractLsb' 0 2 = s.cePad := by
  obtain ⟨hpad, -, hlen, -⟩ := ceStateWord_fields s
  exact ⟨toNat_of_length_field hlen (by omega), hpad⟩

/-- A push for whose blocks there is room feeds its bits (R151). -/
theorem performLines_cePush_feeds {bits : Bits} {s : State} (hlen : 1 ≤ bits.length ∧ bits.length ≤ 32)
    (hshort : s.ceG.length ≤ 3) (hfit : s.ceQ.length + 7 * ((s.ceG.length + bits.length) / 4) ≤ s.params.qCap) :
    performLines [.cePush bits] s = ceFed bits { s with arg0 := pack bits } := by
  have hn : (BitVec.ofNat 6 bits.length).toNat = bits.length := Nat.mod_eq_of_lt (by omega)
  rw [performLines_push (c := .ceBits) rfl, if_pos hlen, perform_command (c := .ceBits _)
    (execCeBits_feeds (s := { s with arg0 := pack bits }) (by omega) (by omega) hshort (by rwa [ceBound, hn])),
    argBits_pack hlen.2]

/-- Bits drained on the way are bits given out (R157). -/
theorem CeAgrees.drained {bits : Bits} {s : State} {k : Nat} {words : List Word} {out : Bits × State}
    (h : CeAgrees bits { s with ceQ := s.ceQ.drop k, reads := words } out) :
    CeAgrees bits s (s.ceQ.take k ++ out.1, out.2) := by
  obtain ⟨hout, hgroup⟩ := h
  refine ⟨?_, hgroup⟩
  rw [List.append_assoc, hout, ceFed, ← List.append_assoc, List.take_append_drop]
  rfl

/-- One turn of the feed: some bits are drained, then there is room for the chunk's blocks (R199). -/
theorem ceFeed_cons {c : Bits} (cs : List Bits) {s : State} (h : s.Inv) (hc : 1 ≤ c.length ∧ c.length ≤ 32) :
    ∃ k words t, t = ceFed c { s with arg0 := pack c, ceQ := s.ceQ.drop k, reads := words } ∧ t.Inv ∧
      ceFeed (c :: cs) s = (s.ceQ.take k ++ (ceFeed cs t).1, (ceFeed cs t).2) := by
  have hshort := h.ceG_short
  obtain ⟨-, -, -, -, hcap, -⟩ := legal_bounds h.params_legal
  obtain ⟨k, words, hdrain, hroom⟩ := drain_ceQ (s := respond (ceStateWord s) s) (s₀ := s)
    (more := fun lv => decide (s.params.qCap < lv + 7 * ((s.ceG.length + c.length) / 4))) { h with } rfl
    (by simp only [decide_eq_false_iff_not]; omega)
  have hpush := performLines_cePush_feeds (s := { s with ceQ := s.ceQ.drop k, reads := words }) hc hshort
    (by rw [List.length_drop]; exact not_lt.1 (of_decide_eq_false hroom))
  have hinv := (performLines_keeps (s := { s with ceQ := s.ceQ.drop k, reads := words })
    { h with ceQ_fits := (List.drop_sublist k _).length_le.trans h.ceQ_fits } [.cePush c]).1
  refine ⟨k, words, _, rfl, hpush ▸ hinv, ?_⟩
  rw [← hpush]
  simp only [ceFeed, readReg_ceState, (ceStateWord_reads hshort).1, hdrain]
  rfl

/-- The block outside CE's stream state, the operand register and the words returned apart. -/
def beyondCe (s : State) : State := { s with arg0 := 0, ceQ := [], ceG := [], cePad := 0, reads := [] }

theorem params_of_beyondCe {s t : State} (h : beyondCe t = beyondCe s) : t.params = s.params := by
  simpa [beyondCe] using congrArg State.params h

/-- The feed gives out and leaves in CE what feeding the whole stream at once gives (R157, R199). -/
theorem ceFeed_agrees {cs : List Bits} {s : State} (h : s.Inv) (hcs : ∀ c ∈ cs, 1 ≤ c.length ∧ c.length ≤ 32) :
    ∃ out t, ceFeed cs s = (out, t) ∧ CeAgrees cs.flatten s (out, t) ∧ t.Inv ∧ beyondCe t = beyondCe s := by
  induction cs generalizing s with
  | nil => exact ⟨[], s, rfl, ceAgrees_nil h.ceG_short, h, rfl⟩
  | cons c cs ih =>
    obtain ⟨hc, hcs'⟩ := List.forall_mem_cons.1 hcs
    obtain ⟨k, words, t, rfl, hinv, hstep⟩ := ceFeed_cons cs h hc
    obtain ⟨out, t, hrest, hagrees, hinv', hframe⟩ := ih hinv hcs'
    rw [hrest] at hstep
    exact ⟨_, t, hstep, CeAgrees.drained (words := words) hagrees.push, hinv', hframe⟩

/-- CE.END with room for a block: the source's code of the group is queued, and its pad count set (R152). -/
theorem execCeEnd_eq {s : State} (hshort : s.ceG.length ≤ 3) (hfit : s.ceQ.length + 7 ≤ s.params.qCap) :
    execCeEnd s = .next { s with
      ceQ := s.ceQ ++ hammingEncode s.ceG, cePad := BitVec.ofNat 2 (padCount s.ceG), ceG := [] } := by
  by_cases hempty : s.ceG = []
  · have hcode : hammingEncode [] = [] := rfl
    have hpad : BitVec.ofNat 2 (padCount []) = 0#2 := rfl
    rw [execCeEnd_empty hempty, hempty, hcode, hpad, List.append_nil, ← hempty]
    rfl
  · have hpos : 0 < s.ceG.length := List.length_pos_of_ne_nil hempty
    have hpad : padCount s.ceG = 4 - s.ceG.length := by
      rw [padCount]
      omega
    rw [execCeEnd_pads hempty hshort hfit, hammingEncode, hpad]

/-- The end of the feed, and of the stage, takes the whole queue (R199). -/
theorem drainAll_ceQ {s s₀ : State} (h : s.Inv) (hp : s.params = s₀.params) : ∃ t,
    drainBits .ceLevel .ceData nonEmpty (bitFuel s₀) s = (s.ceQ, t) ∧ t.Inv ∧ t.ceQ = [] ∧ t.ceG = s.ceG ∧
      beyondCe t = beyondCe s := by
  obtain ⟨k, words, hdrain, hend⟩ := drain_ceQ (more := nonEmpty) h hp rfl
  obtain ⟨htake, hdrop⟩ := taken_all hend
  rw [htake, hdrop] at hdrain
  exact ⟨_, hdrain, { h with ceQ_fits := Nat.zero_le _ }, rfl, rfl, rfl⟩

/-- CE.END, the read of the pad count and the drain after it give out the code of the group (R197). -/
theorem ceEnd_gives {s s₀ : State} (h : s.Inv) (hp : s.params = s₀.params) (hq : s.ceQ = []) : ∃ st t,
    readReg .ceState (performLines [.ceEnd] s) = st ∧ st.1.extractLsb' 0 2 = BitVec.ofNat 2 (padCount s.ceG) ∧
      drainBits .ceLevel .ceData nonEmpty (bitFuel s₀) st.2 = (hammingEncode s.ceG, t) ∧ t.Inv ∧
      beyondCe t = beyondCe s := by
  obtain ⟨-, -, -, -, hcap, -⟩ := legal_bounds h.params_legal
  have hend := execCeEnd_eq h.ceG_short (by rw [hq, List.length_nil]; omega)
  rw [hq, List.nil_append] at hend
  have hrun := (runs_command (l := .ceEnd) (c := .ceEnd) rfl hend).performLines_eq
  have hinv := (performLines_keeps h [.ceEnd]).1
  rw [hrun] at hinv ⊢
  rw [readReg_ceState]
  obtain ⟨t, hdrain, hinv', -, -, hframe⟩ := drainAll_ceQ (s₀ := s₀) (s := respond (ceStateWord { s with
    ceQ := hammingEncode s.ceG, cePad := BitVec.ofNat 2 (padCount s.ceG), ceG := [] }) { s with
    ceQ := hammingEncode s.ceG, cePad := BitVec.ofNat 2 (padCount s.ceG), ceG := [] }) { hinv with } hp
  exact ⟨_, t, rfl, (ceStateWord_reads (Nat.zero_le _)).2, hdrain, hinv', hframe⟩

/-- From a cleared CE, the stage gives out the source's Hamming encoding and its pad count (R197, R199). -/
theorem ceStage_eq {s : State} (bits : Bits) (h : s.Inv) (hq : s.ceQ = []) (hg : s.ceG = []) :
    ∃ t, ceStage bits s = (hammingEncode bits, (BitVec.ofNat 2 (padCount bits)).toNat, t) ∧ t.Inv ∧
      beyondCe t = beyondCe s := by
  obtain ⟨out, t, hfeed, ⟨hout, hgroup⟩, hinv, hframe⟩ := ceFeed_agrees h (chunksOf_lengths bits)
  simp only [chunksOf_flatten, ceFed, hq, hg, List.nil_append] at hout hgroup
  obtain ⟨u, hdrain, hinvu, hqu, hgu, hframeu⟩ := drainAll_ceQ (s₀ := s) hinv (params_of_beyondCe hframe)
  obtain ⟨st, v, hread, hpad, hlast, hinvv, hframev⟩ :=
    ceEnd_gives (s₀ := s) hinvu (params_of_beyondCe (hframeu.trans hframe)) hqu
  rw [hgu, hgroup] at hpad hlast
  rw [padCount_ungrouped] at hpad
  refine ⟨v, ?_, hinvv, hframev.trans (hframeu.trans hframe)⟩
  simp only [ceStage, hfeed, hdrain, hread, hpad, hlast, hout, ← hammingEncode_eq]

/-! ## Stage 6: CD -/

theorem readReg_cdState (s : State) : readReg .cdState s = (cdStateWord s, respond (cdStateWord s) s) :=
  readReg_of_respond rfl

/-- CD_STATE shows the length of the partial block (R176). -/
theorem cdStateWord_length {s : State} (hshort : s.cdB.length ≤ 6) :
    ((cdStateWord s).extractLsb' 4 3).toNat = s.cdB.length := by
  obtain ⟨-, -, hlen, -⟩ := cdStateWord_fields s
  exact toNat_of_length_field hlen (by omega)

/-- A push for whose blocks there is room feeds its bits (R171). -/
theorem performLines_cdPush_feeds {bits : Bits} {s : State} (hlen : 1 ≤ bits.length ∧ bits.length ≤ 32)
    (hshort : s.cdB.length ≤ 6) (hfit : s.cdQ.length + 4 * ((s.cdB.length + bits.length) / 7) ≤ s.params.qCap) :
    performLines [.cdPush bits] s = cdFed bits { s with arg0 := pack bits } := by
  have hn : (BitVec.ofNat 6 bits.length).toNat = bits.length := Nat.mod_eq_of_lt (by omega)
  rw [performLines_push (c := .cdBits) rfl, if_pos hlen, perform_command (c := .cdBits _)
    (execCdBits_feeds (s := { s with arg0 := pack bits }) (by omega) (by omega) hshort (by rwa [cdBound, hn])),
    argBits_pack hlen.2]

/-- Bits drained on the way are bits given out (R178). -/
theorem CdAgrees.drained {bits : Bits} {s : State} {k : Nat} {words : List Word} {out : Bits × State}
    (h : CdAgrees bits { s with cdQ := s.cdQ.drop k, reads := words } out) :
    CdAgrees bits s (s.cdQ.take k ++ out.1, out.2) := by
  obtain ⟨hout, hrest⟩ := h
  refine ⟨?_, hrest⟩
  rw [List.append_assoc, hout, cdFed, cdDecoded, ← List.append_assoc, List.take_append_drop]
  rfl

/-- The block outside CD's stream state, the operand register and the words returned apart. -/
def beyondCd (s : State) : State :=
  { s with arg0 := 0, cdQ := [], cdB := [], cdHold := none, cdSyn := 0, cdNcorr := 0, reads := [] }

theorem params_of_beyondCd {s t : State} (h : beyondCd t = beyondCd s) : t.params = s.params := by
  simpa [beyondCd] using congrArg State.params h

/-- One turn of the feed: some bits are drained, then there is room for the chunk's blocks (R199). -/
theorem cdFeed_cons {c : Bits} (cs : List Bits) {s : State} (h : s.Inv) (hc : 1 ≤ c.length ∧ c.length ≤ 32) :
    ∃ k words t, t = cdFed c { s with arg0 := pack c, cdQ := s.cdQ.drop k, reads := words } ∧ t.Inv ∧
      cdFeed (c :: cs) s = (s.cdQ.take k ++ (cdFeed cs t).1, (cdFeed cs t).2) := by
  have hshort := h.cdB_short
  obtain ⟨-, -, -, -, hcap, -⟩ := legal_bounds h.params_legal
  obtain ⟨k, words, hdrain, hroom⟩ := drain_cdQ (s := respond (cdStateWord s) s) (s₀ := s)
    (more := fun lv => decide (s.params.qCap < lv + 4 * ((s.cdB.length + c.length) / 7))) { h with } rfl
    (by simp only [decide_eq_false_iff_not]; omega)
  have hpush := performLines_cdPush_feeds (s := { s with cdQ := s.cdQ.drop k, reads := words }) hc hshort
    (by rw [List.length_drop]; exact not_lt.1 (of_decide_eq_false hroom))
  have hinv := (performLines_keeps (s := { s with cdQ := s.cdQ.drop k, reads := words })
    { h with cdQ_fits := (List.drop_sublist k _).length_le.trans h.cdQ_fits } [.cdPush c]).1
  refine ⟨k, words, _, rfl, hpush ▸ hinv, ?_⟩
  rw [← hpush]
  simp only [cdFeed, readReg_cdState, cdStateWord_length hshort, hdrain]
  rfl

/-- The feed gives out and leaves in CD what feeding the whole stream at once gives (R178, R199). -/
theorem cdFeed_agrees {cs : List Bits} {s : State} (h : s.Inv) (hcs : ∀ c ∈ cs, 1 ≤ c.length ∧ c.length ≤ 32) :
    ∃ out t, cdFeed cs s = (out, t) ∧ CdAgrees cs.flatten s (out, t) ∧ t.Inv ∧ beyondCd t = beyondCd s := by
  induction cs generalizing s with
  | nil => exact ⟨[], s, rfl, cdAgrees_nil h.cdB_short, h, rfl⟩
  | cons c cs ih =>
    obtain ⟨hc, hcs'⟩ := List.forall_mem_cons.1 hcs
    obtain ⟨k, words, t, rfl, hinv, hstep⟩ := cdFeed_cons cs h hc
    obtain ⟨out, t, hrest, hagrees, hinv', hframe⟩ := ih hinv hcs'
    rw [hrest] at hstep
    have hshort : ({ s with cdQ := s.cdQ.drop k, reads := words } : State).cdB.length ≤ 6 := h.cdB_short
    exact ⟨_, t, hstep, CdAgrees.drained (words := words) (CdAgrees.push hshort hagrees), hinv', hframe⟩

/-- CD.END with no partial block and room for a nibble: the held bits without the last pad of them are queued (R172). -/
theorem execCdEnd_eq {pad : BitVec 2} {s : State} (hb : s.cdB = []) (hfit : s.cdQ.length + 4 ≤ s.params.qCap) :
    execCdEnd pad s = .next { s with cdQ := s.cdQ ++ (holdBits s.cdHold).rdrop pad.toNat, cdHold := none } := by
  cases hhold : s.cdHold with
  | none =>
    rw [execCdEnd_noHold hb hhold, holdBits, List.rdrop_nil, List.append_nil, ← hhold]
  | some d => rw [execCdEnd_releases hb hhold (by omega)]; rfl

theorem performLines_cdEnd {pad : BitVec 2} {s t : State} (h : execCdEnd pad s = .next t) :
    performLines [.cdEnd pad.toNat] s = t :=
  (runs_command (l := .cdEnd pad.toNat) (c := .cdEnd pad)
    (by simp [assemble, operand_of_lt pad.isLt]) h).performLines_eq

/-- The end of the feed, and of the stage, takes the whole queue (R199). -/
theorem drainAll_cdQ {s s₀ : State} (h : s.Inv) (hp : s.params = s₀.params) : ∃ t,
    drainBits .cdLevel .cdData nonEmpty (bitFuel s₀) s = (s.cdQ, t) ∧ t.Inv ∧ t.cdQ = [] ∧ t.cdB = s.cdB ∧
      t.cdHold = s.cdHold ∧ beyondCd t = beyondCd s := by
  obtain ⟨k, words, hdrain, hend⟩ := drain_cdQ (more := nonEmpty) h hp rfl
  obtain ⟨htake, hdrop⟩ := taken_all hend
  rw [htake, hdrop] at hdrain
  exact ⟨_, hdrain, { h with cdQ_fits := Nat.zero_le _ }, rfl, rfl, rfl, rfl⟩

/-- CD.END and the drain after it give out the hold without the pad (R197). -/
theorem cdEnd_gives {s s₀ : State} (pad : BitVec 2) (h : s.Inv) (hp : s.params = s₀.params) (hq : s.cdQ = [])
    (hb : s.cdB = []) : ∃ t,
    drainBits .cdLevel .cdData nonEmpty (bitFuel s₀) (performLines [.cdEnd pad.toNat] s) =
      ((holdBits s.cdHold).rdrop pad.toNat, t) ∧ t.Inv ∧ beyondCd t = beyondCd s := by
  obtain ⟨-, -, -, -, hcap, -⟩ := legal_bounds h.params_legal
  have hend := performLines_cdEnd (execCdEnd_eq (pad := pad) hb (by rw [hq, List.length_nil]; omega))
  rw [hq, List.nil_append] at hend
  have hinv := (performLines_keeps h [.cdEnd pad.toNat]).1
  rw [hend] at hinv ⊢
  obtain ⟨t, hdrain, hinv', -, -, -, hframe⟩ := drainAll_cdQ (s₀ := s₀) hinv hp
  exact ⟨t, hdrain, hinv', hframe⟩

/-- From a cleared CD, the stage gives out the source's decode of a stream of whole blocks (R197, R199). -/
theorem cdStage_eq {s : State} {coded out : Bits} {pad : BitVec 2} (h : s.Inv) (hq : s.cdQ = []) (hb : s.cdB = [])
    (hhold : s.cdHold = none) (hwhole : coded.length % 7 = 0) (hdec : hammingDecode coded pad.toNat = some out) :
    ∃ t, cdStage coded pad.toNat s = (out, t) ∧ t.Inv ∧ beyondCd t = beyondCd s := by
  obtain ⟨fed, t, hfeed, ⟨hout, hheld, hpartial⟩, hinv, hframe⟩ := cdFeed_agrees h (chunksOf_lengths coded)
  simp only [chunksOf_flatten, cdFed, cdDecoded, hq, hb, hhold, List.nil_append] at hout hheld hpartial
  have hnone : t.cdB = [] := by
    rw [hpartial]
    exact List.length_eq_zero_iff.1 ((unblocked_length coded).trans hwhole)
  obtain ⟨u, hdrain, hinvu, hqu, hbu, hholdu, hframeu⟩ := drainAll_cdQ (s₀ := s) hinv (params_of_beyondCd hframe)
  obtain ⟨v, hlast, hinvv, hframev⟩ := cdEnd_gives (s₀ := s) pad hinvu (params_of_beyondCd (hframeu.trans hframe)) hqu
    (hbu.trans hnone)
  rw [hammingDecode_eq hwhole, ← hout, ← hheld, ← hholdu] at hdec
  refine ⟨v, ?_, hinvv, hframev.trans (hframeu.trans hframe)⟩
  simp only [cdStage, hfeed, hdrain, hlast, Option.some.inj hdec]

end Sys2Proof.Machine
end

section
/-! PROOFS. The last stage of a reference run, and the run itself (48_host_reference.md R197, R200, R204): from a clean run
start each stage gives the next one the source's stream, so the run ends with both flags true. -/

namespace Sys2Proof.Machine

/-! ## Stage 7: HD -/

/-- A push for whose symbols there is room walks its bits (R132). -/
theorem performLines_hdPush_walks {bits : Bits} {s : State} (hlen : 1 ≤ bits.length ∧ bits.length ≤ 32)
    (hfit : s.hdQ.length + bits.length ≤ s.params.sqCap) :
    performLines [.hdPush bits] s = walkBits (BitVec.ofNat 6 bits.length) bits { s with arg0 := pack bits } := by
  have hn : (BitVec.ofNat 6 bits.length).toNat = bits.length := Nat.mod_eq_of_lt (by omega)
  rw [performLines_hdPush, if_pos hlen, perform_command (c := .hdBits _)
    (execHdBits_walks (s := { s with arg0 := pack bits }) (by omega) (by omega) (by rwa [hn])), argBits_pack hlen.2]

section Feed

variable {tree : CodeTree} {s : State} {bits : Bits} {out : List Sym} {mid : Bool}

/-- Symbols drained on the way are the first the host is to be given (R137). -/
theorem HdYields.drained (k : Nat) (words : List Word) (h : HdYields tree s bits out mid) :
    ∃ out', out = s.hdQ.take k ++ out' ∧
      HdYields tree { s with hdQ := s.hdQ.drop k, reads := words } bits out' mid := by
  obtain ⟨hstatus, hroot, node, syms, hcur, hdec, rfl⟩ := h
  exact ⟨s.hdQ.drop k ++ syms, by rw [← List.append_assoc, List.take_append_drop], hstatus,
    treeAt_of_node_eq hroot rfl, node, syms, treeAt_of_node_eq hcur rfl, hdec, rfl⟩

/-- One turn of the feed: some symbols are drained, then there is room for one a bit (R199). -/
theorem hdFeed_cons {c : Bits} (cs : List Bits) (h : s.Inv) (hc : 1 ≤ c.length ∧ c.length ≤ 32) :
    ∃ k words t, t = walkBits (BitVec.ofNat 6 c.length) c { s with
        arg0 := pack c, hdQ := s.hdQ.drop k, reads := words } ∧ t.Inv ∧ t.params = s.params ∧
      hdFeed (c :: cs) s = (s.hdQ.take k ++ (hdFeed cs t).1, (hdFeed cs t).2) := by
  obtain ⟨-, -, -, -, -, -, hcap, -⟩ := legal_bounds h.params_legal
  obtain ⟨k, words, hdrain, hroom⟩ := drain_hdQ (more := fun lv => decide (s.params.sqCap < lv + c.length)) h rfl
    (by simp only [decide_eq_false_iff_not]; omega)
  have hpush := performLines_hdPush_walks (s := { s with hdQ := s.hdQ.drop k, reads := words }) hc
    (by rw [List.length_drop]; exact not_lt.1 (of_decide_eq_false hroom))
  obtain ⟨hinv, hparams⟩ := performLines_keeps (s := { s with hdQ := s.hdQ.drop k, reads := words })
    { h with hdQ_fits := (List.drop_sublist k _).length_le.trans h.hdQ_fits } [.hdPush c]
  refine ⟨k, words, _, rfl, hpush ▸ hinv, hpush ▸ hparams, ?_⟩
  rw [← hpush]
  simp only [hdFeed, hdrain]

/-- The feed gives out and leaves queued what the stream decodes to (R135, R199). -/
theorem hdFeed_yields {cs : List Bits} (h : s.Inv) (hcs : ∀ c ∈ cs, 1 ≤ c.length ∧ c.length ≤ 32)
    (hy : HdYields tree s cs.flatten out mid) :
    ∃ given out' t, hdFeed cs s = (given, t) ∧ out = given ++ out' ∧ HdYields tree t [] out' mid ∧ t.Inv ∧
      t.params = s.params := by
  induction cs generalizing s out with
  | nil => exact ⟨[], out, s, rfl, rfl, hy, h, rfl⟩
  | cons c cs ih =>
    obtain ⟨hc, hcs'⟩ := List.forall_mem_cons.1 hcs
    obtain ⟨k, words, t, rfl, hinv, hparams, hstep⟩ := hdFeed_cons cs h hc
    obtain ⟨out, rfl, hy'⟩ := hy.drained k words
    obtain ⟨given, out', t, hrest, rfl, hend, hinv', hparams'⟩ :=
      ih hinv hcs' ((hy'.after_wrArg0 (pack c)).after_walkBits (BitVec.ofNat 6 c.length))
    rw [hrest] at hstep
    exact ⟨_, out', t, hstep, (List.append_assoc ..).symm, hend, hinv', hparams'.trans hparams⟩

/-- For a stream that ends at the root, the stage gives out the source's decode and raises nothing, not even TRUNC (R134,
R197). -/
theorem hdStage_eq (h : s.Inv) (hy : HdYields tree s bits out false) :
    ∃ t, hdStage bits s = (out, t) ∧ t.status = 0 := by
  rw [← chunksOf_flatten bits] at hy
  obtain ⟨given, rest, t, hfeed, rfl, hend, hinv, hparams⟩ := hdFeed_yields h (chunksOf_lengths bits) hy
  obtain ⟨rfl, hmid⟩ := hend.at_end
  have hrewind : execHdEnd t = .next (rewind t) := by
    rw [execHdEnd, hmid]
    rfl
  have hrun := (runs_command (l := .hdEnd) (c := .hdEnd) rfl hrewind).performLines_eq
  obtain ⟨k, words, hdrain, hlast⟩ := drain_hdQ (s := rewind t) (s₀ := s) (more := nonEmpty) (inv_rewind hinv) hparams rfl
  obtain ⟨htake, hdrop⟩ := taken_all hlast
  rw [htake, hdrop] at hdrain
  exact ⟨{ rewind t with hdQ := [], reads := words }, by simp only [hdStage, hfeed, hrun, hdrain]; rfl, hend.status_clear⟩

end Feed

/-! ## The tables of a clean run start -/

/-- A table that holds an image answers the image's codes (R113, R253). -/
theorem lookup_of_holdsCodes {ct : List CtEntry} {image : List (Sym × Bits)} (h : holdsCodes ct image = true)
    (sym : Sym) : (lookup ct sym).map CtEntry.bits = codeOf image sym := by
  induction image generalizing ct with
  | nil =>
    have hnone : lookup ct sym = none := (lookup_eq_none ct sym).2 fun e he => by
      have := List.all_eq_true.1 (by simpa only [holdsCodes] using h) e he
      simp_all
    rw [hnone]
    rfl
  | cons c image ih =>
    cases ct with
    | nil => cases h
    | cons e ct =>
      simp only [holdsCodes, Bool.and_eq_true, beq_iff_eq] at h
      obtain ⟨⟨⟨hv, hsym⟩, hbits⟩, hrest⟩ := h
      by_cases hc : c.1 = sym
      · simp [lookup, codeOf, hv, hsym, hc, hbits]
      · have := ih hrest
        simpa [lookup, codeOf, hv, hsym, hc] using this

/-- A source's image has the source's code of each of its symbols (R195). -/
theorem codeOf_ctImage {T : List Sym} {sym : Sym} (h : sym ∈ T) :
    codeOf (ctImage T) sym = codeOf (deriveCodes (treeOf T)) sym := by
  obtain ⟨c, hc, -⟩ := exists_code h
  have hfind : (distinct T).find? (fun s => s == sym) = some sym := by
    obtain ⟨found, hfound⟩ := Option.isSome_iff_exists.1
      (List.find?_isSome.2 ⟨sym, (mem_distinct sym T).2 h, beq_self_eq_true sym⟩ :
        ((distinct T).find? fun s => s == sym).isSome)
    obtain rfl : found = sym := by simpa using List.find?_some hfound
    exact hfound
  rw [codeOf, ctImage, List.find?_map]
  simp only [Function.comp_def, hfind, Option.map_some, hc, Option.getD_some]

/-- What a child's descriptor says when it agrees with a tree loaded at an index (R196). -/
theorem of_holdsChild {present : Bool} {idx : NodeIdx} {t : CodeTree} {i : Nat}
    (h : holdsChild present idx t i = true) :
    (present = true ↔ t ≠ .absent) ∧ (t ≠ .absent → idx = BitVec.ofNat 11 i) := by
  cases t with
  | absent =>
    have hno : present = false := by simpa [holdsChild, childIndex] using h
    simp [hno]
  | leaf | internal =>
    obtain ⟨hp, hidx⟩ : present = true ∧ idx.toNat = i := by simpa [holdsChild, childIndex] using h
    exact ⟨by simp [hp], fun _ => by rw [← hidx, BitVec.ofNat_toNat, BitVec.setWidth_eq]⟩

theorem treeAt_child {s : State} {t : CodeTree} {idx : NodeIdx} {i : Nat} (hidx : t ≠ .absent → idx = BitVec.ofNat 11 i)
    (h : treeAt s t (BitVec.ofNat 11 i)) : treeAt s t idx := by
  by_cases ht : t = .absent
  · subst ht
    trivial
  · rwa [hidx ht]

/-- A tree loaded in preorder stands at its root's index (R135, R196). -/
theorem treeAt_of_holdsTree {s : State} {t : CodeTree} {base : Nat} (h : holdsTree s t base = true) :
    treeAt s t (BitVec.ofNat 11 base) := by
  induction t generalizing base with
  | absent => trivial
  | leaf sym w => simpa [holdsTree, treeAt] using h
  | internal w l r ihl ihr =>
    simp only [holdsTree, Bool.and_eq_true, decide_eq_true_eq] at h
    obtain ⟨⟨⟨⟨hkind, hleft⟩, hright⟩, hl⟩, hr⟩ := h
    obtain ⟨hlv, hlidx⟩ := of_holdsChild hleft
    obtain ⟨hrv, hridx⟩ := of_holdsChild hright
    exact ⟨hkind, hlv, hrv, treeAt_child hlidx (ihl hl), treeAt_child hridx (ihr hr)⟩

/-! ## The run -/

/-- With nothing in STATUS the check passes (R201). -/
theorem checkStatus_clear {s : State} (h : s.status = 0) : checkStatus s = .ok (respond (statusWord s) s) := by
  have hread : readReg .status s = (statusWord s, respond (statusWord s) s) := readReg_of_respond rfl
  have hbit : (statusWord s).getLsbD 31 = false := by
    rw [statusWord, h]
    decide
  simp only [checkStatus, hread, hbit, Bool.false_eq_true, if_false]

/-- What a run's stages rely on in the block they start from: the invariant, the source's tables, and nothing in STATUS or
in a stream (R253). -/
structure RunReady (T : List Sym) (s : State) : Prop where
  inv : s.Inv
  status : s.status = 0
  codes : ∀ sym ∈ T, (lookup s.ct sym).map CtEntry.bits = codeOf (deriveCodes (treeOf T)) sym
  tree : treeAt s (treeOf T) s.root
  heQ : s.heQ = []
  ceQ : s.ceQ = []
  ceG : s.ceG = []
  cdQ : s.cdQ = []
  cdB : s.cdB = []
  cdHold : s.cdHold = none
  hdQ : s.hdQ = []
  cur : s.cur = s.root
  mid : s.mid = false

/-- A clean run start is ready for the run (R197, R253). -/
theorem runReady_of_clean {T : List Sym} {s : State} (h : s.Inv) (hclean : cleanRunStart T s = true) : RunReady T s := by
  simp only [cleanRunStart, cleanStreams, Bool.and_eq_true, decide_eq_true_eq, Bool.not_eq_true'] at hclean
  obtain ⟨⟨⟨⟨hstatus, hcodes⟩, htree⟩, hroot⟩, hstreams⟩ := hclean
  obtain ⟨⟨⟨⟨⟨⟨⟨⟨⟨⟨⟨⟨hheQ, hhdQ⟩, hceQ⟩, hcdQ⟩, -⟩, -⟩, hceG⟩, -⟩, hcdB⟩, hcdHold⟩, -⟩, hcur⟩, hmid⟩ := hstreams
  exact {
    inv := h, status := hstatus, heQ := hheQ, ceQ := hceQ, ceG := hceG, cdQ := hcdQ, cdB := hcdB, cdHold := hcdHold,
    hdQ := hhdQ, cur := hcur, mid := hmid
    codes := fun sym hsym => (lookup_of_holdsCodes hcodes sym).trans (codeOf_ctImage hsym)
    tree := hroot ▸ treeAt_of_holdsTree htree }

/-- The stages of a run, each from the state its STATUS check leaves: HE's stream comes back from CD, the source from HD, and
STATUS stays clear (R197, R204). -/
theorem stages_recover {T : List Sym} {inject : Bits → Bits} {s : State} (h : RunReady T s)
    (hinject : ∀ bits, oneFlipPerBlock bits (inject bits)) :
    ∃ bits t₁ t₂ t₃ t₄, heStage (deriveCodes (treeOf T)) T (respond (statusWord s) s) = (bits, t₁) ∧
      ceStage bits (respond (statusWord t₁) t₁) = (hammingEncode bits, (BitVec.ofNat 2 (padCount bits)).toNat, t₂) ∧
      cdStage (inject (hammingEncode bits)) (BitVec.ofNat 2 (padCount bits)).toNat (respond (statusWord t₂) t₂) =
        (bits, t₃) ∧
      hdStage bits (respond (statusWord t₃) t₃) = (T, t₄) ∧
      t₁.status = 0 ∧ t₂.status = 0 ∧ t₃.status = 0 ∧ t₄.status = 0 := by
  obtain ⟨bits, henc, hdec⟩ := treeOf_roundTrip T
  obtain ⟨t₁, hhe, hinv₁, hframe₁⟩ := heStage_eq (s := respond (statusWord s) s) { h.inv with } h.codes henc
  simp only [beyondHe, respond, State.mk.injEq] at hframe₁
  obtain ⟨t₂, hce, hinv₂, hframe₂⟩ := ceStage_eq (s := respond (statusWord t₁) t₁) bits { hinv₁ with }
    (by simp [hframe₁, h.ceQ]) (by simp [hframe₁, h.ceG])
  simp only [beyondCe, respond, State.mk.injEq] at hframe₂
  have hpad : (BitVec.ofNat 2 (padCount bits)).toNat = padCount bits := by
    rw [BitVec.toNat_ofNat, padCount]
    omega
  have hflips := hinject (hammingEncode bits)
  obtain ⟨t₃, hcd, hinv₃, hframe₃⟩ := cdStage_eq (s := respond (statusWord t₂) t₂) (coded := inject (hammingEncode bits))
    (pad := BitVec.ofNat 2 (padCount bits)) { hinv₂ with } (by simp [hframe₁, hframe₂, h.cdQ])
    (by simp [hframe₁, hframe₂, h.cdB]) (by simp [hframe₁, hframe₂, h.cdHold])
    (by rw [hflips.1, hammingEncode_length]; omega)
    (by rw [hpad]; exact hammingRoundTripWithOneFlipPerBlock bits _ hflips)
  simp only [beyondCd, respond, State.mk.injEq] at hframe₃
  have htree : treeAt (respond (statusWord t₃) t₃) (treeOf T) s.root :=
    treeAt_of_node_eq h.tree (by simp [hframe₁, hframe₂, hframe₃])
  obtain ⟨t₄, hhd, hstatus₄⟩ := hdStage_eq (s := respond (statusWord t₃) t₃) (tree := treeOf T) (out := T) (bits := bits)
    { hinv₃ with }
    ⟨by simp [hframe₁, hframe₂, hframe₃, h.status], by simpa [hframe₁, hframe₂, hframe₃] using htree, treeOf T, T,
      by simpa [hframe₁, hframe₂, hframe₃, h.cur] using htree, by simpa [hframe₁, hframe₂, hframe₃, h.mid] using hdec,
      by simp [hframe₁, hframe₂, hframe₃, h.hdQ]⟩
  refine ⟨bits, t₁, t₂, t₃, t₄, ?_, hce, hcd, hhd, ?_, ?_, ?_, hstatus₄⟩
  · simpa [h.heQ] using hhe
  · simp [hframe₁, h.status]
  · simp [hframe₁, hframe₂, h.status]
  · simp [hframe₁, hframe₂, hframe₃, h.status]

/-- Settles O60: the run start is clean, and from there every check passes. -/
theorem referenceRunRecoversTheSource : Obligations.ReferenceRunRecoversTheSource := by
  intro T inject s h hfits hinject
  have hready := runReady_of_clean (performLines_keeps h (runStartLines T)).1 (runStartIsClean T s h hfits)
  obtain ⟨bits, t₁, t₂, t₃, t₄, hhe, hce, hcd, hhd, hs₁, hs₂, hs₃, hs₄⟩ := stages_recover hready hinject
  refine ⟨{ probs := probabilities T, codes := deriveCodes (treeOf T), encoded := bits, coded := hammingEncode bits,
            pad := (BitVec.ofNat 2 (padCount bits)).toNat, corrupted := inject (hammingEncode bits), recovered := bits,
            decoded := T }, respond (statusWord t₄) t₄, ?_, decide_eq_true rfl, decide_eq_true rfl⟩
  simp only [runWith, hfits, checkStatus_clear hready.status, bind, Except.bind, hhe, checkStatus_clear hs₁, hce,
    checkStatus_clear hs₂, hcd, checkStatus_clear hs₃, hhd, checkStatus_clear hs₄]
  rfl

end Sys2Proof.Machine
end

section
/-! PROOFS. The first-error capture of ERR_CMD (60_exceptions.md R212, R213): what a raise writes, and that of all the
instructions' effects only a command's report moves STATUS[5:0] away from zero. -/

namespace Sys2Proof.Machine

/-! ## STATUS[5:0] -/

/-- No command error is set exactly while bits 5 to 0 are clear (R213). -/
theorem commandErrors_eq_zero_iff (st : BitVec 8) : commandErrors st = 0#6 ↔ ∀ k, k < 6 → st.getLsbD k = false := by
  simp +contextual [commandErrors, BitVec.eq_of_getLsbD_eq_iff]

/-- Bits 5 to 0 cut out are those under the mask 0x3F. -/
theorem and_mask_eq_zero_iff_commandErrors (st : BitVec 8) : st &&& 0x3F#8 = 0#8 ↔ commandErrors st = 0#6 := by
  have hsplit : st.extractLsb' 6 2 ++ commandErrors st = st := BitVec.extractLsb'_append_extractLsb' (w := 2) (len := 6)
  have hand : st &&& (0#2 ++ 0x3F#6) = 0#2 ++ commandErrors st := by
    conv_lhs => rw [← hsplit]
    exact BitVec.and_append.trans (congrArg₂ _ BitVec.and_zero BitVec.and_allOnes)
  calc st &&& 0x3F#8 = 0#8
    _ ↔ 0#2 ++ commandErrors st = 0#2 ++ 0#6 := by rw [← hand]; rfl
    _ ↔ commandErrors st = 0#6 := bitVec_append_inj.trans (and_iff_right rfl)

/-- The errors other than UNDERRUN are the command errors, bits 5 to 0 (R211). -/
theorem bit_lt_of_ne_underrun {e : Err} (he : e ≠ .underrun) : e.bit < 6 := by
  cases e with
  | underrun => exact absurd rfl he
  | _ => simp [Err.bit]

theorem commandErrors_setBit_ne_zero (st : BitVec 8) {k : Nat} (hk : k < 6) : commandErrors (setBit st k) ≠ 0#6 := by
  intro h
  have hclear := (commandErrors_eq_zero_iff _).1 h k hk
  rw [setBit_getLsbD _ _ _ (by omega)] at hclear
  simp at hclear

/-- UNDERRUN and TRUNC are no command errors (R211). -/
theorem commandErrors_setBit_eq_zero {st : BitVec 8} {k : Nat} (hk : 6 ≤ k) (h : commandErrors st = 0#6) :
    commandErrors (setBit st k) = 0#6 := by
  refine (commandErrors_eq_zero_iff _).2 fun j hj => ?_
  have hne : j ≠ k := by omega
  rw [setBit_getLsbD _ _ _ (by omega), (commandErrors_eq_zero_iff st).1 h j hj, decide_eq_false hne, Bool.false_or]

/-- An acknowledgement sets no bit (R94). -/
theorem commandErrors_ackBits_eq_zero {st : BitVec 8} (v : Word) (h : commandErrors st = 0#6) :
    commandErrors (ackBits st v) = 0#6 := by
  refine (commandErrors_eq_zero_iff _).2 fun j hj => ?_
  rw [ackBits_getLsbD _ _ _ (by omega), (commandErrors_eq_zero_iff st).1 h j hj, Bool.false_and]

/-! ## What one raise does -/

/-- A command error sets its bit, and captures its word if it is the first (R213). -/
theorem raise_of_ne_underrun {e : Err} (he : e ≠ .underrun) (w : Word) (s : State) : raise e w s =
    { s with
      status := setBit s.status e.bit
      errCmd := if s.status &&& 0x3F#8 = 0#8 then w else s.errCmd } := by
  simp only [raise, he, ne_eq, not_false_eq_true, true_and, and_mask_eq_zero_iff_commandErrors]

/-- Settles O13, each command error by the one equation for all six. -/
theorem raiseSetsTheBitAndCaptures : Obligations.RaiseSetsTheBitAndCaptures := fun s w =>
  ⟨raise_of_ne_underrun (by decide) w s, raise_of_ne_underrun (by decide) w s, raise_of_ne_underrun (by decide) w s,
    raise_of_ne_underrun (by decide) w s, raise_of_ne_underrun (by decide) w s, raise_of_ne_underrun (by decide) w s,
    raise_underrun w s, rfl⟩

/-! ## What every instruction does -/

/-- ERR_CMD is kept and no first error is raised. -/
def KeepsErrCmd (s t : State) : Prop :=
  t.errCmd = s.errCmd ∧ (commandErrors s.status = 0#6 → commandErrors t.status = 0#6)

/-- The write of w to CMD left a command error set, and ERR_CMD has w if none was set before (R213). -/
def ReportsWord (i : Instr) (s t : State) : Prop :=
  ∃ w, encode i = .wr .cmd w ∧ commandErrors t.status ≠ 0#6 ∧
    t.errCmd = if commandErrors s.status = 0#6 then w else s.errCmd

variable {i : Instr} {s t : State}

theorem keepsErrCmd_raise_underrun (w : Word) (s : State) : KeepsErrCmd s (raise .underrun w s) :=
  ⟨by simp, commandErrors_setBit_eq_zero (by decide)⟩

theorem reportsWord_raise {e : Err} {w : Word} (he : e ≠ .underrun) (hw : encode i = .wr .cmd w) (s : State) :
    ReportsWord i s (raise e w s) :=
  ⟨w, hw, commandErrors_setBit_ne_zero _ (bit_lt_of_ne_underrun he), by simp [he]⟩

/-- ERR_CMD is written by a command error's report only, which alone can leave a command error set where none was
(R213). -/
theorem Effect.errCmd_writers (h : Effect i s t) : KeepsErrCmd s t ∨ ReportsWord i s t := by
  cases h with
  | @report _ e s w hw =>
    by_cases hu : e = .underrun
    · exact .inl (hu ▸ keepsErrCmd_raise_underrun w s)
    · exact .inr (reportsWord_raise hu hw s)
  | underrun => exact .inl (keepsErrCmd_raise_underrun 0 s)
  | hdBitsTree n s q c m => exact .inr (reportsWord_raise (by decide) rfl { s with hdQ := q, cur := c, mid := m })
  | cdEndLength pad s => exact .inr (reportsWord_raise (by decide) rfl { s with cdB := [], cdHold := none })
  | hdEndTrunc => exact .inl ⟨rfl, commandErrors_setBit_eq_zero (by decide)⟩
  | wrStatus v => exact .inl ⟨rfl, commandErrors_ackBits_eq_zero v⟩
  | _ => exact .inl ⟨rfl, id⟩

/-- Settles O18: an effect that keeps ERR_CMD raises no first error, and a report captures its word exactly if it is the
first. -/
theorem errCmdCapturesTheFirstError : Obligations.ErrCmdCapturesTheFirstError := by
  intro i s t hi h
  simp only [ne_eq, and_mask_eq_zero_iff_commandErrors]
  rcases (effect_of_wellFormed hi h).errCmd_writers with ⟨hkept, hzero⟩ | ⟨w, hw, hset, herr⟩
  · exact ⟨fun hs ht => absurd (hzero hs) ht, fun _ => hkept⟩
  · refine ⟨fun hs _ => ?_, fun hfirst => ?_⟩
    · rw [herr, if_pos hs]
      exact hw
    · exact herr.trans (if_neg fun hs => hfirst ⟨hs, hset⟩)

end Sys2Proof.Machine
end
